-- ==== Sys2Proof/Word.lean ====
section
/-! DEFINITION. The word types of the DPCM2D engine: one width each, the values chosen in 00_scope.md rule R7
(DW = 16, AW = 32, PW = 8, QW = 16, LW = MW = 32) and the widths of 10_state.md rule R22. -/

namespace Sys2Proof

/-- A command word: the low 32 bits of a value written to CMD (R94). -/
abbrev CommandWord := BitVec 32

/-- The value a host transaction carries, 64 bits (R21, R90). -/
abbrev HostValue := BitVec 64

/-- A register number of a host transaction, 0..2^16−1 (R90). -/
abbrev RegNo := BitVec 16

/-- A dimension or cursor register, DW = 16 bits (R7). -/
abbrev Dim := BitVec 16

/-- A cell address of a host transaction, AW = 32 bits (R7, R92). -/
abbrev CellAddr := BitVec 32

/-- A cell of ORIG or RECON, PW = 8 bits, read unsigned (R60). -/
abbrev Pixel := BitVec 8

/-- A cell of RESID, QW = 16 bits, read as two's complement (R60, R62). -/
abbrev ResidCell := BitVec 16

/-- The FMT bit pattern of a quotient, binary64 (R7, R232). -/
abbrev FloatBits := BitVec 64

end Sys2Proof
end

