-- ==== Sys2Proof/Syntax.lean ====
section
/-! DEFINITION. The syntax: the seven commands (30_encoding.md R96), the predictor modes, spaces and register names, the
host's transactions (R90 to R93), the events of a run, and the lines of a script (R103 to R109). -/

namespace Sys2Proof

/-- The commands: one constructor per row of the opcode table. No command word carries an operand (R94, R97). -/
inductive Instr where
  | cfg | enc | dec | mse | ratio | clrerr | srst
  deriving DecidableEq, Repr

/-- "PredictorMode: closed set of variants {Order1, Order2, Adaptive}" (R5, R17, R98). -/
inductive PredictorMode where
  | order1 | order2 | adaptive
  deriving DecidableEq, Repr

/-- The three grid memories (R60). A space code other than 0, 1, 2 cannot be expressed (R93). -/
inductive Space where
  | orig | resid | recon
  deriving DecidableEq, Repr

/-- The 22 registers, by the names of rule R22, in the order of their numbers. -/
inductive Reg where
  | cmd | status | modeReq | levelsReq
  | origH | origW | residH | residW | reconH | reconW
  | cfgMode | cfgLevels | cfgStep | curI | curJ
  | sse | npix | mseQ | ratioNum | ratioDen | ratioBpr | ratioQ
  deriving DecidableEq, Repr

/-- The fields of STATUS (R24), as `expect STATUS.F, v` names them (R106). -/
inductive StatusField where
  | busy | cfgValid | mseValid | ratioValid | ratioDiv0 | result | errs | lastop
  deriving DecidableEq, Repr

/-- The four error causes (R280). -/
inductive Cause where
  | configError | inputError | dimensionMismatchError | illegalCommand
  deriving DecidableEq, Repr

/-- A host transaction (R90 to R93). -/
inductive Transaction where
  | rd (n : RegNo)
  | wr (n : RegNo) (v : HostValue)
  | rm (sp : Space) (a : CellAddr)
  | wm (sp : Space) (a : CellAddr) (v : HostValue)
  deriving DecidableEq, Repr

/-- A comparison a script states: `expect REG, v`, `expect STATUS.F, v`, `expectm SPACE, a, v` (R106). -/
inductive Check where
  | reg (n : RegNo) (v : Int)
  | field (f : StatusField) (v : Int)
  | cell (sp : Space) (a : CellAddr) (v : Int)
  deriving DecidableEq, Repr

/-- What happens next in a run, the model's rendering of the two agents of R6: the host performs a transaction, performs a
comparing read (R106), waits for BUSY = 0 (R105), leaves the engine a turn, or the external reset is applied (R310). -/
inductive Event where
  | host (t : Transaction)
  | check (c : Check)
  | wait
  | engine
  | reset
  deriving DecidableEq, Repr

/-- A script line (R103 to R109). Numbers are integers, negative ones allowed (R103); a name is its characters. -/
inductive Line where
  | rd (n : RegNo)
  | wr (n : RegNo) (v : Int)
  | rm (sp : Space) (a : CellAddr)
  | wm (sp : Space) (a : CellAddr) (v : Int)
  | command (i : Instr)
  | cmd (w : Int)
  | wait
  | check (c : Check)
  | configure (name : List Char) (levels : Int)
  | loadgrid (sp : Space) (h w : Nat) (rows : List (List Int))
  | expectgrid (sp : Space) (h w : Nat) (rows : List (List Int))
  | pipeline (name : List Char) (levels : Int)
  deriving DecidableEq, Repr

end Sys2Proof
end

