-- ==== Sys2Proof/Config.lean ====
section
/-! DEFINITION. What an implementation fixes. The widths of 00_scope.md R7 are the types of Word.lean (log entry 18); FMT is
binary64 (Machine/Quotient.lean, log entry 12); BUSMAP is seen by no rule and is not represented (log entry 14). Here stand
the number of cells of a space and the free contents of the grid memories after power-on. -/

namespace Sys2Proof

/-- Each space has 2^AW = 2^32 cells, at addresses 0 to 2^32 − 1, all present (R60). -/
def Config.spaceCells : Nat := 2 ^ 32

/-- What an ORIG cell that nothing has written holds: an arbitrary value, chosen once (R70, I1). Free value, log entry 1. -/
opaque Config.powerOnOrig : Nat → Pixel

/-- What a RESID cell that nothing has written holds: an arbitrary value, chosen once (R70, I1). Free value, log entry 1. -/
opaque Config.powerOnResid : Nat → ResidCell

/-- What a RECON cell that nothing has written holds: an arbitrary value, chosen once (R70, I1). Free value, log entry 1. -/
opaque Config.powerOnRecon : Nat → Pixel

end Sys2Proof
end

