-- ==== Sys2Proof/WellFormed.lean ====
section
/-! DEFINITION. Well-formedness: of an instruction (none carries an operand), of a command word (R95), and of a script
line (R108: a listed grid has H rows of W values). -/

namespace Sys2Proof

/-- Every command is well formed: no command word carries a register number, an immediate or a mode bit (R94). -/
def Instr.wellFormed : Instr → Bool
  | .cfg | .enc | .dec | .mse | .ratio | .clrerr | .srst => true

/-- R95: a command word is legal iff bits 31:8 are zero and bits 7:0 are one of 0x01 to 0x07. -/
def CommandWord.legal (w : CommandWord) : Bool :=
  w.extractLsb' 8 24 = 0#24 && 1 ≤ (w.extractLsb' 0 8).toNat && (w.extractLsb' 0 8).toNat ≤ 7

/-- R108: "The list must have H rows of W values." -/
def gridShape (h w : Nat) (rows : List (List Int)) : Bool :=
  rows.length = h && rows.all (fun r => r.length = w)

/-- A script line is well formed when the grids it lists have the shape it states (R108). -/
def Line.wellFormed : Line → Bool
  | .loadgrid _ h w rows => gridShape h w rows
  | .expectgrid _ h w rows => gridShape h w rows
  | .rd _ | .wr _ _ | .rm _ _ | .wm _ _ _ | .command _ | .cmd _ | .wait | .check _ | .configure _ _ | .pipeline _ _ => true

end Sys2Proof
end

