-- ==== Sys2Proof/Decode.lean ====
section
/-! DEFINITION. The decoder, total on every 32-bit command word (R95), the encoder, and the numbers of registers, spaces,
modes and causes (R22, R60, R98, R280). -/

namespace Sys2Proof

/-- Why a command word is not one of the seven (R101). Both behave alike: IllegalCommand is raised (R265). -/
inductive DecodeError where
  /-- a nonzero bit in 31:8, whatever the low byte -/
  | upperBitsNonzero
  /-- bits 31:8 are zero and the low byte is 0x00 or 0x08 to 0xFF -/
  | unknownOpcode
  deriving DecidableEq, Repr

/-- The field `op`, bits 7:0 of a command word (R94). -/
def opField (w : CommandWord) : BitVec 8 := w.extractLsb' 0 8

/-- The field `zero`, bits 31:8 of a command word (R94). -/
def zeroField (w : CommandWord) : BitVec 24 := w.extractLsb' 8 24

/-- The opcode map (R96). -/
def decodeOp (op : BitVec 8) : Option Instr :=
  if op = 0x01#8 then some .cfg
  else if op = 0x02#8 then some .enc
  else if op = 0x03#8 then some .dec
  else if op = 0x04#8 then some .mse
  else if op = 0x05#8 then some .ratio
  else if op = 0x06#8 then some .clrerr
  else if op = 0x07#8 then some .srst
  else none

/-- Decoding (R95): every 32-bit value is either one of the seven commands or illegal. -/
def decode (w : CommandWord) : Except DecodeError Instr :=
  if zeroField w = 0#24 then
    match decodeOp (opField w) with
    | some i => .ok i
    | none => .error .unknownOpcode
  else .error .upperBitsNonzero

/-- The opcode of a command (R96). -/
def Instr.opcode : Instr → BitVec 8
  | .cfg => 0x01#8
  | .enc => 0x02#8
  | .dec => 0x03#8
  | .mse => 0x04#8
  | .ratio => 0x05#8
  | .clrerr => 0x06#8
  | .srst => 0x07#8

/-- The command word of a command (R94, R96): `zero` above `op`. -/
def encode (i : Instr) : CommandWord := 0#24 ++ i.opcode

/-- The instruction the decoder reads from a word of the opcode table's numbering; bits at and above `nbits` are 0. -/
def decodeTableWord (nbits w : Nat) : Option Instr :=
  match decode (BitVec.ofNat 32 (w % 2 ^ nbits)) with
  | .ok i => some i
  | .error _ => none

/-- Register numbers (R22). -/
def Reg.number : Reg → Nat
  | .cmd => 0 | .status => 1 | .modeReq => 2 | .levelsReq => 3
  | .origH => 4 | .origW => 5 | .residH => 6 | .residW => 7 | .reconH => 8 | .reconW => 9
  | .cfgMode => 10 | .cfgLevels => 11 | .cfgStep => 12 | .curI => 13 | .curJ => 14
  | .sse => 15 | .npix => 16 | .mseQ => 17
  | .ratioNum => 18 | .ratioDen => 19 | .ratioBpr => 20 | .ratioQ => 21

/-- The register of a number; none above 21 (R23 d). -/
def Reg.ofNumber : Nat → Option Reg
  | 0 => some .cmd | 1 => some .status | 2 => some .modeReq | 3 => some .levelsReq
  | 4 => some .origH | 5 => some .origW | 6 => some .residH | 7 => some .residW | 8 => some .reconH | 9 => some .reconW
  | 10 => some .cfgMode | 11 => some .cfgLevels | 12 => some .cfgStep | 13 => some .curI | 14 => some .curJ
  | 15 => some .sse | 16 => some .npix | 17 => some .mseQ
  | 18 => some .ratioNum | 19 => some .ratioDen | 20 => some .ratioBpr | 21 => some .ratioQ
  | _ => none

/-- A register's number as a transaction carries it. -/
def Reg.no (r : Reg) : RegNo := BitVec.ofNat 16 r.number

/-- The mode codes (R98): 0 Order1, 1 Order2, 2 Adaptive, the value CFG_MODE reads as (R22). -/
def PredictorMode.code : PredictorMode → BitVec 2
  | .order1 => 0#2
  | .order2 => 1#2
  | .adaptive => 2#2

/-- The code of an error cause, the value written to STATUS.RESULT (R280). -/
def Cause.code : Cause → BitVec 4
  | .configError => 1#4
  | .inputError => 2#4
  | .dimensionMismatchError => 3#4
  | .illegalCommand => 4#4

/-- The script code of a space (R60). -/
def Space.code : Space → Nat
  | .orig => 0
  | .resid => 1
  | .recon => 2

/-- The register that holds the rows of a space's grid (R35). -/
def Space.heightReg : Space → Reg
  | .orig => .origH
  | .resid => .residH
  | .recon => .reconH

/-- The register that holds the columns of a space's grid (R35). -/
def Space.widthReg : Space → Reg
  | .orig => .origW
  | .resid => .residW
  | .recon => .reconW

end Sys2Proof
end

