-- ==== Sys2Proof/Machine/State.lean ====
section
/-! DEFINITION. The state of the machine as plain data: the registers of 10_state.md R22, the three grid memories of
20_memory.md R60, and the other agent (the host's script and what its reads returned). -/

namespace Sys2Proof.Machine

/-- The fields of STATUS (R24). The bits the rule fixes at zero have no storage; `Status.word` lays the fields out. -/
structure Status where
  /-- bit 0: an ENC, DEC or MSE pass is running (R25) -/
  busy : Bool
  /-- bit 1: CFG_MODE, CFG_LEVELS, CFG_STEP hold a valid configuration (R26) -/
  cfgValid : Bool
  /-- bit 2: SSE, NPIX, MSE_Q hold the result of the last MSE command, and it succeeded (R27) -/
  mseValid : Bool
  /-- bit 3: the RATIO registers hold the result of the last RATIO command, and it succeeded (R27) -/
  ratioValid : Bool
  /-- bit 4: the last successful RATIO had encodedBits = 0 (R27, R238) -/
  ratioDiv0 : Bool
  /-- bits 11:8: outcome code of the last completed command (R28) -/
  result : BitVec 4
  /-- bits 15:12: sticky error bits (R28) -/
  errs : BitVec 4
  /-- bits 23:16: low byte of the last command word accepted (R29) -/
  lastop : BitVec 8
  deriving DecidableEq, Repr

/-- A grid memory: the cells written since power-on, as (address, cell) pairs in strictly rising order of address. An
unlisted address has no written value and reads as the free power-on value of its cell (R70; log entries 1, 2).
`Memory 8` is a list of `Host.Cell`. -/
abbrev Memory (w : Nat) := List (Nat × BitVec w)

/-- What one read of the host returned (R90, R92) and, for a comparing read (R106), whether it met the value the script
states (true for a read that states none). -/
structure Reading where
  value : HostValue
  met : Bool
  deriving DecidableEq, Repr

/-- The state: (a) the registers of R22, (b) the three grid memories of R60, which R20 calls "the whole state of the
engine", and (c) the host agent (the model's own fields, log entries 4, 5 and 7). CMD (register 0) is a trigger: it holds
nothing and reads 0 (R23 c). -/
structure State where
  status : Status
  modeReq : BitVec 32
  levelsReq : BitVec 32
  origH : Dim
  origW : Dim
  residH : Dim
  residW : Dim
  reconH : Dim
  reconW : Dim
  /-- CFG_MODE, 2 bits; only the codes 0, 1, 2 occur (R26, R126), so it is held as the closed variant (log entry 8). -/
  cfgMode : PredictorMode
  cfgLevels : BitVec 32
  cfgStep : BitVec 9
  /-- the cursor's row; (CUR_I, CUR_J) is the engine's program counter (R13, R30) -/
  curI : Dim
  /-- the cursor's column -/
  curJ : Dim
  sse : BitVec 64
  npix : BitVec 32
  mseQ : FloatBits
  ratioNum : BitVec 64
  ratioDen : BitVec 64
  ratioBpr : BitVec 5
  ratioQ : FloatBits
  orig : Memory 8
  resid : Memory 16
  recon : Memory 8
  /-- the model's own: what will happen, in order (R6) -/
  script : List Event
  /-- the model's own: what the host's reads returned, newest first (R104) -/
  readings : List Reading
  deriving DecidableEq, Repr

/-- Why the machine stops. The spec has no such case ("Nothing in this spec is `fault` or `stuck` by omission",
93_implementation_defined.md); these name situations that no run from reset reaches and to which the spec gives no effect.
All are safe: the model stops where the spec says nothing happens at all (log entry 10). -/
inductive Fault where
  /-- Raised by the engine step: BUSY = 1 and LASTOP is none of 0x02, 0x03, 0x04. R256: "No other value of LASTOP can occur
  with BUSY=1". Safe. -/
  | noPass
  /-- Raised by a cell step: BUSY = 1 and the cursor is outside the grid; R33 makes a cell of (i, j) only for i < H and
  j < W. Safe. -/
  | noCell
  /-- Raised by an ENC cell step with CFG_STEP = 0: QUANT has no value there (R142 asks s ≥ 1; R150 "No operation divides by
  zero"). Safe. -/
  | zeroStep
  deriving DecidableEq, Repr

/-- Why the model gives a step no meaning. -/
inductive Refusal where
  /-- Raised by an arm of `exec` whose instruction has no meaning yet, by its mnemonic. Safe. No arm does. -/
  | notModelled (mnemonic : String)
  deriving DecidableEq, Repr

/-- STATUS after reset: 0x00000000 (R22, R39). -/
def Status.reset : Status :=
  ⟨false, false, false, false, false, 0#4, 0#4, 0#8⟩

/-- The machine right after reset at power-on (R39): every register 0, no cell of any memory written (R70), and a host that
has yet to do anything. -/
def State.reset : State where
  status := Status.reset
  modeReq := 0#32
  levelsReq := 0#32
  origH := 0#16
  origW := 0#16
  residH := 0#16
  residW := 0#16
  reconH := 0#16
  reconW := 0#16
  cfgMode := .order1
  cfgLevels := 0#32
  cfgStep := 0#9
  curI := 0#16
  curJ := 0#16
  sse := 0#64
  npix := 0#32
  mseQ := 0#64
  ratioNum := 0#64
  ratioDen := 0#64
  ratioBpr := 0#5
  ratioQ := 0#64
  orig := []
  resid := []
  recon := []
  script := []
  readings := []

end Sys2Proof.Machine
end

