-- ==== Sys2Proof/Machine/Ops.lean ====
section
/-! DEFINITION. The named operations over the grid memories and the registers: cell reads and writes (R12, R60), the
completion of a command (R258), TAKING AN ERROR as one operation (R286), and the register reset (R310). -/

namespace Sys2Proof.Machine

/-! ## Memories -/

/-- The value written last to address `a`; none where nothing has been written since power-on. -/
def Memory.lookup {w : Nat} : Memory w → Nat → Option (BitVec w)
  | [], _ => none
  | (k, x) :: m, a => if k = a then some x else Memory.lookup m a

/-- Writing one cell, in the place that keeps addresses rising: the addressed cell and nothing else (R69). -/
def Memory.store {w : Nat} : Memory w → Nat → BitVec w → Memory w
  | [], a, v => [(a, v)]
  | (k, x) :: m, a, v =>
    if a < k then (a, v) :: (k, x) :: m
    else if a = k then (a, v) :: m
    else (k, x) :: Memory.store m a v

/-- The canonical form: addresses strictly rising, all of them addresses of the space (R60). No entry equals what an
unlisted address has as its written value, which is none. -/
abbrev Memory.wf {w : Nat} (m : Memory w) : Prop :=
  m.Pairwise (fun p q => p.1 < q.1) ∧ ∀ p ∈ m, p.1 < Config.spaceCells

/-- The cell of ORIG at address `a` (R12 `MemRead(ORIG, a, 1)`); unwritten, its power-on value (R70). -/
def State.readOrig (s : State) (a : Nat) : Pixel := (s.orig.lookup a).getD (Config.powerOnOrig a)

/-- The cell of RESID at address `a` (R12 `MemRead(RESID, a, 1)`); unwritten, its power-on value (R70). -/
def State.readResid (s : State) (a : Nat) : ResidCell := (s.resid.lookup a).getD (Config.powerOnResid a)

/-- The cell of RECON at address `a` (R12 `MemRead(RECON, a, 1)`); unwritten, its power-on value (R70). -/
def State.readRecon (s : State) (a : Nat) : Pixel := (s.recon.lookup a).getD (Config.powerOnRecon a)

/-- `MemWrite(ORIG, a, 1, v)` (R12). -/
def State.writeOrig (s : State) (a : Nat) (v : Pixel) : State := { s with orig := s.orig.store a v }

/-- `MemWrite(RESID, a, 1, v)` (R12). -/
def State.writeResid (s : State) (a : Nat) (v : ResidCell) : State := { s with resid := s.resid.store a v }

/-- `MemWrite(RECON, a, 1, v)` (R12). -/
def State.writeRecon (s : State) (a : Nat) (v : Pixel) : State := { s with recon := s.recon.store a v }

/-! ## The cursor and the busy flag -/

/-- `pc <- (i, j)` (R13). -/
def State.setCursor (s : State) (c : Nat × Nat) : State :=
  { s with curI := BitVec.ofNat 16 c.1, curJ := BitVec.ofNat 16 c.2 }

/-- `STATUS.LASTOP <- w[7:0]`, the first thing the acceptance of any command word does (R29, R250). -/
def State.accept (s : State) (op : BitVec 8) : State := { s with status := { s.status with lastop := op } }

/-- How ENC, DEC and MSE begin their pass: `pc <- (0, 0)`, `STATUS.BUSY <- 1` (R181, R201, R221). -/
def State.startPass (s : State) : State :=
  { s.setCursor (0, 0) with status := { s.status with busy := true } }

/-! ## Ending a command; taking an error -/

/-- The bit of ERRS that cause code c sets: ERRS[c−1], which is STATUS bit 11 + c (R258, R280); none for code 0. -/
def errBit (c : BitVec 4) : BitVec 4 := if c = 0#4 then 0#4 else 1#4 <<< (c.toNat - 1)

/-- `Complete(c)` (R258): BUSY <- 0, RESULT <- c, and for a nonzero code its sticky bit is set and none is cleared. -/
def State.complete (s : State) (c : BitVec 4) : State :=
  { s with status := { s.status with busy := false, result := c, errs := s.status.errs ||| errBit c } }

/-- `raise X()` (R286): Complete with the cause's code; nothing is saved, control goes nowhere, and the command ends (the
caller does nothing after it). There is no return from an error (R289): nothing was saved to restore. -/
def State.raise (s : State) (x : Cause) : State := s.complete x.code

/-! ## Reset -/

/-- The effect of reset and of SRST: every register of R22 to its reset value; the memories and the host are not touched
(R263, R310, R312). -/
def State.resetRegisters (s : State) : State :=
  { State.reset with orig := s.orig, resid := s.resid, recon := s.recon, script := s.script, readings := s.readings }

end Sys2Proof.Machine
end

