-- ==== Sys2Proof/Machine/Operands.lean ====
section
/-! DEFINITION. The operand forms: the CFG operands (R98, R99), the cell address (R63), the neighbours (R65), the raster
order (R31), and the cells read as integers (R12). -/

namespace Sys2Proof.Machine

/-- The mode operand (R98): the whole 32-bit value is compared; 0, 1, 2 name the modes, every other value is unknown. -/
def modeOperand (v : BitVec 32) : Option PredictorMode :=
  match v.toNat with
  | 0 => some .order1
  | 1 => some .order2
  | 2 => some .adaptive
  | _ => none

/-- The levels operand (R99): `sext_32(x[LEVELS_REQ])`. -/
def levelsOperand (v : BitVec 32) : Int := v.toInt

/-- `Addr(i, j, W) = i*W + j` (R63). -/
def addr (i j w : Nat) : Nat := i * w + j

/-- `Advance(i, j, W)`: the row-major successor (R31). -/
def advance (i j w : Nat) : Nat × Nat := if j + 1 < w then (i, j + 1) else (i + 1, 0)

/-- `Last(i, j, H, W)` (R31). -/
def last (i j h w : Nat) : Bool := i = h - 1 && j = w - 1

/-- `left` (R65): the constant 0 in column 0, not the last cell of the row above. -/
def left (cell : Nat → Int) (i j w : Nat) : Int := if 0 < j then cell (addr i (j - 1) w) else 0

/-- `top` (R65). -/
def top (cell : Nat → Int) (i j w : Nat) : Int := if 0 < i then cell (addr (i - 1) j w) else 0

/-- `topLeft` (R65). -/
def topLeft (cell : Nat → Int) (i j w : Nat) : Int :=
  if 0 < i ∧ 0 < j then cell (addr (i - 1) (j - 1) w) else 0

/-- `orig(a) = zext_8(MemRead(ORIG, a, 1))` (R12). -/
def State.origInt (s : State) (a : Nat) : Int := ((s.readOrig a).toNat : Int)

/-- `recon(a) = zext_8(MemRead(RECON, a, 1))` (R12). -/
def State.reconInt (s : State) (a : Nat) : Int := ((s.readRecon a).toNat : Int)

/-- `resid(a) = sext_16(MemRead(RESID, a, 1))` (R12, R62). -/
def State.residInt (s : State) (a : Nat) : Int := (s.readResid a).toInt

/-- A pair of dimension registers names an empty grid (R100): "H = 0 or W = 0". -/
def emptyGrid (h w : Dim) : Bool := h = 0#16 || w = 0#16

end Sys2Proof.Machine
end

