-- ==== Sys2Proof/Machine/Datapath.lean ====
section
/-! DEFINITION. The datapath functions on exact integers (R9, R150): PREDICT (40_predictor.md), STEPOF, QUANT, DEQUANT, CLAMP
(41_quantizer.md) and CLOG2 (45_statistics.md). `/` on `Int` with a positive divisor is the floor division of R9. -/

namespace Sys2Proof.Machine

/-- PREDICT (R120): Order1 = left (R121), Order2 = left + top − topLeft (R122), Adaptive = floor((left + top) / 2) (R123).
Not clamped and not narrowed (R127). -/
def predict (cell : Nat → Int) (i j w : Nat) (m : PredictorMode) : Int :=
  match m with
  | .order1 => left cell i j w
  | .order2 => left cell i j w + top cell i j w - topLeft cell i j w
  | .adaptive => (left cell i j w + top cell i j w) / 2

/-- STEPOF (R140): ceil(256 / L) = floor((255 + L) / L), for L ≥ 1. -/
def stepOf (l : Nat) : Nat := (255 + l) / l

/-- QUANT (R142): round half up of e / s, floor((2e + s) / (2s)), for s ≥ 1. -/
def quant (e : Int) (s : Nat) : Int := (2 * e + s) / (2 * s)

/-- DEQUANT (R147): exact, signed. -/
def dequant (q : Int) (s : Nat) : Int := q * s

/-- CLAMP (R148): saturation to 0..255. -/
def clamp (v : Int) : Int := if v < 0 then 0 else if 255 < v then 255 else v

/-- The search behind CLOG2: the least exponent from `b` on whose power of two reaches `l`, `fuel` tries. -/
def clog2From : Nat → Nat → Nat → Nat
  | 0, b, _ => b
  | fuel + 1, b, l => if l ≤ 2 ^ b then b else clog2From fuel (b + 1) l

/-- CLOG2 (R237): "the least integer b >= 0 with 2^b >= L", on integers. -/
def clog2 (l : Nat) : Nat := clog2From l 0 l

end Sys2Proof.Machine
end

