-- ==== Sys2Proof/Machine/Flags.lean ====
section
/-! DEFINITION. The STATUS word (R24) and its fields. -/

namespace Sys2Proof.Machine

/-- One flag as a one-bit field. -/
def flagBit (b : Bool) : BitVec 1 := if b then 1#1 else 0#1

/-- The STATUS word as the host reads it (R24): 31:24 zero, 23:16 LASTOP, 15:12 ERRS, 11:8 RESULT, 7:5 zero, then
RATIO_DIV0, RATIO_VALID, MSE_VALID, CFG_VALID and BUSY in bits 4 to 0. -/
def Status.word (t : Status) : BitVec 32 :=
  0#8 ++ t.lastop ++ t.errs ++ t.result ++ 0#3 ++ flagBit t.ratioDiv0 ++ flagBit t.ratioValid ++ flagBit t.mseValid
    ++ flagBit t.cfgValid ++ flagBit t.busy

/-- The lowest bit and the width of a STATUS field (R24). -/
def fieldRange : StatusField → Nat × Nat
  | .busy => (0, 1)
  | .cfgValid => (1, 1)
  | .mseValid => (2, 1)
  | .ratioValid => (3, 1)
  | .ratioDiv0 => (4, 1)
  | .result => (8, 4)
  | .errs => (12, 4)
  | .lastop => (16, 8)

/-- A STATUS field cut out of the word a host read returned (R24, R106). -/
def statusField (f : StatusField) (word : HostValue) : Nat :=
  word.toNat / 2 ^ (fieldRange f).1 % 2 ^ (fieldRange f).2

/-- MSE's acceptance clears MSE_VALID before any check (R221, R27). -/
def State.clearMseValid (s : State) : State := { s with status := { s.status with mseValid := false } }

/-- RATIO's acceptance clears RATIO_VALID and RATIO_DIV0 before any check (R235, R27). -/
def State.clearRatioFlags (s : State) : State :=
  { s with status := { s.status with ratioValid := false, ratioDiv0 := false } }

/-- `STATUS.ERRS <- 0` (R262). -/
def State.clearErrs (s : State) : State := { s with status := { s.status with errs := 0#4 } }

end Sys2Proof.Machine
end

