-- ==== Sys2Proof/Machine/Configure.lean ====
section
/-! DEFINITION. Configuration: the command CFG (42_configure.md). -/

namespace Sys2Proof.Machine

/-- The latched configuration and its valid flag written together (R160, R161, R163). -/
def State.latchConfig (s : State) (valid : Bool) (m : PredictorMode) (levels : BitVec 32) (stp : BitVec 9) : State :=
  { s with status := { s.status with cfgValid := valid }, cfgMode := m, cfgLevels := levels, cfgStep := stp }

/-- CFG (R160): an unknown mode or a non-positive level count drops the configuration and raises ConfigError (R163);
otherwise (mode, levels, STEPOF(levels)) is latched whole (R161). -/
def execCfg (s : State) : Host.Outcome State Fault Refusal :=
  let t := s.accept Instr.cfg.opcode
  match modeOperand t.modeReq with
  | none => .next ((t.latchConfig false .order1 0#32 0#9).raise .configError)
  | some m =>
    if levelsOperand t.levelsReq ≤ 0 then .next ((t.latchConfig false .order1 0#32 0#9).raise .configError)
    else
      .next ((t.latchConfig true m (BitVec.ofInt 32 (levelsOperand t.levelsReq))
        (BitVec.ofNat 9 (stepOf (levelsOperand t.levelsReq).toNat))).complete 0#4)

end Sys2Proof.Machine
end

