-- ==== Sys2Proof/Machine/Pass.lean ====
section
/-! DEFINITION. The shape that the cell steps of ENC, DEC and MSE share (46_control.md R256, R257). -/

namespace Sys2Proof.Machine

/-- One cell step of a pass over a grid of h rows and w columns: the cell's own work at (i, j) = pc, the command's finish
after the last cell (R257), then `pc <- Advance(i, j, W)` (R32). A cursor that is no cell of the grid (R33) stops. -/
def State.visit (s : State) (h w : Nat) (cell finish : State → State) : Host.Outcome State Fault Refusal :=
  let i := s.curI.toNat
  let j := s.curJ.toNat
  if i < h ∧ j < w then
    let t := cell s
    let u := if last i j h w then finish t else t
    .next (u.setCursor (advance i j w))
  else .fault .noCell

end Sys2Proof.Machine
end

