-- ==== Sys2Proof/Machine/Decoder.lean ====
section
/-! DEFINITION. The decode pass: the command DEC (44_decoder.md). -/

namespace Sys2Proof.Machine

/-- DEC acceptance (R201). -/
def execDec (s : State) : Host.Outcome State Fault Refusal :=
  let t := s.accept Instr.dec.opcode
  if t.status.cfgValid = false then .next (t.raise .configError)
  else if emptyGrid t.residH t.residW then .next (t.raise .inputError)
  else .next t.startPass

/-- The value DEC stores at (i, j) (R202): CLAMP of the prediction from the grid under construction plus the dequantized
residual. -/
def State.decPixel (s : State) (i j : Nat) : Int :=
  clamp (predict s.reconInt i j s.residW.toNat s.cfgMode + dequant (s.residInt (addr i j s.residW.toNat)) s.cfgStep.toNat)

/-- The cell's own work in a DEC pass (R202): one RECON write, addressed with the residual grid's width. -/
def State.decWrite (s : State) : State :=
  s.writeRecon (addr s.curI.toNat s.curJ.toNat s.residW.toNat)
    (BitVec.ofInt 8 (s.decPixel s.curI.toNat s.curJ.toNat))

/-- DEC completion (R204). -/
def State.decFinish (s : State) : State :=
  { s with reconH := s.residH, reconW := s.residW }.complete 0#4

/-- DEC cell step (R202). -/
def decCell (s : State) : Host.Outcome State Fault Refusal :=
  s.visit s.residH.toNat s.residW.toNat State.decWrite State.decFinish

end Sys2Proof.Machine
end

