-- ==== Sys2Proof/Machine/Encoder.lean ====
section
/-! DEFINITION. The encode pass: the command ENC (43_encoder.md). -/

namespace Sys2Proof.Machine

/-- ENC acceptance (R181): the configuration is tested before the grid (R284). -/
def execEnc (s : State) : Host.Outcome State Fault Refusal :=
  let t := s.accept Instr.enc.opcode
  if t.status.cfgValid = false then .next (t.raise .configError)
  else if emptyGrid t.origH t.origW then .next (t.raise .inputError)
  else .next t.startPass

/-- The residual ENC computes for the cell at (i, j) (R182): QUANT(orig(a) − PREDICT(ORIG, i, j, W, m), s). -/
def State.encResidual (s : State) (i j : Nat) : Int :=
  quant (s.origInt (addr i j s.origW.toNat) - predict s.origInt i j s.origW.toNat s.cfgMode) s.cfgStep.toNat

/-- The cell's own work in an ENC pass (R182): one RESID write. -/
def State.encWrite (s : State) : State :=
  s.writeResid (addr s.curI.toNat s.curJ.toNat s.origW.toNat)
    (BitVec.ofInt 16 (s.encResidual s.curI.toNat s.curJ.toNat))

/-- ENC completion (R183): the residual grid takes the original's dimensions. -/
def State.encFinish (s : State) : State :=
  { s with residH := s.origH, residW := s.origW }.complete 0#4

/-- ENC cell step (R182). -/
def encCell (s : State) : Host.Outcome State Fault Refusal :=
  if s.cfgStep = 0#9 then .fault .zeroStep
  else s.visit s.origH.toNat s.origW.toNat State.encWrite State.encFinish

end Sys2Proof.Machine
end

