-- ==== Sys2Proof/Machine/Quotient.lean ====
section
/-! DEFINITION. FQUOT (45_statistics.md R232) under FMT = IEEE 754 binary64 (R7): the exact quotient of two naturals,
rounded once to nearest, ties to even. -/

namespace Sys2Proof.Machine

/-- a / b rounded to the nearest integer, ties to even, for b > 0. -/
def roundHalfEven (a b : Nat) : Nat :=
  if 2 * (a % b) < b then a / b
  else if b < 2 * (a % b) then a / b + 1
  else if a / b % 2 = 0 then a / b
  else a / b + 1

/-- The exponent of the leading bit of n / d: floor(log2(n / d)), for n, d > 0. -/
def quotientExponent (n d : Nat) : Int :=
  let e : Int := (n.log2 : Int) - (d.log2 : Int)
  if d * 2 ^ e.toNat ≤ n * 2 ^ (-e).toNat then e else e - 1

/-- PLUS_INFINITY under binary64 (R232). -/
def plusInfinity : FloatBits := 0x7FF0000000000000#64

/-- `round_FMT(n / d)` for d > 0 (R232): sign 0, 11 exponent bits with bias 1023, 52 fraction bits. The significand counts
units of 2^(e−52) with its leading bit, so adding it to the exponent field less one carries a round-up into the exponent.
The operands of the engine reach neither the subnormal nor the infinite end (log entry 12). -/
def roundBinary64 (n d : Nat) : FloatBits :=
  if n = 0 then 0#64
  else
    let e : Int := max (quotientExponent n d) (-1022)
    let m : Nat := roundHalfEven (n * 2 ^ (52 - e).toNat) (d * 2 ^ (e - 52).toNat)
    let p : Nat := (e + 1022).toNat * 2 ^ 52 + m
    if p < plusInfinity.toNat then BitVec.ofNat 64 p else plusInfinity

/-- FQUOT (R232). -/
def fquot (n d : Nat) : FloatBits := if 0 < d then roundBinary64 n d else plusInfinity

end Sys2Proof.Machine
end

