-- ==== Sys2Proof/Machine/Statistics.lean ====
section
/-! DEFINITION. The statistics: the commands MSE and RATIO (45_statistics.md). -/

namespace Sys2Proof.Machine

/-- MSE acceptance (R221): MSE_VALID is cleared before any check; the dimension comparison comes before emptiness (R284). -/
def execMse (s : State) : Host.Outcome State Fault Refusal :=
  let t := (s.accept Instr.mse.opcode).clearMseValid
  if t.origH ≠ t.reconH ∨ t.origW ≠ t.reconW then .next (t.raise .dimensionMismatchError)
  else if emptyGrid t.origH t.origW then .next (t.raise .inputError)
  else .next { t with sse := 0#64 }.startPass

/-- `diff = orig(a) - recon(a)` (R222). -/
def State.cellDiff (s : State) (a : Nat) : Int := s.origInt a - s.reconInt a

/-- The cell's own work in an MSE pass (R222): the square of the difference is added to SSE. -/
def State.mseAdd (s : State) : State :=
  let diff := s.cellDiff (addr s.curI.toNat s.curJ.toNat s.origW.toNat)
  { s with sse := BitVec.ofInt 64 (s.sse.toNat + diff * diff) }

/-- MSE completion (R223), after the last addition. -/
def State.mseFinish (s : State) : State :=
  let n := s.origH.toNat * s.origW.toNat
  { s with npix := BitVec.ofNat 32 n, mseQ := fquot s.sse.toNat n, status := { s.status with mseValid := true } }.complete 0#4

/-- MSE cell step (R222). -/
def mseCell (s : State) : Host.Outcome State Fault Refusal :=
  s.visit s.origH.toNat s.origW.toNat State.mseAdd State.mseFinish

/-- RATIO (R235): the flags are cleared before any check; the configuration is tested before the grid (R284); one level
completes with RATIO_DIV0 = 1 (R238). -/
def execRatio (s : State) : Host.Outcome State Fault Refusal :=
  let t := (s.accept Instr.ratio.opcode).clearRatioFlags
  if t.status.cfgValid = false then .next (t.raise .configError)
  else if emptyGrid t.origH t.origW then .next (t.raise .inputError)
  else
    let b := clog2 t.cfgLevels.toNat
    let cells := t.origW.toNat * t.origH.toNat
    .next ({ t with
      ratioBpr := BitVec.ofNat 5 b
      ratioNum := BitVec.ofNat 64 (cells * 8)
      ratioDen := BitVec.ofNat 64 (cells * b)
      ratioQ := fquot (cells * 8) (cells * b)
      status := { t.status with ratioDiv0 := b = 0, ratioValid := true } }.complete 0#4)

end Sys2Proof.Machine
end

