-- ==== Sys2Proof/Machine/Control.lean ====
section
/-! DEFINITION. The system commands CLRERR and SRST, the illegal command, and the engine step (46_control.md). -/

namespace Sys2Proof.Machine

/-- CLRERR (R262). -/
def execClrerr (s : State) : Host.Outcome State Fault Refusal :=
  .next ((s.accept Instr.clrerr.opcode).clearErrs.complete 0#4)

/-- SRST (R263): every register to its reset value, LASTOP with the rest of STATUS (R29); the memories are not touched. -/
def execSrst (s : State) : Host.Outcome State Fault Refusal :=
  .next (s.accept Instr.srst.opcode).resetRegisters

/-- An illegal command word (R265): LASTOP takes its low byte, IllegalCommand is raised, nothing else changes. -/
def illegalCommand (w : CommandWord) (s : State) : State := (s.accept (opField w)).raise .illegalCommand

/-- The engine step, taken while BUSY = 1 (R256). No other value of LASTOP occurs then. -/
def engineStep (s : State) : Host.Outcome State Fault Refusal :=
  if s.status.lastop = Instr.enc.opcode then encCell s
  else if s.status.lastop = Instr.dec.opcode then decCell s
  else if s.status.lastop = Instr.mse.opcode then mseCell s
  else .fault .noPass

/-- The engine's turn: "The engine has a step if and only if STATUS.BUSY = 1. When idle it does nothing" (R255). -/
def engineTurn (s : State) : Host.Outcome State Fault Refusal :=
  if s.status.busy then engineStep s else .next s

end Sys2Proof.Machine
end

