-- ==== Sys2Proof/Machine/Transactions.lean ====
section
/-! DEFINITION. The host's side: the register file as the host sees it (10_state.md R21 to R23), the four transactions
(30_encoding.md R90 to R93), the acceptance of a command word (46_control.md R250), and the events of a run. -/

namespace Sys2Proof.Machine

/-- A register's value zero-extended to 64 bits (R21, R90); CMD reads 0 (R23 c). -/
def State.readReg (s : State) (r : Reg) : HostValue :=
  match r with
  | .cmd => 0#64
  | .status => s.status.word.setWidth 64
  | .modeReq => s.modeReq.setWidth 64
  | .levelsReq => s.levelsReq.setWidth 64
  | .origH => s.origH.setWidth 64
  | .origW => s.origW.setWidth 64
  | .residH => s.residH.setWidth 64
  | .residW => s.residW.setWidth 64
  | .reconH => s.reconH.setWidth 64
  | .reconW => s.reconW.setWidth 64
  | .cfgMode => s.cfgMode.code.setWidth 64
  | .cfgLevels => s.cfgLevels.setWidth 64
  | .cfgStep => s.cfgStep.setWidth 64
  | .curI => s.curI.setWidth 64
  | .curJ => s.curJ.setWidth 64
  | .sse => s.sse
  | .npix => s.npix.setWidth 64
  | .mseQ => s.mseQ
  | .ratioNum => s.ratioNum
  | .ratioDen => s.ratioDen
  | .ratioBpr => s.ratioBpr.setWidth 64
  | .ratioQ => s.ratioQ

/-- What RD n returns (R90): the register's value, and 0 for a number above 21 (R23 d). -/
def State.readNumber (s : State) (n : RegNo) : HostValue :=
  match Reg.ofNumber n.toNat with
  | some r => s.readReg r
  | none => 0#64

/-- A host write to a register other than CMD while idle (R91): registers 2 to 9 keep the low `width` bits (R21); a
read-only register ignores it (R23 b). -/
def State.writeReg (s : State) (r : Reg) (v : HostValue) : State :=
  match r with
  | .modeReq => { s with modeReq := v.setWidth 32 }
  | .levelsReq => { s with levelsReq := v.setWidth 32 }
  | .origH => { s with origH := v.setWidth 16 }
  | .origW => { s with origW := v.setWidth 16 }
  | .residH => { s with residH := v.setWidth 16 }
  | .residW => { s with residW := v.setWidth 16 }
  | .reconH => { s with reconH := v.setWidth 16 }
  | .reconW => { s with reconW := v.setWidth 16 }
  | .cmd | .status | .cfgMode | .cfgLevels | .cfgStep | .curI | .curJ | .sse | .npix | .mseQ
  | .ratioNum | .ratioDen | .ratioBpr | .ratioQ => s

/-- What RM S, a returns (R92): the cell's pattern zero-extended to 64 bits. -/
def State.readCell (s : State) (sp : Space) (a : CellAddr) : HostValue :=
  match sp with
  | .orig => (s.readOrig a.toNat).setWidth 64
  | .resid => (s.readResid a.toNat).setWidth 64
  | .recon => (s.readRecon a.toNat).setWidth 64

/-- The effect of WM S, a, v while idle (R93): the cell keeps the low bits of v. -/
def State.writeCell (s : State) (sp : Space) (a : CellAddr) (v : HostValue) : State :=
  match sp with
  | .orig => s.writeOrig a.toNat (v.setWidth 8)
  | .resid => s.writeResid a.toNat (v.setWidth 16)
  | .recon => s.writeRecon a.toNat (v.setWidth 8)

/-- The acceptance of a command word while idle (R250). -/
def acceptWord (w : CommandWord) (s : State) : Host.Outcome State Fault Refusal :=
  match decode w with
  | .ok i => exec i s
  | .error _ => .next (illegalCommand w s)

/-- What a read returned, put down on the host's side (log entry 7); the engine's state is not touched (R23 e, R69). -/
def State.record (s : State) (v : HostValue) (met : Bool) : State := { s with readings := ⟨v, met⟩ :: s.readings }

/-- A host transaction (R90 to R93). While BUSY = 1 every write is ignored (R23 a, R74, R251); bits 63:32 of a value
written to CMD are discarded (R94). -/
def transact (t : Transaction) (s : State) : Host.Outcome State Fault Refusal :=
  match t with
  | .rd n => .next (s.record (s.readNumber n) true)
  | .rm sp a => .next (s.record (s.readCell sp a) true)
  | .wm sp a v => .next (if s.status.busy then s else s.writeCell sp a v)
  | .wr n v =>
    if s.status.busy then .next s
    else
      match Reg.ofNumber n.toNat with
      | some .cmd => acceptWord (v.setWidth 32) s
      | some r => .next (s.writeReg r v)
      | none => .next s

/-- The value a comparing read reads (R106). -/
def State.checkRead (s : State) : Check → HostValue
  | .reg n _ => s.readNumber n
  | .field _ _ => s.readReg .status
  | .cell sp a _ => s.readCell sp a

/-- Whether the value read meets the value the script states (R106): a register or a cell against `trunc_64(v)` (R103), a
RESID cell after `sext_16`, a STATUS field alone. -/
def checkMeets (c : Check) (r : HostValue) : Bool :=
  match c with
  | .reg _ v => r = BitVec.ofInt 64 v
  | .field f v => (statusField f r : Int) = v
  | .cell .resid _ v => (r.setWidth 16).toInt = v
  | .cell .orig _ v => r = BitVec.ofInt 64 v
  | .cell .recon _ v => r = BitVec.ofInt 64 v

/-- `wait` (R105): one read of STATUS; while it shows BUSY = 1 the engine is left a turn and the read is repeated. -/
def waitEvent (s : State) : State :=
  let t := s.record (s.readReg .status) true
  if s.status.busy then { t with script := .engine :: .wait :: s.script } else t

/-- What an event does, in a state whose script has moved past it. The reset event works in every state (R310). -/
def perform (e : Event) (s : State) : Host.Outcome State Fault Refusal :=
  match e with
  | .host t => transact t s
  | .check c => .next (s.record (s.checkRead c) (checkMeets c (s.checkRead c)))
  | .wait => .next (waitEvent s)
  | .engine => engineTurn s
  | .reset => .next s.resetRegisters

/-- What happens next: the script's next event; with nothing left in the script the engine takes its turn (R6, R255). -/
def nextEvent (s : State) : Host.Outcome State Fault Refusal :=
  match s.script with
  | [] => engineTurn s
  | e :: rest => perform e { s with script := rest }

/-- The event that puts a command word to the machine: `WR 0, w` (R104). -/
def commandEvent (w : CommandWord) : Event := .host (.wr Reg.cmd.no (w.setWidth 64))

/-- `s` idle, with `WR 0, w` as the host's next transaction. -/
def State.withCommand (s : State) (w : CommandWord) : State :=
  { s with status := { s.status with busy := false }, script := commandEvent w :: s.script }

end Sys2Proof.Machine
end

