-- ==== Sys2Proof/Machine/Step.lean ====
section
/-! DEFINITION. One step of the machine. -/

namespace Sys2Proof.Machine

/-- One step: one host transaction, one engine step or one reset (R6). -/
def step (s : State) : Host.Outcome State Fault Refusal := nextEvent s

/-- `s` with an instruction word (bits at and above `nbits` zero) where the next step takes its command from: the host's
next transaction writes it to CMD. A command exists only as the value of a CMD write (R78) and only while idle (R250), so
BUSY is 0 (log entry 15). -/
def State.withFetchWord (s : State) (nbits w : Nat) : State := s.withCommand (BitVec.ofNat 32 (w % 2 ^ nbits))

end Sys2Proof.Machine
end

