-- ==== Sys2Proof/Machine/Script.lean ====
section
/-! DEFINITION. Script lines and the host actions they stand for (30_encoding.md R103 to R109), and the boot sequence
(70_reset_and_hazards.md R313). -/

namespace Sys2Proof.Machine

/-- `code(NAME)` (R107): the name compared case-insensitively; any other string gives 0xFFFFFFFF. -/
def modeCode (name : List Char) : BitVec 32 :=
  let n := name.map Char.toLower
  if n = "order1".toList then 0#32
  else if n = "order2".toList then 1#32
  else if n = "adaptive".toList then 2#32
  else 0xFFFFFFFF#32

/-- `wr REG, v` (R104): `WR n, trunc_64(v)` (R103). -/
def writeEvent (n : RegNo) (v : Int) : Event := .host (.wr n (BitVec.ofInt 64 v))

/-- The cells of a listed grid in row-major order: (address i*W + j, value) (R108). -/
def gridCells (w : Nat) (rows : List (List Int)) : List (CellAddr × Int) :=
  rows.zipIdx.flatMap fun row => row.1.zipIdx.map fun c => (BitVec.ofNat 32 (addr row.2 c.2 w), c.1)

/-- `configure NAME, L` (R107). -/
def configureEvents (name : List Char) (levels : Int) : List Event :=
  [.host (.wr Reg.modeReq.no ((modeCode name).setWidth 64)), writeEvent Reg.levelsReq.no levels, commandEvent (encode .cfg)]

/-- `loadgrid SPACE, H, W, [[...]]` (R108). -/
def loadgridEvents (sp : Space) (h w : Nat) (rows : List (List Int)) : List Event :=
  writeEvent sp.heightReg.no h :: writeEvent sp.widthReg.no w ::
    (gridCells w rows).map fun c => .host (.wm sp c.1 (BitVec.ofInt 64 c.2))

/-- `expectgrid SPACE, H, W, [[...]]` (R108): the matching list of `expect` and `expectm` lines. -/
def expectgridEvents (sp : Space) (h w : Nat) (rows : List (List Int)) : List Event :=
  .check (.reg sp.heightReg.no h) :: .check (.reg sp.widthReg.no w) ::
    (gridCells w rows).map fun c => .check (.cell sp c.1 c.2)

/-- `pipeline NAME, L` (R109). -/
def pipelineEvents (name : List Char) (levels : Int) : List Event :=
  commandEvent (encode .clrerr) :: configureEvents name levels ++
    [commandEvent (encode .enc), .wait, commandEvent (encode .dec), .wait, commandEvent (encode .mse), .wait,
     commandEvent (encode .ratio), .host (.rd Reg.status.no)]

/-- The host actions a script line stands for (R104 to R109). -/
def lineEvents : Line → List Event
  | .rd n => [.host (.rd n)]
  | .wr n v => [writeEvent n v]
  | .rm sp a => [.host (.rm sp a)]
  | .wm sp a v => [.host (.wm sp a (BitVec.ofInt 64 v))]
  | .command i => [commandEvent (encode i)]
  | .cmd w => [writeEvent Reg.cmd.no w]
  | .wait => [.wait]
  | .check c => [.check c]
  | .configure name levels => configureEvents name levels
  | .loadgrid sp h w rows => loadgridEvents sp h w rows
  | .expectgrid sp h w rows => expectgridEvents sp h w rows
  | .pipeline name levels => pipelineEvents name levels

/-- A script, "run in order by the host" (R103). How many engine steps fall between two of its host actions is open (R316,
I5). DESIGN CHOICE, log entry 19: outside `wait` this list leaves the engine no turn between them, so it is one of the
allowed interleavings; `interleave` gives every other. -/
def scriptEvents (ls : List Line) : List Event := ls.flatMap lineEvents

/-- The same host actions with `turns[k]` engine turns before the k-th, none where the list has ended: every number of
engine steps before each host action that R6, R316 and I5 allow (log entries 5 and 19). -/
def interleave : List Nat → List Event → List Event
  | _, [] => []
  | [], e :: es => e :: es
  | n :: ns, e :: es => List.replicate n .engine ++ e :: interleave ns es

/-- The machine with a script for the host to run next (log entry 4), the engine having no turn between its actions outside
`wait` (log entry 19). -/
def State.withScript (s : State) (ls : List Line) : State := { s with script := scriptEvents ls }

/-- The machine with a script for the host to run next and the engine's turns between its actions (log entry 19). -/
def State.withInterleaving (s : State) (ls : List Line) (turns : List Nat) : State :=
  { s with script := interleave turns (scriptEvents ls) }

/-- Steps 0 to 7 of R313, from reset to the read of STATUS that decides on egress. -/
def bootEvents (h w : Nat) (rows : List (List Int)) (name : List Char) (levels : Int) : List Event :=
  .reset :: loadgridEvents .orig h w rows ++ configureEvents name levels ++
    [commandEvent (encode .enc), .wait, commandEvent (encode .dec), .wait, commandEvent (encode .mse), .wait,
     commandEvent (encode .ratio), .host (.rd Reg.status.no)]

/-- Step 8 of R313: read RECON cells 0..H·W−1 and registers 15 to 21. -/
def egressEvents (h w : Nat) : List Event :=
  (List.range (h * w)).map (fun a => .host (.rm .recon (BitVec.ofNat 32 a))) ++
    [Reg.sse, .npix, .mseQ, .ratioNum, .ratioDen, .ratioBpr, .ratioQ].map fun r => .host (.rd r.no)

/-- R109, R313 step 7: the host proceeds to egress only if ERRS (bits 15:12) of the STATUS it read is 0. -/
def mayEgress (statusRead : HostValue) : Bool := statusField .errs statusRead = 0

end Sys2Proof.Machine
end

