-- ==== Sys2Proof/Machine/Assembler.lean ====
section
/-! DEFINITION. The text of a script (30_encoding.md R103): one host action per line, `#` comments, decimal and hexadecimal
numbers, names in any case. The spacing and the error answers are log entry 16. -/

namespace Sys2Proof.Machine

/-- The name of a register (R22). -/
def regName : Reg → String
  | .cmd => "cmd" | .status => "status" | .modeReq => "mode_req" | .levelsReq => "levels_req"
  | .origH => "orig_h" | .origW => "orig_w" | .residH => "resid_h" | .residW => "resid_w"
  | .reconH => "recon_h" | .reconW => "recon_w"
  | .cfgMode => "cfg_mode" | .cfgLevels => "cfg_levels" | .cfgStep => "cfg_step" | .curI => "cur_i" | .curJ => "cur_j"
  | .sse => "sse" | .npix => "npix" | .mseQ => "mse_q"
  | .ratioNum => "ratio_num" | .ratioDen => "ratio_den" | .ratioBpr => "ratio_bpr" | .ratioQ => "ratio_q"

/-- The register of a name in lower case (R22). -/
def regOfName (name : List Char) : Option Reg :=
  ((List.range 22).filterMap Reg.ofNumber).find? fun r => (regName r).toList = name

/-- The STATUS field of a name in lower case (R24). -/
def fieldOfName (name : List Char) : Option StatusField :=
  if name = "busy".toList then some .busy
  else if name = "cfg_valid".toList then some .cfgValid
  else if name = "mse_valid".toList then some .mseValid
  else if name = "ratio_valid".toList then some .ratioValid
  else if name = "ratio_div0".toList then some .ratioDiv0
  else if name = "result".toList then some .result
  else if name = "errs".toList then some .errs
  else if name = "lastop".toList then some .lastop
  else none

/-- The command of a primitive line's word in lower case (R104). -/
def commandOfName (name : List Char) : Option Instr :=
  if name = "cfg".toList then some .cfg
  else if name = "enc".toList then some .enc
  else if name = "dec".toList then some .dec
  else if name = "mse".toList then some .mse
  else if name = "ratio".toList then some .ratio
  else if name = "clrerr".toList then some .clrerr
  else if name = "srst".toList then some .srst
  else none

/-- The pieces of a line. Names are in lower case: "Names are case-insensitive" (R103). -/
inductive Token where
  | word (cs : List Char)
  | num (n : Int)
  | comma | dot | opening | closing
  deriving DecidableEq, Repr

/-- The value of a digit in a base, at most 16. -/
def digitValue (base : Nat) (c : Char) : Option Nat :=
  let n := c.toLower.toNat
  let d := if 48 ≤ n ∧ n ≤ 57 then n - 48 else if 97 ≤ n ∧ n ≤ 102 then n - 87 else base
  if d < base then some d else none

/-- Digits in a base, most significant first. -/
def digits (base : Nat) : Nat → List Char → Option Nat
  | acc, [] => some acc
  | acc, c :: cs =>
    match digitValue base c with
    | some d => digits base (acc * base + d) cs
    | none => none

/-- A number without a sign: decimal, or hexadecimal with `0x` (R103). -/
def naturalOf : List Char → Option Nat
  | [] => none
  | ['0'] => some 0
  | '0' :: 'x' :: c :: cs => digits 16 0 (c :: cs)
  | cs => digits 10 0 cs

/-- A number: "a leading `-` gives a negative integer" (R103). -/
def numberOf : List Char → Option Int
  | '-' :: cs => (naturalOf cs).map fun n => -(n : Int)
  | cs => (naturalOf cs).map Int.ofNat

/-- A maximal run of characters between separators: a number if it begins with a digit or `-`, else a name. -/
def chunkToken (cs : List Char) : Option Token :=
  match cs with
  | [] => none
  | c :: _ =>
    if c = '-' ∨ (digitValue 10 c).isSome then (numberOf cs).map .num
    else if cs.all (fun d => d.isAlphanum || d = '_') then some (.word (cs.map Char.toLower))
    else none

/-- The single-character tokens. -/
def markToken (c : Char) : Option Token :=
  if c = ',' then some .comma
  else if c = '.' then some .dot
  else if c = '[' then some .opening
  else if c = ']' then some .closing
  else none

/-- Puts the run read so far (reversed) in front of the tokens after it. -/
def flushChunk (run : List Char) (rest : Option (List Token)) : Option (List Token) :=
  if run = [] then rest else (chunkToken run.reverse).bind fun t => rest.map (t :: ·)

/-- What separates: a space, a tab or a carriage return. -/
def isBlank (c : Char) : Bool := c = ' ' || c = '\t' || c = '\r'

/-- The characters without the blanks at either end. -/
def trimBlanks (cs : List Char) : List Char := ((cs.dropWhile isBlank).reverse.dropWhile isBlank).reverse

/-- The tokens of a line without its comment. -/
def lexLine : List Char → List Char → Option (List Token)
  | run, [] => flushChunk run (some [])
  | run, c :: cs =>
    if isBlank c then flushChunk run (lexLine [] cs)
    else
      match markToken c with
      | some t => flushChunk run ((lexLine [] cs).map (t :: ·))
      | none => lexLine (c :: run) cs

/-- A register operand: "by its name from 10_state.md rule R22 or by number" (R103). -/
def regOperand : Token → Option RegNo
  | .word cs => (regOfName cs).map Reg.no
  | .num n => if 0 ≤ n ∧ n < 2 ^ 16 then some (BitVec.ofInt 16 n) else none
  | _ => none

/-- A space operand: "ORIG, RESID or RECON" (R103), or its script code (R60; R313 writes `wm 0, ...`). -/
def spaceOperand : Token → Option Space
  | .word cs =>
    if cs = "orig".toList then some .orig
    else if cs = "resid".toList then some .resid
    else if cs = "recon".toList then some .recon
    else none
  | .num n => if n = 0 then some .orig else if n = 1 then some .resid else if n = 2 then some .recon else none
  | _ => none

/-- A cell address, 0..2^32−1 (R92). -/
def addrOperand (n : Int) : Option CellAddr := if 0 ≤ n ∧ n < 2 ^ 32 then some (BitVec.ofInt 32 n) else none

/-- The values of a nonempty row up to its `]`, and the tokens after it. -/
def valueTokens : List Token → Option (List Int × List Token)
  | .num n :: .closing :: ts => some ([n], ts)
  | .num n :: .comma :: ts => (valueTokens ts).map fun r => (n :: r.1, r.2)
  | _ => none

/-- The values of one row after its `[`, none of them where W = 0, and the tokens after its `]`. -/
def rowTokens : List Token → Option (List Int × List Token)
  | .closing :: ts => some ([], ts)
  | ts => valueTokens ts

/-- The rows of a grid that has some, after its first `[`, up to and with its last `]`. -/
def rowsTokens : Nat → List Token → Option (List (List Int))
  | 0, _ => none
  | fuel + 1, .opening :: ts =>
    match rowTokens ts with
    | some (r, [.closing]) => some [r]
    | some (r, .comma :: ts') => (rowsTokens fuel ts').map (r :: ·)
    | _ => none
  | _ + 1, _ => none

/-- The rows of a grid after its first `[`: none where H = 0 (R108: "H rows of W values"). -/
def gridTokens (ts : List Token) : Option (List (List Int)) :=
  match ts with
  | [.closing] => some []
  | _ => rowsTokens ts.length ts

/-- The operands `SPACE, H, W, [[...]]` (R108). -/
def gridOperands (ts : List Token) : Option (Space × Nat × Nat × List (List Int)) :=
  match ts with
  | sp :: .comma :: .num h :: .comma :: .num w :: .comma :: .opening :: rest =>
    if 0 ≤ h ∧ 0 ≤ w then
      (spaceOperand sp).bind fun s => (gridTokens rest).map fun rows => (s, h.toNat, w.toNat, rows)
    else none
  | _ => none

/-- The operands `NAME, L` (R107, R109): L stands after the last comma, and NAME is whatever stands before it. "Any other
string" is a name too, so that the engine and not the assembler reports the ConfigError. -/
def nameOperands (cs : List Char) : Option (List Char × Int) :=
  match cs.reverse.dropWhile (· ≠ ',') with
  | [] => none
  | _ :: name =>
    (numberOf (trimBlanks (cs.reverse.takeWhile (· ≠ ',')).reverse)).map fun l => (trimBlanks name.reverse, l)

/-- The operands of `expect`: `REG, v` or `STATUS.F, v` (R106). -/
def expectOperands : List Token → Option Check
  | [.word st, .dot, .word f, .comma, .num v] =>
    if st = "status".toList then (fieldOfName f).map (.field · v) else none
  | [r, .comma, .num v] => (regOperand r).map (.reg · v)
  | _ => none

/-- The line a keyword and its operand tokens stand for (R104 to R106, R108). -/
def keywordLine (key : List Char) (args : List Token) : Option Line :=
  if key = "rd".toList then
    match args with
    | [r] => (regOperand r).map .rd
    | _ => none
  else if key = "wr".toList then
    match args with
    | [r, .comma, .num v] => (regOperand r).map (.wr · v)
    | _ => none
  else if key = "rm".toList then
    match args with
    | [sp, .comma, .num a] => (spaceOperand sp).bind fun s => (addrOperand a).map (.rm s ·)
    | _ => none
  else if key = "wm".toList then
    match args with
    | [sp, .comma, .num a, .comma, .num v] => (spaceOperand sp).bind fun s => (addrOperand a).map (.wm s · v)
    | _ => none
  else if key = "cmd".toList then
    match args with
    | [.num w] => some (.cmd w)
    | _ => none
  else if key = "wait".toList then
    match args with
    | [] => some .wait
    | _ => none
  else if key = "expect".toList then (expectOperands args).map .check
  else if key = "expectm".toList then
    match args with
    | [sp, .comma, .num a, .comma, .num v] =>
      (spaceOperand sp).bind fun s => (addrOperand a).map fun c => .check (.cell s c v)
    | _ => none
  else if key = "loadgrid".toList then (gridOperands args).map fun g => .loadgrid g.1 g.2.1 g.2.2.1 g.2.2.2
  else if key = "expectgrid".toList then (gridOperands args).map fun g => .expectgrid g.1 g.2.1 g.2.2.1 g.2.2.2
  else
    match args with
    | [] => (commandOfName key).map .command
    | _ => none

/-- The line a text without its comment stands for, read by tokens. -/
def tokenLine (text : List Char) : Option (List Line) :=
  match lexLine [] text with
  | some [] => some []
  | some (.word key :: args) =>
    match keywordLine key args with
    | some l => if l.wellFormed then some [l] else none
    | none => none
  | _ => none

/-- The line a text line stands for: nothing for a blank or comment line; an ill-formed line (a listed grid of the wrong
shape among them, R108) is refused. `#` starts a comment (R103). `configure` and `pipeline` take their NAME as it is written
(R107), every other line is read by tokens. -/
def assembleLine (text : List Char) : Option (List Line) :=
  let line := trimBlanks (text.takeWhile (· ≠ '#'))
  let key := (line.takeWhile fun c => !isBlank c).map Char.toLower
  let rest := line.dropWhile fun c => !isBlank c
  if key = "configure".toList then (nameOperands rest).map fun p => [.configure p.1 p.2]
  else if key = "pipeline".toList then (nameOperands rest).map fun p => [.pipeline p.1 p.2]
  else tokenLine line

/-- The lines of a text: the run read so far (reversed) ends at a newline. -/
def splitLines : List Char → List Char → List (List Char)
  | run, [] => [run.reverse]
  | run, c :: cs => if c = '\n' then run.reverse :: splitLines [] cs else splitLines (c :: run) cs

/-- A script from its text (R103); none where a line is refused. -/
def assemble (text : List Char) : Option (List Line) :=
  ((splitLines [] text).mapM assembleLine).map List.flatten

end Sys2Proof.Machine
end

