-- ==== Sys2Proof/Safety.lean ====
section
/-! DEFINITION. What counts as a safe run, in the terms the statements use: runs of the machine, the invariants that every
run from reset keeps, and the readings of "unchanged". -/

namespace Sys2Proof.Machine

/-! ## Runs -/

/-- `n` steps of the machine, stopping at the first fault or refusal. -/
def steps : Nat → State → Host.Outcome State Fault Refusal
  | 0, s => .next s
  | n + 1, s =>
    match step s with
    | .next t => steps n t
    | .fault r => .fault r
    | .refused r => .refused r

/-- `n` turns of the engine with no host transaction between (R255, R256). -/
def engineSteps : Nat → State → Host.Outcome State Fault Refusal
  | 0, s => .next s
  | n + 1, s =>
    match engineTurn s with
    | .next t => engineSteps n t
    | .fault r => .fault r
    | .refused r => .refused r

/-- A command accepted and then `n` turns of the engine: the whole pass of ENC, DEC or MSE for n = H·W (R253). -/
def commandAndTurns (i : Instr) (n : Nat) (s : State) : Host.Outcome State Fault Refusal :=
  match exec i s with
  | .next t => engineSteps n t
  | .fault r => .fault r
  | .refused r => .refused r

/-! ## What a pass scans -/

/-- Rows of the grid the running command scans: RESID's for DEC (R202), ORIG's for ENC and MSE (R182, R222). -/
def State.passH (s : State) : Nat := if s.status.lastop = Instr.dec.opcode then s.residH.toNat else s.origH.toNat

/-- Columns of the grid the running command scans. -/
def State.passW (s : State) : Nat := if s.status.lastop = Instr.dec.opcode then s.residW.toNat else s.origW.toNat

/-- The address of the cell at the cursor: the number of cells the pass has visited (R31, R75). -/
def State.passAddr (s : State) : Nat := addr s.curI.toNat s.curJ.toNat s.passW

/-! ## The invariants -/

/-- The three memories are in canonical form. -/
def MemoryInv (s : State) : Prop := s.orig.wf ∧ s.resid.wf ∧ s.recon.wf

/-- R26: a valid configuration has levels ≥ 1 and the step derived from them; R39, R163: with none valid, all three
registers are 0. -/
def ConfigInv (s : State) : Prop :=
  if s.status.cfgValid then 1 ≤ s.cfgLevels.toInt ∧ s.cfgStep.toNat = stepOf s.cfgLevels.toNat
  else s.cfgMode = .order1 ∧ s.cfgLevels = 0#32 ∧ s.cfgStep = 0#9

/-- R256, R33: while BUSY the cursor is a cell of the grid scanned, and LASTOP is ENC or DEC with a valid configuration, or
MSE with equal dimensions (R221), MSE_VALID clear (R27) and at most 65025 summed per cell visited (R222). -/
def PassInv (s : State) : Prop :=
  s.status.busy = true →
    s.curI.toNat < s.passH ∧ s.curJ.toNat < s.passW ∧
    (((s.status.lastop = Instr.enc.opcode ∨ s.status.lastop = Instr.dec.opcode) ∧ s.status.cfgValid = true) ∨
      (s.status.lastop = Instr.mse.opcode ∧ s.reconH = s.origH ∧ s.reconW = s.origW ∧ s.status.mseValid = false ∧
        s.sse.toNat ≤ 65025 * s.passAddr))

/-- R24: RESULT is 0 to 4; R28: a nonzero RESULT has its sticky bit set. -/
def OutcomeInv (s : State) : Prop :=
  s.status.result.toNat ≤ 4 ∧ s.status.errs &&& errBit s.status.result = errBit s.status.result

/-- R24, R27, R223: MSE_VALID says that SSE, NPIX and MSE_Q hold one result of R224. -/
def MseInv (s : State) : Prop :=
  s.status.mseValid = true →
    1 ≤ s.npix.toNat ∧ s.sse.toNat ≤ 65025 * s.npix.toNat ∧ s.mseQ = fquot s.sse.toNat s.npix.toNat

/-- R24, R27, R235, R236: RATIO_VALID says that the four RATIO registers hold one result; RATIO_DIV0 marks a valid result
with encodedBits = 0. -/
def RatioInv (s : State) : Prop :=
  (s.status.ratioDiv0 = true ↔ s.status.ratioValid = true ∧ s.ratioDen = 0#64) ∧
  (s.status.ratioValid = true →
    8 ≤ s.ratioNum.toNat ∧ 8 * s.ratioDen.toNat = s.ratioNum.toNat * s.ratioBpr.toNat ∧
      s.ratioQ = fquot s.ratioNum.toNat s.ratioDen.toNat)

/-- What every run from reset keeps. -/
structure Inv (s : State) : Prop where
  memory : MemoryInv s
  config : ConfigInv s
  pass : PassInv s
  outcome : OutcomeInv s
  mse : MseInv s
  ratio : RatioInv s

/-- How many cells the running pass has yet to visit; 0 while idle (R260). -/
def State.cellsLeft (s : State) : Nat := if s.status.busy then s.passH * s.passW - s.passAddr else 0

/-! ## Values -/

/-- `q` is e / s rounded half up: q·s − s/2 ≤ e < q·s + s/2 (R142, R145), twice both sides. -/
def RoundsHalfUp (e : Int) (s : Nat) (q : Int) : Prop := 2 * (q * s) - s ≤ 2 * e ∧ 2 * e < 2 * (q * s) + s

/-- The number a non-negative finite binary64 pattern stands for (R232): fraction and exponent fields with bias 1023. -/
def binary64Value (x : FloatBits) : Rat :=
  if x.toNat / 2 ^ 52 = 0 then (x.toNat % 2 ^ 52 : Nat) * (2 : Rat) ^ (-1074 : Int)
  else (2 ^ 52 + x.toNat % 2 ^ 52 : Nat) * (2 : Rat) ^ ((x.toNat / 2 ^ 52 : Nat) - 1075 : Int)

/-! ## Unchanged -/

/-- Every cell of every memory reads as before. -/
def SameCells (s t : State) : Prop :=
  (∀ a, t.readOrig a = s.readOrig a) ∧ (∀ a, t.readResid a = s.readResid a) ∧ (∀ a, t.readRecon a = s.readRecon a)

/-- The engine's part of a state (R20): everything but the host's script and readings. -/
def State.engine (s : State) : State := { s with script := [], readings := [] }

/-- A host transaction or a comparing read, or an engine turn: neither the reset from outside nor a `wait`. -/
def turnOrTransaction : Event → Bool
  | .reset | .wait => false
  | .host _ | .check _ | .engine => true

/-- The engine turns written in a list of events. -/
def engineTurns (es : List Event) : Nat := es.countP (· = .engine)

end Sys2Proof.Machine
end

