-- ==== Sys2Proof/Certificates/Slice0/Obligations.lean ====
section
/-! DEFINITION. The statements about the DPCM2D engine, for the provers. Each docstring names the rule of spec/ that the
statement formalises. -/

open Sys2Proof Sys2Proof.Machine

/-! ## Encoding -/

/-- R95: a command word is legal iff bits 31:8 are zero and bits 7:0 are one of 0x01 to 0x07; the command is then
selected by bits 7:0; every other word raises IllegalCommand. -/
def Obligations.DecoderIsTotalAndExact : Prop :=
  ∀ w : CommandWord,
    ((w.toNat / 256 = 0 ∧ 1 ≤ w.toNat % 256 ∧ w.toNat % 256 ≤ 7) →
      ∃ i, decode w = .ok i ∧ i.opcode.toNat = w.toNat % 256) ∧
    (¬ (w.toNat / 256 = 0 ∧ 1 ≤ w.toNat % 256 ∧ w.toNat % 256 ≤ 7) →
      (∃ e, decode w = .error e) ∧ ∀ s, acceptWord w s = .next ((s.accept (BitVec.ofNat 8 w.toNat)).raise .illegalCommand))

/-- Decode and encode agree in both directions: the words of R96 and no others. -/
def Obligations.DecodeAndEncodeAgree : Prop :=
  ∀ (w : CommandWord) (i : Instr), i.wellFormed = true → (decode w = .ok i ↔ w = encode i)

/-- The seven words of R96, written out, decode to their commands; four words of R101 do not decode. -/
def Obligations.WrittenWordsDecode : Prop :=
  decode 0x00000001#32 = .ok .cfg ∧ decode 0x00000002#32 = .ok .enc ∧ decode 0x00000003#32 = .ok .dec ∧
  decode 0x00000004#32 = .ok .mse ∧ decode 0x00000005#32 = .ok .ratio ∧ decode 0x00000006#32 = .ok .clrerr ∧
  decode 0x00000007#32 = .ok .srst ∧ decode 0x00000000#32 = .error .unknownOpcode ∧
  decode 0x00000008#32 = .error .unknownOpcode ∧ decode 0x00000102#32 = .error .upperBitsNonzero ∧
  decode 0x80000002#32 = .error .upperBitsNonzero

/-! ## The step and the host's transactions -/

/-- A step runs the decoded command: while idle, a write to CMD whose low 32 bits decode to `i` (bits 63:32 are
discarded, R94) is exactly `exec i` in the state whose script has moved past the write. -/
def Obligations.StepRunsDecodedCommand : Prop :=
  ∀ (s : State) (rest : List Event) (v : HostValue) (i : Instr),
    s.script = .host (.wr 0#16 v) :: rest → s.status.busy = false → i.wellFormed = true →
    decode (BitVec.ofNat 32 (v.toNat % 2 ^ 32)) = .ok i → step s = exec i { s with script := rest }

/-- R265: while idle, a word that is not legal gives LASTOP its low byte, RESULT 4 and ERRS bit 15, and changes nothing
else. -/
def Obligations.IllegalCommandIsRaised : Prop :=
  ∀ (s : State) (rest : List Event) (v : HostValue),
    s.script = .host (.wr 0#16 v) :: rest → s.status.busy = false →
    ¬ (v.toNat % 2 ^ 32 / 256 = 0 ∧ 1 ≤ v.toNat % 256 ∧ v.toNat % 256 ≤ 7) →
    step s = .next { s with
      script := rest
      status := { s.status with result := 4#4, errs := s.status.errs ||| 8#4, lastop := BitVec.ofNat 8 (v.toNat % 256) } }

/-- R251, R74: while BUSY = 1 a write to CMD or to any other register, and a write to any cell, changes nothing; the
host goes on with its script. -/
def Obligations.BusyIgnoresHostWrites : Prop :=
  ∀ (s : State) (rest : List Event) (t : Transaction),
    s.script = .host t :: rest → s.status.busy = true →
    ((∃ n v, t = .wr n v) ∨ ∃ sp a v, t = .wm sp a v) → step s = .next { s with script := rest }

/-- R91: WR n, v. Busy: no effect. Idle: register 0 takes the low 32 bits as a command word; registers 2 to 9 keep the
low bits of their width; every other number has no effect. -/
def Obligations.RegisterWriteTransaction : Prop :=
  ∀ (s : State) (rest : List Event) (n : RegNo) (v : HostValue), s.script = .host (.wr n v) :: rest →
    (s.status.busy = true → step s = .next { s with script := rest }) ∧
    (s.status.busy = false → n = 0#16 →
      step s = acceptWord (BitVec.ofNat 32 (v.toNat % 2 ^ 32)) { s with script := rest }) ∧
    (s.status.busy = false → n ≠ 0#16 →
      ∃ t, step s = .next t ∧
        (∀ k : RegNo, (t.readNumber k).toNat =
          if k = n ∧ 2 ≤ n.toNat ∧ n.toNat ≤ 9 then v.toNat % 2 ^ (if n.toNat ≤ 3 then 32 else 16)
          else (s.readNumber k).toNat) ∧
        SameCells s t ∧ t.script = rest ∧ t.readings = s.readings)

/-- R93: WM S, a, v. Busy: no effect. Idle: the cell keeps the low 8 bits (ORIG, RECON) or 16 bits (RESID) of v; no
other cell of any space and no register changes. -/
def Obligations.CellWriteTransaction : Prop :=
  ∀ (s : State) (rest : List Event) (sp : Space) (a : CellAddr) (v : HostValue),
    s.script = .host (.wm sp a v) :: rest →
    (s.status.busy = true → step s = .next { s with script := rest }) ∧
    (s.status.busy = false →
      ∃ t, step s = .next t ∧ t = { s with script := rest, orig := t.orig, resid := t.resid, recon := t.recon } ∧
        ∀ (sp' : Space) (b : CellAddr), (t.readCell sp' b).toNat =
          if sp' = sp ∧ b = a then v.toNat % 2 ^ (if sp = .resid then 16 else 8) else (s.readCell sp' b).toNat)

/-- R90: RD n returns the value of register n zero-extended to 64 bits, CMD reading 0 and numbers above 21 reading 0,
busy or idle; no state of the engine changes. That the value goes to the head of the host's record is the model's choice
(log entry 7). -/
def Obligations.RegisterReadTransaction : Prop :=
  ∀ (s : State) (rest : List Event) (n : RegNo), s.script = .host (.rd n) :: rest →
    ∃ v : HostValue, step s = .next { s with script := rest, readings := ⟨v, true⟩ :: s.readings } ∧
      v.toNat = match n.toNat with
        | 1 => s.status.word.toNat
        | 2 => s.modeReq.toNat
        | 3 => s.levelsReq.toNat
        | 4 => s.origH.toNat
        | 5 => s.origW.toNat
        | 6 => s.residH.toNat
        | 7 => s.residW.toNat
        | 8 => s.reconH.toNat
        | 9 => s.reconW.toNat
        | 10 => s.cfgMode.code.toNat
        | 11 => s.cfgLevels.toNat
        | 12 => s.cfgStep.toNat
        | 13 => s.curI.toNat
        | 14 => s.curJ.toNat
        | 15 => s.sse.toNat
        | 16 => s.npix.toNat
        | 17 => s.mseQ.toNat
        | 18 => s.ratioNum.toNat
        | 19 => s.ratioDen.toNat
        | 20 => s.ratioBpr.toNat
        | 21 => s.ratioQ.toNat
        | _ => 0

/-- R92: RM S, a returns the cell's pattern zero-extended to 64 bits, busy or idle; no state of the engine
changes. That the value goes to the head of the host's record is the model's choice (log entry 7). -/
def Obligations.CellReadTransaction : Prop :=
  ∀ (s : State) (rest : List Event) (sp : Space) (a : CellAddr), s.script = .host (.rm sp a) :: rest →
    ∃ v : HostValue, step s = .next { s with script := rest, readings := ⟨v, true⟩ :: s.readings } ∧
      v.toNat = match sp with
        | .orig => (s.readOrig a.toNat).toNat
        | .resid => (s.readResid a.toNat).toNat
        | .recon => (s.readRecon a.toNat).toNat

/-- The STATUS layout of 10_state.md section 3, as one number: every field at its place, bits 7:5 and 31:24 zero. -/
def Obligations.StatusWordLayout : Prop :=
  ∀ t : Status, t.word.toNat =
    t.busy.toNat + 2 * t.cfgValid.toNat + 4 * t.mseValid.toNat + 8 * t.ratioValid.toNat + 16 * t.ratioDiv0.toNat +
      2 ^ 8 * t.result.toNat + 2 ^ 12 * t.errs.toNat + 2 ^ 16 * t.lastop.toNat

/-- R255: the engine has a step iff BUSY = 1; idle, its turn changes nothing. That its turns are those the script
leaves it and, the script being empty, all of them is the model's choice (log entry 5). -/
def Obligations.EngineMovesOnlyWhenBusy : Prop :=
  ∀ (s : State) (rest : List Event),
    (s.script = [] → step s = if s.status.busy then engineStep s else .next s) ∧
    (s.script = .engine :: rest →
      step s = if s.status.busy then engineStep { s with script := rest } else .next { s with script := rest })

/-! ## Completion, errors, reset -/

/-- R258: Complete(c) writes BUSY 0 and RESULT c, sets ERRS[c−1] for a nonzero c and clears no sticky bit; raising a
cause is Complete with its code. -/
def Obligations.CompleteRecordsOutcome : Prop :=
  ∀ s : State,
    (∀ c : BitVec 4, c.toNat ≤ 4 →
      ∃ e : BitVec 4,
        s.complete c = { s with status := { s.status with busy := false, result := c, errs := e } } ∧
        ∀ k : Nat, k < 4 → e.getLsbD k = (s.status.errs.getLsbD k || decide (k + 1 = c.toNat))) ∧
    ∀ x : Cause, s.raise x = s.complete x.code

/-- R286 with the codes of R280: raising a cause writes BUSY 0, RESULT its code (1 ConfigError, 2 InputError, 3
DimensionMismatchError, 4 IllegalCommand) and sets its sticky bit; no other state changes. -/
def Obligations.RaiseRecordsCause : Prop :=
  ∀ (s : State) (x : Cause),
    ∃ c : Nat, c = (match x with
        | .configError => 1 | .inputError => 2 | .dimensionMismatchError => 3 | .illegalCommand => 4) ∧
      ∃ e : BitVec 4,
        s.raise x = { s with status := { s.status with busy := false, result := BitVec.ofNat 4 c, errs := e } } ∧
        ∀ k : Nat, k < 4 → e.getLsbD k = (s.status.errs.getLsbD k || decide (k + 1 = c))

/-- R39, for registers: after reset every register reads 0 and the cursor is (0, 0). -/
def Obligations.ResetRegistersAreZero : Prop :=
  (∀ n : RegNo, State.reset.readNumber n = 0#64) ∧ State.reset.status.busy = false

/-- R310: reset, in any state including BUSY = 1, makes every register 0 and writes no memory. That it stands in the
script as an event is the model's choice (log entry 13). -/
def Obligations.ResetWorksInEveryState : Prop :=
  ∀ (s : State) (rest : List Event), s.script = .reset :: rest →
    ∃ t, step s = .next t ∧ (∀ n : RegNo, t.readNumber n = 0#64) ∧ t.status.busy = false ∧ SameCells s t ∧
      t.script = rest ∧ t.readings = s.readings

/-- R263: the word 0x00000007 is SRST; it makes every register 0, STATUS whole, and touches no memory; it leaves what a
reset would leave; while busy it is not accepted. That exec has this effect on every state, BUSY = 1 included, and that
SRST and reset leave the host's script and record alone, are the model's choices (log entries 17 and 13). -/
def Obligations.SrstRestoresResetRegisters : Prop :=
  decode 0x00000007#32 = .ok .srst ∧
  ∀ s : State,
    (∃ t, exec .srst s = .next t ∧ (∀ n : RegNo, t.readNumber n = 0#64) ∧ t.status = Status.reset ∧
      SameCells s t ∧ t.script = s.script ∧ t.readings = s.readings ∧ perform .reset s = .next t) ∧
    (s.status.busy = true → transact (.wr 0#16 0x00000007#64) s = .next s) ∧
    (s.status.busy = false → transact (.wr 0#16 0x00000007#64) s = exec .srst s)

/-- R262: the word 0x00000006 is CLRERR; it clears the four sticky bits, sets RESULT 0 and LASTOP 0x06, and changes
nothing else. -/
def Obligations.ClrerrClearsStickyBits : Prop :=
  decode 0x00000006#32 = .ok .clrerr ∧
  ∀ s : State, s.status.busy = false →
    exec .clrerr s = .next { s with status := { s.status with errs := 0#4, result := 0#4, lastop := 0x06#8 } }

/-- R287: a command that ends in an error has written no cell, moved no cursor, changed no dimension and no result
register, and cleared no sticky bit. -/
def Obligations.ErrorsLeaveNoTrace : Prop :=
  ∀ (i : Instr) (s t : State), s.status.busy = false → exec i s = .next t → t.status.busy = false →
    t.status.result ≠ 0#4 →
    SameCells s t ∧ t.curI = s.curI ∧ t.curJ = s.curJ ∧
      t.origH = s.origH ∧ t.origW = s.origW ∧ t.residH = s.residH ∧ t.residW = s.residW ∧
      t.reconH = s.reconH ∧ t.reconW = s.reconW ∧ t.modeReq = s.modeReq ∧ t.levelsReq = s.levelsReq ∧
      t.sse = s.sse ∧ t.npix = s.npix ∧ t.mseQ = s.mseQ ∧
      t.ratioNum = s.ratioNum ∧ t.ratioDen = s.ratioDen ∧ t.ratioBpr = s.ratioBpr ∧ t.ratioQ = s.ratioQ ∧
      t.script = s.script ∧ t.readings = s.readings ∧
      s.status.errs &&& t.status.errs = s.status.errs

/-! ## CFG -/

/-- R160 (with R161 and R163): CFG with a known mode and a positive level count latches (mode, levels, ceil(256 /
levels)) and sets CFG_VALID; with an unknown mode or a non-positive level count it zeroes the three registers, clears
CFG_VALID and raises ConfigError. -/
def Obligations.CfgLatchesOrDrops : Prop :=
  ∀ s : State, s.status.busy = false →
    (∀ (m : PredictorMode) (stp : Nat), s.modeReq.toNat = m.code.toNat → 1 ≤ s.levelsReq.toInt →
      1 ≤ stp → 256 ≤ stp * s.levelsReq.toNat → (stp - 1) * s.levelsReq.toNat < 256 →
      exec .cfg s = .next { s with
        cfgMode := m, cfgLevels := s.levelsReq, cfgStep := BitVec.ofNat 9 stp
        status := { s.status with cfgValid := true, result := 0#4, lastop := 0x01#8 } }) ∧
    (2 < s.modeReq.toNat ∨ s.levelsReq.toInt ≤ 0 →
      exec .cfg s = .next { s with
        cfgMode := .order1, cfgLevels := 0#32, cfgStep := 0#9
        status := { s.status with
          cfgValid := false, result := 1#4, errs := s.status.errs ||| 1#4, lastop := 0x01#8 } })

/-- Only CFG, SRST and reset change the latched configuration (10_state.md section 3): if a step changes CFG_VALID or
registers 10 to 12, the host's next action was a write of 0x00000001 or 0x00000007 to CMD, or reset was applied. -/
def Obligations.OnlyCfgAndResetChangeConfiguration : Prop :=
  ∀ s t : State, step s = .next t →
    (t.cfgMode = s.cfgMode ∧ t.cfgLevels = s.cfgLevels ∧ t.cfgStep = s.cfgStep ∧
      t.status.cfgValid = s.status.cfgValid) ∨
    (∃ rest, s.script = .reset :: rest) ∨
    (∃ (v : HostValue) (rest : List Event), s.script = .host (.wr 0#16 v) :: rest ∧ s.status.busy = false ∧
      (v.toNat % 2 ^ 32 = 1 ∨ v.toNat % 2 ^ 32 = 7))

/-- 42_configure.md (R166) with the script line `configure`: after `configure NAME, L` with a name that is none of the three
(the code 0xFFFFFFFF) CFG has raised ConfigError; then an ENC, a DEC and a RATIO, in turn, are each accepted (LASTOP) and
each raise ConfigError, and after each of them no cell, the cursor and no dimension register has changed. That the three
commands follow with no engine turn between is the model's choice (log entry 19). -/
def Obligations.UnknownNameBlocksThePipeline : Prop :=
  ∀ (s : State) (name : List Char) (levels : Int) (rest : List Event),
    s.status.busy = false → name.map Char.toLower ≠ "order1".toList → name.map Char.toLower ≠ "order2".toList →
    name.map Char.toLower ≠ "adaptive".toList →
    s.script = lineEvents (.configure name levels) ++
      scriptEvents [.command .enc, .command .dec, .command .ratio] ++ rest →
    ∀ (n : Nat) (op : BitVec 8) (later : List Event),
      (n = 3 ∧ op = 0x01#8 ∧ later = scriptEvents [.command .enc, .command .dec, .command .ratio] ++ rest) ∨
      (n = 4 ∧ op = 0x02#8 ∧ later = scriptEvents [.command .dec, .command .ratio] ++ rest) ∨
      (n = 5 ∧ op = 0x03#8 ∧ later = scriptEvents [.command .ratio] ++ rest) ∨
      (n = 6 ∧ op = 0x05#8 ∧ later = rest) →
      ∃ t, steps n s = .next t ∧ t.status.cfgValid = false ∧ t.status.result = 1#4 ∧ t.status.busy = false ∧
        t.status.lastop = op ∧ t.status.errs = s.status.errs ||| 1#4 ∧
        SameCells s t ∧ t.curI = s.curI ∧ t.curJ = s.curJ ∧
        t.origH = s.origH ∧ t.origW = s.origW ∧ t.residH = s.residH ∧ t.residW = s.residW ∧
        t.reconH = s.reconH ∧ t.reconW = s.reconW ∧ t.script = later

/-! ## ENC -/

/-- R181: the acceptance of ENC. No valid configuration: ConfigError. Else an empty ORIG grid: InputError. Else the
cursor is (0, 0) and BUSY is 1. Nothing else changes. -/
def Obligations.EncAcceptance : Prop :=
  ∀ s : State, s.status.busy = false →
    (s.status.cfgValid = false → exec .enc s = .next { s with status := { s.status with
      result := 1#4, errs := s.status.errs ||| 1#4, lastop := 0x02#8 } }) ∧
    (s.status.cfgValid = true → (s.origH.toNat = 0 ∨ s.origW.toNat = 0) →
      exec .enc s = .next { s with status := { s.status with
        result := 2#4, errs := s.status.errs ||| 2#4, lastop := 0x02#8 } }) ∧
    (s.status.cfgValid = true → 1 ≤ s.origH.toNat → 1 ≤ s.origW.toNat →
      exec .enc s = .next { s with
        curI := 0#16, curJ := 0#16, status := { s.status with busy := true, lastop := 0x02#8 } })

/-- R182 (with R183): one ENC cell step stores trunc_16 of the rounded error at the cursor's address in RESID, advances
the cursor, and in the last cell copies the dimensions and completes; no other cell and no other register changes. -/
def Obligations.EncCellStep : Prop :=
  ∀ (s : State) (q : Int), s.status.busy = true → s.status.lastop = 0x02#8 → s.status.cfgValid = true → ConfigInv s →
    s.curI.toNat < s.origH.toNat → s.curJ.toNat < s.origW.toNat →
    RoundsHalfUp (s.origInt (s.curI.toNat * s.origW.toNat + s.curJ.toNat) -
      predict s.origInt s.curI.toNat s.curJ.toNat s.origW.toNat s.cfgMode) s.cfgStep.toNat q →
    ∃ t, engineTurn s = .next t ∧
      (∀ a, t.readResid a =
        if a = s.curI.toNat * s.origW.toNat + s.curJ.toNat then BitVec.ofInt 16 q else s.readResid a) ∧
      (∀ a, t.readOrig a = s.readOrig a) ∧ (∀ a, t.readRecon a = s.readRecon a) ∧
      t = { s with
        resid := t.resid
        curI := if s.curJ.toNat + 1 < s.origW.toNat then s.curI else BitVec.ofNat 16 (s.curI.toNat + 1)
        curJ := if s.curJ.toNat + 1 < s.origW.toNat then BitVec.ofNat 16 (s.curJ.toNat + 1) else 0#16
        residH := if s.curI.toNat + 1 = s.origH.toNat ∧ s.curJ.toNat + 1 = s.origW.toNat then s.origH else s.residH
        residW := if s.curI.toNat + 1 = s.origH.toNat ∧ s.curJ.toNat + 1 = s.origW.toNat then s.origW else s.residW
        status := if s.curI.toNat + 1 = s.origH.toNat ∧ s.curJ.toNat + 1 = s.origW.toNat
          then { s.status with busy := false, result := 0#4 } else s.status }

/-- R186, which the spec marks derived: the whole encode pass in closed form. From any idle state with a valid
configuration and a nonempty ORIG grid, the ENC command and H·W engine steps end idle with every residual the rounded
error against the ORIG prediction, RESID unchanged at H·W and above, and nothing else changed but RESID's dimensions,
the cursor and STATUS. -/
def Obligations.EncPassComputesResiduals : Prop :=
  ∀ s : State, s.status.busy = false → s.status.cfgValid = true → ConfigInv s →
    1 ≤ s.origH.toNat → 1 ≤ s.origW.toNat →
    ∃ t, commandAndTurns .enc (s.origH.toNat * s.origW.toNat) s = .next t ∧
      (∀ i j, i < s.origH.toNat → j < s.origW.toNat →
        RoundsHalfUp (s.origInt (i * s.origW.toNat + j) - predict s.origInt i j s.origW.toNat s.cfgMode)
          s.cfgStep.toNat (t.residInt (i * s.origW.toNat + j))) ∧
      (∀ a, s.origH.toNat * s.origW.toNat ≤ a → t.readResid a = s.readResid a) ∧
      (∀ a, t.readOrig a = s.readOrig a) ∧ (∀ a, t.readRecon a = s.readRecon a) ∧
      t = { s with
        resid := t.resid, residH := s.origH, residW := s.origW, curI := s.origH, curJ := 0#16
        status := { s.status with busy := false, result := 0#4, lastop := 0x02#8 } }

/-- R185, which the spec marks derived: the residual of every cell fits: the integer the encoder stores is the integer
that reads back, at most 510 in size, and at most 255 for Order1 and Adaptive. -/
def Obligations.StoredResidualReadsBack : Prop :=
  ∀ (s : State) (i j : Nat), 1 ≤ s.cfgStep.toNat →
    (s.encResidual i j).natAbs ≤ 510 ∧ (s.cfgMode ≠ .order2 → (s.encResidual i j).natAbs ≤ 255) ∧
    (BitVec.ofInt 16 (s.encResidual i j)).toInt = s.encResidual i j

/-! ## DEC -/

/-- R201: the acceptance of DEC. -/
def Obligations.DecAcceptance : Prop :=
  ∀ s : State, s.status.busy = false →
    (s.status.cfgValid = false → exec .dec s = .next { s with status := { s.status with
      result := 1#4, errs := s.status.errs ||| 1#4, lastop := 0x03#8 } }) ∧
    (s.status.cfgValid = true → (s.residH.toNat = 0 ∨ s.residW.toNat = 0) →
      exec .dec s = .next { s with status := { s.status with
        result := 2#4, errs := s.status.errs ||| 2#4, lastop := 0x03#8 } }) ∧
    (s.status.cfgValid = true → 1 ≤ s.residH.toNat → 1 ≤ s.residW.toNat →
      exec .dec s = .next { s with
        curI := 0#16, curJ := 0#16, status := { s.status with busy := true, lastop := 0x03#8 } })

/-- R202 (with R204): one DEC cell step stores the clamped sum of the prediction from RECON and the dequantized
residual at the cursor's address in RECON, advances the cursor, and in the last cell copies the dimensions and
completes; no other cell and no other register changes. -/
def Obligations.DecCellStep : Prop :=
  ∀ s : State, s.status.busy = true → s.status.lastop = 0x03#8 →
    s.curI.toNat < s.residH.toNat → s.curJ.toNat < s.residW.toNat →
    ∃ t, engineTurn s = .next t ∧
      t.reconInt (s.curI.toNat * s.residW.toNat + s.curJ.toNat) =
        max 0 (min 255 (predict s.reconInt s.curI.toNat s.curJ.toNat s.residW.toNat s.cfgMode +
          s.residInt (s.curI.toNat * s.residW.toNat + s.curJ.toNat) * s.cfgStep.toNat)) ∧
      (∀ a, a ≠ s.curI.toNat * s.residW.toNat + s.curJ.toNat → t.readRecon a = s.readRecon a) ∧
      (∀ a, t.readOrig a = s.readOrig a) ∧ (∀ a, t.readResid a = s.readResid a) ∧
      t = { s with
        recon := t.recon
        curI := if s.curJ.toNat + 1 < s.residW.toNat then s.curI else BitVec.ofNat 16 (s.curI.toNat + 1)
        curJ := if s.curJ.toNat + 1 < s.residW.toNat then BitVec.ofNat 16 (s.curJ.toNat + 1) else 0#16
        reconH := if s.curI.toNat + 1 = s.residH.toNat ∧ s.curJ.toNat + 1 = s.residW.toNat then s.residH else s.reconH
        reconW := if s.curI.toNat + 1 = s.residH.toNat ∧ s.curJ.toNat + 1 = s.residW.toNat then s.residW else s.reconW
        status := if s.curI.toNat + 1 = s.residH.toNat ∧ s.curJ.toNat + 1 = s.residW.toNat
          then { s.status with busy := false, result := 0#4 } else s.status }

/-- R207, which the spec marks derived: the whole decode pass in closed form. The reconstructed grid satisfies the
recursion of the rule: each cell is the clamp of its prediction from the reconstructed grid itself plus residual times
step. RECON is unchanged at H·W and above, and nothing else changes but RECON's dimensions, the cursor and STATUS. -/
def Obligations.DecPassRebuildsGrid : Prop :=
  ∀ s : State, s.status.busy = false → s.status.cfgValid = true → 1 ≤ s.residH.toNat → 1 ≤ s.residW.toNat →
    ∃ t, commandAndTurns .dec (s.residH.toNat * s.residW.toNat) s = .next t ∧
      (∀ i j, i < s.residH.toNat → j < s.residW.toNat →
        t.reconInt (i * s.residW.toNat + j) =
          max 0 (min 255 (predict t.reconInt i j s.residW.toNat s.cfgMode +
            s.residInt (i * s.residW.toNat + j) * s.cfgStep.toNat))) ∧
      (∀ a, s.residH.toNat * s.residW.toNat ≤ a → t.readRecon a = s.readRecon a) ∧
      (∀ a, t.readOrig a = s.readOrig a) ∧ (∀ a, t.readResid a = s.readResid a) ∧
      t = { s with
        recon := t.recon, reconH := s.residH, reconW := s.residW, curI := s.residH, curJ := 0#16
        status := { s.status with busy := false, result := 0#4, lastop := 0x03#8 } }

/-- R213 (with R205), which the spec marks derived: encode then decode is a function of ORIG, its dimensions and the
configuration: two runs from states that agree on these give the same residual and reconstructed grids, whatever RESID
and RECON held before. -/
def Obligations.EncodeThenDecodeIsDeterministic : Prop :=
  ∀ s s' : State, s.status.busy = false → s'.status.busy = false → s.status.cfgValid = true →
    s'.status.cfgValid = true → ConfigInv s → ConfigInv s' → s'.cfgMode = s.cfgMode → s'.cfgStep = s.cfgStep →
    s'.origH = s.origH → s'.origW = s.origW → 1 ≤ s.origH.toNat → 1 ≤ s.origW.toNat →
    (∀ a, a < s.origH.toNat * s.origW.toNat → s'.readOrig a = s.readOrig a) →
    ∃ e d e' d',
      commandAndTurns .enc (s.origH.toNat * s.origW.toNat) s = .next e ∧
      commandAndTurns .dec (s.origH.toNat * s.origW.toNat) e = .next d ∧
      commandAndTurns .enc (s.origH.toNat * s.origW.toNat) s' = .next e' ∧
      commandAndTurns .dec (s.origH.toNat * s.origW.toNat) e' = .next d' ∧
      ∀ a, a < s.origH.toNat * s.origW.toNat → d'.readResid a = d.readResid a ∧ d'.readRecon a = d.readRecon a

/-- Encode then decode with step 1 returns the original grid exactly, in every mode: every error is its own residual
and the decoder predicts from what the encoder predicted from (41_quantizer.md section 2, 44_decoder.md). -/
def Obligations.StepOneIsLossless : Prop :=
  ∀ s : State, s.status.busy = false → s.status.cfgValid = true → s.cfgStep = 1#9 →
    1 ≤ s.origH.toNat → 1 ≤ s.origW.toNat →
    ∃ e d, commandAndTurns .enc (s.origH.toNat * s.origW.toNat) s = .next e ∧
      commandAndTurns .dec (s.origH.toNat * s.origW.toNat) e = .next d ∧
      d.reconH = s.origH ∧ d.reconW = s.origW ∧
      ∀ a, a < s.origH.toNat * s.origW.toNat → d.readRecon a = s.readOrig a

/-- R210, which the spec marks derived: the Order1 encoding of a constant grid C decodes to the one value
CLAMP(QUANT(C, s)·s) in every cell. -/
def Obligations.ConstantGridDecodesToOneValue : Prop :=
  ∀ (s : State) (c : Pixel) (q : Int), s.status.busy = false → s.status.cfgValid = true → ConfigInv s →
    s.cfgMode = .order1 → 1 ≤ s.origH.toNat → 1 ≤ s.origW.toNat →
    (∀ a, a < s.origH.toNat * s.origW.toNat → s.readOrig a = c) → RoundsHalfUp c.toNat s.cfgStep.toNat q →
    ∃ e d, commandAndTurns .enc (s.origH.toNat * s.origW.toNat) s = .next e ∧
      commandAndTurns .dec (s.origH.toNat * s.origW.toNat) e = .next d ∧
      (∀ i j, i < s.origH.toNat → j < s.origW.toNat →
        e.residInt (i * s.origW.toNat + j) = if j = 0 then q else 0) ∧
      ∀ a, a < s.origH.toNat * s.origW.toNat → d.reconInt a = max 0 (min 255 (q * s.cfgStep.toNat))

/-! ## MSE and RATIO -/

/-- R221: the acceptance of MSE. MSE_VALID is cleared first; unequal dimensions raise DimensionMismatchError; equal
empty grids raise InputError; else SSE is 0, the cursor (0, 0) and BUSY 1. Nothing else changes. -/
def Obligations.MseAcceptance : Prop :=
  ∀ s : State, s.status.busy = false →
    ((s.origH ≠ s.reconH ∨ s.origW ≠ s.reconW) → exec .mse s = .next { s with status := { s.status with
      mseValid := false, result := 3#4, errs := s.status.errs ||| 4#4, lastop := 0x04#8 } }) ∧
    (s.origH = s.reconH → s.origW = s.reconW → (s.origH.toNat = 0 ∨ s.origW.toNat = 0) →
      exec .mse s = .next { s with status := { s.status with
        mseValid := false, result := 2#4, errs := s.status.errs ||| 2#4, lastop := 0x04#8 } }) ∧
    (s.origH = s.reconH → s.origW = s.reconW → 1 ≤ s.origH.toNat → 1 ≤ s.origW.toNat →
      exec .mse s = .next { s with
        sse := 0#64, curI := 0#16, curJ := 0#16
        status := { s.status with mseValid := false, busy := true, lastop := 0x04#8 } })

/-- R222 (with R223): one MSE cell step adds the squared difference of the two cells at the cursor's address to SSE,
advances the cursor, and in the last cell writes NPIX, MSE_Q and MSE_VALID and completes; no cell and no other register
changes. -/
def Obligations.MseCellStep : Prop :=
  ∀ s : State, s.status.busy = true → s.status.lastop = 0x04#8 → PassInv s →
    ∃ t, engineTurn s = .next t ∧
      (t.sse.toNat : Int) = s.sse.toNat +
        (s.origInt (s.curI.toNat * s.origW.toNat + s.curJ.toNat) -
          s.reconInt (s.curI.toNat * s.origW.toNat + s.curJ.toNat)) ^ 2 ∧
      SameCells s t ∧
      t = { s with
        sse := t.sse
        curI := if s.curJ.toNat + 1 < s.origW.toNat then s.curI else BitVec.ofNat 16 (s.curI.toNat + 1)
        curJ := if s.curJ.toNat + 1 < s.origW.toNat then BitVec.ofNat 16 (s.curJ.toNat + 1) else 0#16
        npix := if s.curI.toNat + 1 = s.origH.toNat ∧ s.curJ.toNat + 1 = s.origW.toNat
          then BitVec.ofNat 32 (s.origH.toNat * s.origW.toNat) else s.npix
        mseQ := if s.curI.toNat + 1 = s.origH.toNat ∧ s.curJ.toNat + 1 = s.origW.toNat
          then fquot t.sse.toNat (s.origH.toNat * s.origW.toNat) else s.mseQ
        status := if s.curI.toNat + 1 = s.origH.toNat ∧ s.curJ.toNat + 1 = s.origW.toNat
          then { s.status with busy := false, mseValid := true, result := 0#4 } else s.status }

/-- R226, which the spec marks derived: the whole MSE pass in closed form: SSE is the sum of squared differences, NPIX
= H·W, MSE_Q = FQUOT(SSE, NPIX), MSE_VALID = 1; no cell and no other register changes but the cursor and STATUS. -/
def Obligations.MsePassSumsSquares : Prop :=
  ∀ s : State, s.status.busy = false → s.origH = s.reconH → s.origW = s.reconW →
    1 ≤ s.origH.toNat → 1 ≤ s.origW.toNat →
    ∃ t, commandAndTurns .mse (s.origH.toNat * s.origW.toNat) s = .next t ∧
      (t.sse.toNat : Int) = ∑ i ∈ Finset.range s.origH.toNat, ∑ j ∈ Finset.range s.origW.toNat,
        (s.origInt (i * s.origW.toNat + j) - s.reconInt (i * s.origW.toNat + j)) ^ 2 ∧
      t.npix.toNat = s.origH.toNat * s.origW.toNat ∧
      t.mseQ = fquot t.sse.toNat (s.origH.toNat * s.origW.toNat) ∧
      SameCells s t ∧
      t = { s with
        sse := t.sse, npix := t.npix, mseQ := t.mseQ, curI := s.origH, curJ := 0#16
        status := { s.status with busy := false, mseValid := true, result := 0#4, lastop := 0x04#8 } }

/-- R235 (with R237): the word 0x00000005 is RATIO. No valid configuration: ConfigError. Else an empty ORIG grid:
InputError. Else, with b the least exponent whose power of two reaches the level count, RATIO_BPR = b, RATIO_NUM =
W·H·8, RATIO_DEN = W·H·b, RATIO_Q their quotient, RATIO_DIV0 = (b = 0), RATIO_VALID = 1. Nothing else changes. -/
def Obligations.RatioComputesBitCounts : Prop :=
  decode 0x00000005#32 = .ok .ratio ∧
  ∀ s : State, s.status.busy = false →
    (s.status.cfgValid = false → exec .ratio s = .next { s with status := { s.status with
      ratioValid := false, ratioDiv0 := false, result := 1#4, errs := s.status.errs ||| 1#4, lastop := 0x05#8 } }) ∧
    (s.status.cfgValid = true → (s.origH.toNat = 0 ∨ s.origW.toNat = 0) →
      exec .ratio s = .next { s with status := { s.status with
        ratioValid := false, ratioDiv0 := false, result := 2#4, errs := s.status.errs ||| 2#4, lastop := 0x05#8 } }) ∧
    (∀ b : Nat, s.status.cfgValid = true → ConfigInv s → 1 ≤ s.origH.toNat → 1 ≤ s.origW.toNat →
      s.cfgLevels.toNat ≤ 2 ^ b → (∀ c, s.cfgLevels.toNat ≤ 2 ^ c → b ≤ c) →
      ∃ t, exec .ratio s = .next t ∧ t.ratioBpr.toNat = b ∧
        t.ratioNum.toNat = s.origW.toNat * s.origH.toNat * 8 ∧ t.ratioDen.toNat = s.origW.toNat * s.origH.toNat * b ∧
        t = { s with
          ratioBpr := t.ratioBpr, ratioNum := t.ratioNum, ratioDen := t.ratioDen
          ratioQ := fquot (s.origW.toNat * s.origH.toNat * 8) (s.origW.toNat * s.origH.toNat * b)
          status := { s.status with
            ratioValid := true, ratioDiv0 := decide (b = 0), result := 0#4, lastop := 0x05#8 } })

/-- R238: with one level RATIO completes without error, RATIO_DEN = 0, RATIO_DIV0 = 1, RATIO_VALID = 1 and RATIO_Q is
the pattern of +infinity. -/
def Obligations.RatioWithOneLevel : Prop :=
  ∀ s : State, s.status.busy = false → s.status.cfgValid = true → s.cfgLevels = 1#32 →
    1 ≤ s.origH.toNat → 1 ≤ s.origW.toNat →
    exec .ratio s = .next { s with
      ratioBpr := 0#5, ratioNum := BitVec.ofNat 64 (s.origW.toNat * s.origH.toNat * 8), ratioDen := 0#64
      ratioQ := 0x7FF0000000000000#64
      status := { s.status with ratioValid := true, ratioDiv0 := true, result := 0#4, lastop := 0x05#8 } }

/-! ## Passes and the two agents -/

/-- R260, which the spec marks derived: from any state of a run in which a pass is under way, the pass takes exactly
the cells left: before that many engine steps it is still BUSY and has visited one cell per step, and after them BUSY =
0, RESULT = 0 and the cursor rests at (H, 0). -/
def Obligations.PassTakesOneStepPerCell : Prop :=
  ∀ s : State, Inv s → s.status.busy = true →
    s.passAddr < s.passH * s.passW ∧
    (∀ k, k < s.cellsLeft → ∃ t, engineSteps k s = .next t ∧ t.status.busy = true ∧ t.passAddr = s.passAddr + k) ∧
    ∃ t, engineSteps s.cellsLeft s = .next t ∧ t.status.busy = false ∧ t.status.result = 0#4 ∧
      t.curI.toNat = s.passH ∧ t.curJ.toNat = 0

/-- R75: what a host sees of the grid under construction. After k engine steps of an ENC pass the RESID cells below k
hold their final values of the pass and those from k on what they held before; the same for RECON in a DEC pass. -/
def Obligations.PartialGridIsVisible : Prop :=
  ∀ (s v t : State) (k : Nat), s.status.busy = false → s.status.cfgValid = true → ConfigInv s →
    (1 ≤ s.origH.toNat → 1 ≤ s.origW.toNat → k ≤ s.origH.toNat * s.origW.toNat →
      commandAndTurns .enc k s = .next v → commandAndTurns .enc (s.origH.toNat * s.origW.toNat) s = .next t →
      (∀ a, a < k → v.readResid a = t.readResid a) ∧ ∀ a, k ≤ a → v.readResid a = s.readResid a) ∧
    (1 ≤ s.residH.toNat → 1 ≤ s.residW.toNat → k ≤ s.residH.toNat * s.residW.toNat →
      commandAndTurns .dec k s = .next v → commandAndTurns .dec (s.residH.toNat * s.residW.toNat) s = .next t →
      (∀ a, a < k → v.readRecon a = t.readRecon a) ∧ ∀ a, k ≤ a → v.readRecon a = s.readRecon a)

/-- The spec's inference R267: a pass is a function of the state at its acceptance. Whatever reads and writes the host
interleaves while the pass is BUSY, after the next engine turn the engine's state (registers and memories) is what the
same number of engine turns alone would have made it. A `wait` in the script is WaitEndsWhenThePassDoes; a reset ends the
pass (ResetWorksInEveryState). -/
def Obligations.HostCannotDisturbAPass : Prop :=
  ∀ (s u u' : State) (es rest : List Event), s.status.busy = true → s.script = es ++ .engine :: rest →
    es.all turnOrTransaction = true → engineSteps (engineTurns es) s = .next u → u.status.busy = true →
    engineSteps (engineTurns es + 1) s = .next u' →
    ∃ t, steps (es.length + 1) s = .next t ∧ t.engine = u'.engine ∧ t.script = rest

/-- R105: `wait` always ends. From any state of a run it takes one read and one engine step for each cell left and one
last read, ends with BUSY = 0, and changes the engine only by those engine steps. One read for each engine turn is the
model's choice (log entry 6). -/
def Obligations.WaitEndsWhenThePassDoes : Prop :=
  ∀ (s : State) (rest : List Event), Inv s → s.script = .wait :: rest →
    ∃ t u, steps (2 * s.cellsLeft + 1) s = .next t ∧ t.status.busy = false ∧ t.script = rest ∧
      engineSteps s.cellsLeft s = .next u ∧ t.engine = u.engine

/-! ## Whole-machine properties -/

/-- The invariants hold after reset. -/
def Obligations.ResetMeetsInvariants : Prop := Inv State.reset

/-- Every step keeps the invariants: canonical memories, the configuration invariant of 10_state.md section 3, the pass
invariants, legal outcome codes with their sticky bits, and result registers consistent with their valid flags. -/
def Obligations.EveryStepKeepsInvariants : Prop :=
  ∀ s t : State, Inv s → step s = .next t → Inv t

/-- No step from a state of a run stops: there is no fault, no refusal and no hang (60_exceptions.md section 3,
46_control.md section 2). -/
def Obligations.NoStepStops : Prop := ∀ s : State, Inv s → ∃ t, step s = .next t

/-- The spaces are written only by those the memory table of 20_memory.md names: if a step changes a cell of ORIG, the
host wrote to ORIG; of RESID, the host wrote to RESID or an ENC pass is under way; of RECON, the host wrote to RECON or
a DEC pass is under way. -/
def Obligations.SpacesHaveTheirWriters : Prop :=
  ∀ (s t : State) (a : Nat), step s = .next t →
    (t.readOrig a ≠ s.readOrig a → ∃ c v rest, s.script = .host (.wm .orig c v) :: rest) ∧
    (t.readResid a ≠ s.readResid a → (∃ c v rest, s.script = .host (.wm .resid c v) :: rest) ∨
      (s.status.busy = true ∧ s.status.lastop = 0x02#8)) ∧
    (t.readRecon a ≠ s.readRecon a → (∃ c v rest, s.script = .host (.wm .recon c v) :: rest) ∨
      (s.status.busy = true ∧ s.status.lastop = 0x03#8))

/-! ## The datapath -/

/-- R140 with the laws of R141, which the spec marks derived: STEPOF(L) is ceil(256 / L): the least step with step·L ≥
256; it lies in 1..256, is non-increasing, and is 1 exactly when L ≥ 256. -/
def Obligations.StepOfIsTheCeiling : Prop :=
  ∀ l : Nat, 1 ≤ l →
    256 ≤ stepOf l * l ∧ (stepOf l - 1) * l < 256 ∧ 1 ≤ stepOf l ∧ stepOf l ≤ 256 ∧ (stepOf l = 1 ↔ 256 ≤ l) ∧
    ∀ l', l ≤ l' → stepOf l' ≤ stepOf l

/-- R145, which the spec marks derived: the quantization error: −s/2 ≤ e − q·s < s/2 for q = QUANT(e, s), and no other
q has it. -/
def Obligations.QuantErrorIsHalfAStep : Prop :=
  ∀ (e q : Int) (s : Nat), 1 ≤ s → (RoundsHalfUp e s q ↔ q = quant e s)

/-- R143: at a tie, 2e an odd multiple of s, QUANT takes the greater of the two integers, for either sign of e; a tie
occurs only for even s. -/
def Obligations.QuantTiesGoUp : Prop :=
  ∀ (e k : Int) (s : Nat), 1 ≤ s → 2 * e = (2 * k + 1) * s → quant e s = k + 1 ∧ s % 2 = 0

/-- R144, which the spec marks derived: QUANT(0, s) = 0; it is odd except at ties, where QUANT(−e, s) = −QUANT(e, s) +
1; with s = 1 it is the identity; it is non-decreasing; its zero bin is −s ≤ 2e < s. -/
def Obligations.QuantSigns : Prop :=
  ∀ (e e' : Int) (s : Nat), 1 ≤ s →
    quant 0 s = 0 ∧
    ((∃ k : Int, 2 * e = (2 * k + 1) * s) → quant (-e) s = -quant e s + 1) ∧
    ((¬ ∃ k : Int, 2 * e = (2 * k + 1) * s) → quant (-e) s = -quant e s) ∧
    quant e 1 = e ∧ (e ≤ e' → quant e s ≤ quant e' s) ∧ (quant e s = 0 ↔ -(s : Int) ≤ 2 * e ∧ 2 * e < s)

/-- R148: CLAMP saturates: the value itself in 0..255, 0 below, 255 above. -/
def Obligations.ClampSaturates : Prop :=
  ∀ v : Int, (v < 0 → clamp v = 0) ∧ (255 < v → clamp v = 255) ∧ (0 ≤ v → v ≤ 255 → clamp v = v)

/-- R128, which the spec marks derived: the prediction of the seed cells and of the interior, for each mode. -/
def Obligations.PredictionOfSeedCells : Prop :=
  ∀ (cell : Nat → Int) (i j w : Nat), 1 ≤ i → 1 ≤ j →
    (predict cell 0 0 w .order1 = 0 ∧ predict cell 0 0 w .order2 = 0 ∧ predict cell 0 0 w .adaptive = 0) ∧
    (predict cell 0 j w .order1 = cell (j - 1) ∧ predict cell 0 j w .order2 = cell (j - 1) ∧
      predict cell 0 j w .adaptive = ⌊(cell (j - 1) : ℚ) / 2⌋) ∧
    (predict cell i 0 w .order1 = 0 ∧ predict cell i 0 w .order2 = cell ((i - 1) * w) ∧
      predict cell i 0 w .adaptive = ⌊(cell ((i - 1) * w) : ℚ) / 2⌋) ∧
    (predict cell i j w .order1 = cell (i * w + (j - 1)) ∧
      predict cell i j w .order2 = cell (i * w + (j - 1)) + cell ((i - 1) * w + j) - cell ((i - 1) * w + (j - 1)) ∧
      predict cell i j w .adaptive = ⌊((cell (i * w + (j - 1)) : ℚ) + cell ((i - 1) * w + j)) / 2⌋)

/-- The result ranges of 40_predictor.md section 2, for cells in 0..255: 0..255 for Order1 and Adaptive, −255..510 for
Order2, both bounds reached in each mode. -/
def Obligations.PredictionRanges : Prop :=
  (∀ (cell : Nat → Int) (i j w : Nat), (∀ a, 0 ≤ cell a ∧ cell a ≤ 255) →
    (0 ≤ predict cell i j w .order1 ∧ predict cell i j w .order1 ≤ 255) ∧
    (-255 ≤ predict cell i j w .order2 ∧ predict cell i j w .order2 ≤ 510) ∧
    (0 ≤ predict cell i j w .adaptive ∧ predict cell i j w .adaptive ≤ 255)) ∧
  (∃ cell : Nat → Int, (∀ a, 0 ≤ cell a ∧ cell a ≤ 255) ∧ predict cell 1 1 2 .order2 = -255) ∧
  (∃ cell : Nat → Int, (∀ a, 0 ≤ cell a ∧ cell a ≤ 255) ∧ predict cell 1 1 2 .order2 = 510) ∧
  (∃ cell : Nat → Int, (∀ a, 0 ≤ cell a ∧ cell a ≤ 255) ∧
    predict cell 1 1 2 .order1 = 0 ∧ predict cell 1 1 2 .adaptive = 0) ∧
  (∃ cell : Nat → Int, (∀ a, 0 ≤ cell a ∧ cell a ≤ 255) ∧
    predict cell 1 1 2 .order1 = 255 ∧ predict cell 1 1 2 .adaptive = 255)

/-- R130, which the spec marks derived: causality. The prediction of a cell depends only on cells with smaller
addresses. -/
def Obligations.PredictionIsCausal : Prop :=
  ∀ (f g : Nat → Int) (i j w : Nat) (m : PredictorMode), j < w →
    (∀ a, a < i * w + j → f a = g a) → predict f i j w m = predict g i j w m

/-- R237: CLOG2(L) is the least b with 2^b ≥ L; an exact power of two gives its exponent; for L < 2^31 + 1 it is at
most 31. -/
def Obligations.Clog2IsLeastExponent : Prop :=
  ∀ l : Nat, 1 ≤ l →
    l ≤ 2 ^ clog2 l ∧ (∀ b, l ≤ 2 ^ b → clog2 l ≤ b) ∧ (∀ k, l = 2 ^ k → clog2 l = k) ∧ (l ≤ 2 ^ 31 → clog2 l ≤ 31)

/-- R232 with IEEE 754 binary64, which the spec takes from general knowledge (log entry 12). For d > 0 and n > 0 the
pattern is finite and its value is nearest to the exact quotient among all finite patterns, an even pattern on a tie; n
= 0 gives +0.0; d = 0 gives +infinity. -/
def Obligations.FquotIsCorrectlyRounded : Prop :=
  (∀ n d : Nat, 0 < n → 0 < d → n < 2 ^ 64 → d < 2 ^ 64 →
    (fquot n d).toNat < 0x7FF0000000000000 ∧
    ∀ y : FloatBits, y.toNat < 0x7FF0000000000000 →
      |binary64Value (fquot n d) - (n : ℚ) / d| ≤ |binary64Value y - (n : ℚ) / d| ∧
      (|binary64Value (fquot n d) - (n : ℚ) / d| = |binary64Value y - (n : ℚ) / d| → y ≠ fquot n d →
        (fquot n d).toNat % 2 = 0)) ∧
  (∀ d : Nat, 0 < d → fquot 0 d = 0#64) ∧
  ∀ n : Nat, 0 < n → fquot n 0 = 0x7FF0000000000000#64

/-! ## Scripts -/

/-- R107: `configure NAME, L` writes the code of the name, compared in any case, to MODE_REQ, trunc_64(L) to
LEVELS_REQ, and 0x00000001 to CMD; any name but the three gives the code 0xFFFFFFFF. -/
def Obligations.ConfigureLineExpansion : Prop :=
  ∀ (name : List Char) (levels : Int),
    ∃ code : HostValue,
      lineEvents (.configure name levels) =
        [.host (.wr 2#16 code), .host (.wr 3#16 (BitVec.ofInt 64 levels)), .host (.wr 0#16 0x00000001#64)] ∧
      (name.map Char.toLower = "order1".toList → code = 0#64) ∧
      (name.map Char.toLower = "order2".toList → code = 1#64) ∧
      (name.map Char.toLower = "adaptive".toList → code = 2#64) ∧
      (name.map Char.toLower ∉ ["order1".toList, "order2".toList, "adaptive".toList] → code = 0xFFFFFFFF#64)

/-- R108 with R93: the script line `loadgrid SPACE, H, W, [[...]]` from an idle state takes 2 + H·W host actions, after
which the space's dimension registers are H and W, the cell at i·W + j holds the low bits of the listed value, and no
cell of another space, no cell from H·W on and no other register has changed. -/
def Obligations.LoadgridPlacesTheGrid : Prop :=
  ∀ (s : State) (sp : Space) (h w : Nat) (rows : List (List Int)) (rest : List Event),
    s.status.busy = false → h < 65536 → w < 65536 → gridShape h w rows = true →
    s.script = lineEvents (.loadgrid sp h w rows) ++ rest →
    ∃ t, steps (2 + h * w) s = .next t ∧ t.script = rest ∧ t.readings = s.readings ∧
      (t.readNumber sp.heightReg.no).toNat = h ∧ (t.readNumber sp.widthReg.no).toNat = w ∧
      (∀ n : RegNo, n ≠ sp.heightReg.no → n ≠ sp.widthReg.no → t.readNumber n = s.readNumber n) ∧
      (∀ (i j : Nat) (row : List Int) (v : Int), rows[i]? = some row → row[j]? = some v →
        ((t.readCell sp (BitVec.ofNat 32 (i * w + j))).toNat : Int) = v % 2 ^ (if sp = .resid then 16 else 8)) ∧
      ∀ (sp' : Space) (b : CellAddr), (sp' ≠ sp ∨ h * w ≤ b.toNat) → t.readCell sp' b = s.readCell sp' b

/-- R106: what a comparing read of a script compares, a register or a pixel against trunc_64 of the stated value, a
STATUS field alone, a RESID cell after sign extension; it changes nothing but the host's record (log entry 7). -/
def Obligations.ComparingReadsCompare : Prop :=
  ∀ (s : State) (rest : List Event) (c : Check), s.script = .check c :: rest →
    ∃ (r : HostValue) (m : Bool), step s = .next { s with script := rest, readings := ⟨r, m⟩ :: s.readings } ∧
      (m = true ↔ match c with
        | .reg n v => s.readNumber n = BitVec.ofInt 64 v
        | .cell .orig a v => s.readCell .orig a = BitVec.ofInt 64 v
        | .cell .recon a v => s.readCell .recon a = BitVec.ofInt 64 v
        | .cell .resid a v => s.residInt a.toNat = v
        | .field .busy v => (s.status.busy.toNat : Int) = v
        | .field .cfgValid v => (s.status.cfgValid.toNat : Int) = v
        | .field .mseValid v => (s.status.mseValid.toNat : Int) = v
        | .field .ratioValid v => (s.status.ratioValid.toNat : Int) = v
        | .field .ratioDiv0 v => (s.status.ratioDiv0.toNat : Int) = v
        | .field .result v => (s.status.result.toNat : Int) = v
        | .field .errs v => (s.status.errs.toNat : Int) = v
        | .field .lastop v => (s.status.lastop.toNat : Int) = v)

/-- R109: `pipeline NAME, L` is the ten lines of the rule in their order. That the events leave the engine no turn outside
`wait` is the model's choice (log entry 19). -/
def Obligations.PipelineLineExpansion : Prop :=
  ∀ (name : List Char) (levels : Int),
    lineEvents (.pipeline name levels) =
      scriptEvents [.command .clrerr, .configure name levels, .command .enc, .wait, .command .dec, .wait,
        .command .mse, .wait, .command .ratio, .rd 1#16]
end

