-- ==== Sys2Proof/Laws/State.lean ====
section
/-! SUPPORT. What each named update of the state does to each field: one lemma per field per update, so that no proof
unfolds a record update. -/

namespace Sys2Proof.Machine

/-! ### writeOrig -/

@[simp] theorem State.writeOrig_status (s : State) (a : Nat) (v : Pixel) : (s.writeOrig a v).status = s.status := rfl
@[simp] theorem State.writeOrig_modeReq (s : State) (a : Nat) (v : Pixel) : (s.writeOrig a v).modeReq = s.modeReq := rfl
@[simp] theorem State.writeOrig_levelsReq (s : State) (a : Nat) (v : Pixel) :
    (s.writeOrig a v).levelsReq = s.levelsReq := rfl
@[simp] theorem State.writeOrig_origH (s : State) (a : Nat) (v : Pixel) : (s.writeOrig a v).origH = s.origH := rfl
@[simp] theorem State.writeOrig_origW (s : State) (a : Nat) (v : Pixel) : (s.writeOrig a v).origW = s.origW := rfl
@[simp] theorem State.writeOrig_residH (s : State) (a : Nat) (v : Pixel) : (s.writeOrig a v).residH = s.residH := rfl
@[simp] theorem State.writeOrig_residW (s : State) (a : Nat) (v : Pixel) : (s.writeOrig a v).residW = s.residW := rfl
@[simp] theorem State.writeOrig_reconH (s : State) (a : Nat) (v : Pixel) : (s.writeOrig a v).reconH = s.reconH := rfl
@[simp] theorem State.writeOrig_reconW (s : State) (a : Nat) (v : Pixel) : (s.writeOrig a v).reconW = s.reconW := rfl
@[simp] theorem State.writeOrig_cfgMode (s : State) (a : Nat) (v : Pixel) : (s.writeOrig a v).cfgMode = s.cfgMode := rfl
@[simp] theorem State.writeOrig_cfgLevels (s : State) (a : Nat) (v : Pixel) :
    (s.writeOrig a v).cfgLevels = s.cfgLevels := rfl
@[simp] theorem State.writeOrig_cfgStep (s : State) (a : Nat) (v : Pixel) : (s.writeOrig a v).cfgStep = s.cfgStep := rfl
@[simp] theorem State.writeOrig_curI (s : State) (a : Nat) (v : Pixel) : (s.writeOrig a v).curI = s.curI := rfl
@[simp] theorem State.writeOrig_curJ (s : State) (a : Nat) (v : Pixel) : (s.writeOrig a v).curJ = s.curJ := rfl
@[simp] theorem State.writeOrig_sse (s : State) (a : Nat) (v : Pixel) : (s.writeOrig a v).sse = s.sse := rfl
@[simp] theorem State.writeOrig_npix (s : State) (a : Nat) (v : Pixel) : (s.writeOrig a v).npix = s.npix := rfl
@[simp] theorem State.writeOrig_mseQ (s : State) (a : Nat) (v : Pixel) : (s.writeOrig a v).mseQ = s.mseQ := rfl
@[simp] theorem State.writeOrig_ratioNum (s : State) (a : Nat) (v : Pixel) :
    (s.writeOrig a v).ratioNum = s.ratioNum := rfl
@[simp] theorem State.writeOrig_ratioDen (s : State) (a : Nat) (v : Pixel) :
    (s.writeOrig a v).ratioDen = s.ratioDen := rfl
@[simp] theorem State.writeOrig_ratioBpr (s : State) (a : Nat) (v : Pixel) :
    (s.writeOrig a v).ratioBpr = s.ratioBpr := rfl
@[simp] theorem State.writeOrig_ratioQ (s : State) (a : Nat) (v : Pixel) : (s.writeOrig a v).ratioQ = s.ratioQ := rfl
@[simp] theorem State.writeOrig_orig (s : State) (a : Nat) (v : Pixel) :
    (s.writeOrig a v).orig = s.orig.store a v := rfl
@[simp] theorem State.writeOrig_resid (s : State) (a : Nat) (v : Pixel) : (s.writeOrig a v).resid = s.resid := rfl
@[simp] theorem State.writeOrig_recon (s : State) (a : Nat) (v : Pixel) : (s.writeOrig a v).recon = s.recon := rfl
@[simp] theorem State.writeOrig_script (s : State) (a : Nat) (v : Pixel) : (s.writeOrig a v).script = s.script := rfl
@[simp] theorem State.writeOrig_readings (s : State) (a : Nat) (v : Pixel) :
    (s.writeOrig a v).readings = s.readings := rfl

/-! ### writeResid -/

@[simp] theorem State.writeResid_status (s : State) (a : Nat) (v : ResidCell) :
    (s.writeResid a v).status = s.status := rfl
@[simp] theorem State.writeResid_modeReq (s : State) (a : Nat) (v : ResidCell) :
    (s.writeResid a v).modeReq = s.modeReq := rfl
@[simp] theorem State.writeResid_levelsReq (s : State) (a : Nat) (v : ResidCell) :
    (s.writeResid a v).levelsReq = s.levelsReq := rfl
@[simp] theorem State.writeResid_origH (s : State) (a : Nat) (v : ResidCell) : (s.writeResid a v).origH = s.origH := rfl
@[simp] theorem State.writeResid_origW (s : State) (a : Nat) (v : ResidCell) : (s.writeResid a v).origW = s.origW := rfl
@[simp] theorem State.writeResid_residH (s : State) (a : Nat) (v : ResidCell) :
    (s.writeResid a v).residH = s.residH := rfl
@[simp] theorem State.writeResid_residW (s : State) (a : Nat) (v : ResidCell) :
    (s.writeResid a v).residW = s.residW := rfl
@[simp] theorem State.writeResid_reconH (s : State) (a : Nat) (v : ResidCell) :
    (s.writeResid a v).reconH = s.reconH := rfl
@[simp] theorem State.writeResid_reconW (s : State) (a : Nat) (v : ResidCell) :
    (s.writeResid a v).reconW = s.reconW := rfl
@[simp] theorem State.writeResid_cfgMode (s : State) (a : Nat) (v : ResidCell) :
    (s.writeResid a v).cfgMode = s.cfgMode := rfl
@[simp] theorem State.writeResid_cfgLevels (s : State) (a : Nat) (v : ResidCell) :
    (s.writeResid a v).cfgLevels = s.cfgLevels := rfl
@[simp] theorem State.writeResid_cfgStep (s : State) (a : Nat) (v : ResidCell) :
    (s.writeResid a v).cfgStep = s.cfgStep := rfl
@[simp] theorem State.writeResid_curI (s : State) (a : Nat) (v : ResidCell) : (s.writeResid a v).curI = s.curI := rfl
@[simp] theorem State.writeResid_curJ (s : State) (a : Nat) (v : ResidCell) : (s.writeResid a v).curJ = s.curJ := rfl
@[simp] theorem State.writeResid_sse (s : State) (a : Nat) (v : ResidCell) : (s.writeResid a v).sse = s.sse := rfl
@[simp] theorem State.writeResid_npix (s : State) (a : Nat) (v : ResidCell) : (s.writeResid a v).npix = s.npix := rfl
@[simp] theorem State.writeResid_mseQ (s : State) (a : Nat) (v : ResidCell) : (s.writeResid a v).mseQ = s.mseQ := rfl
@[simp] theorem State.writeResid_ratioNum (s : State) (a : Nat) (v : ResidCell) :
    (s.writeResid a v).ratioNum = s.ratioNum := rfl
@[simp] theorem State.writeResid_ratioDen (s : State) (a : Nat) (v : ResidCell) :
    (s.writeResid a v).ratioDen = s.ratioDen := rfl
@[simp] theorem State.writeResid_ratioBpr (s : State) (a : Nat) (v : ResidCell) :
    (s.writeResid a v).ratioBpr = s.ratioBpr := rfl
@[simp] theorem State.writeResid_ratioQ (s : State) (a : Nat) (v : ResidCell) :
    (s.writeResid a v).ratioQ = s.ratioQ := rfl
@[simp] theorem State.writeResid_orig (s : State) (a : Nat) (v : ResidCell) : (s.writeResid a v).orig = s.orig := rfl
@[simp] theorem State.writeResid_resid (s : State) (a : Nat) (v : ResidCell) :
    (s.writeResid a v).resid = s.resid.store a v := rfl
@[simp] theorem State.writeResid_recon (s : State) (a : Nat) (v : ResidCell) : (s.writeResid a v).recon = s.recon := rfl
@[simp] theorem State.writeResid_script (s : State) (a : Nat) (v : ResidCell) :
    (s.writeResid a v).script = s.script := rfl
@[simp] theorem State.writeResid_readings (s : State) (a : Nat) (v : ResidCell) :
    (s.writeResid a v).readings = s.readings := rfl

/-! ### writeRecon -/

@[simp] theorem State.writeRecon_status (s : State) (a : Nat) (v : Pixel) : (s.writeRecon a v).status = s.status := rfl
@[simp] theorem State.writeRecon_modeReq (s : State) (a : Nat) (v : Pixel) :
    (s.writeRecon a v).modeReq = s.modeReq := rfl
@[simp] theorem State.writeRecon_levelsReq (s : State) (a : Nat) (v : Pixel) :
    (s.writeRecon a v).levelsReq = s.levelsReq := rfl
@[simp] theorem State.writeRecon_origH (s : State) (a : Nat) (v : Pixel) : (s.writeRecon a v).origH = s.origH := rfl
@[simp] theorem State.writeRecon_origW (s : State) (a : Nat) (v : Pixel) : (s.writeRecon a v).origW = s.origW := rfl
@[simp] theorem State.writeRecon_residH (s : State) (a : Nat) (v : Pixel) : (s.writeRecon a v).residH = s.residH := rfl
@[simp] theorem State.writeRecon_residW (s : State) (a : Nat) (v : Pixel) : (s.writeRecon a v).residW = s.residW := rfl
@[simp] theorem State.writeRecon_reconH (s : State) (a : Nat) (v : Pixel) : (s.writeRecon a v).reconH = s.reconH := rfl
@[simp] theorem State.writeRecon_reconW (s : State) (a : Nat) (v : Pixel) : (s.writeRecon a v).reconW = s.reconW := rfl
@[simp] theorem State.writeRecon_cfgMode (s : State) (a : Nat) (v : Pixel) :
    (s.writeRecon a v).cfgMode = s.cfgMode := rfl
@[simp] theorem State.writeRecon_cfgLevels (s : State) (a : Nat) (v : Pixel) :
    (s.writeRecon a v).cfgLevels = s.cfgLevels := rfl
@[simp] theorem State.writeRecon_cfgStep (s : State) (a : Nat) (v : Pixel) :
    (s.writeRecon a v).cfgStep = s.cfgStep := rfl
@[simp] theorem State.writeRecon_curI (s : State) (a : Nat) (v : Pixel) : (s.writeRecon a v).curI = s.curI := rfl
@[simp] theorem State.writeRecon_curJ (s : State) (a : Nat) (v : Pixel) : (s.writeRecon a v).curJ = s.curJ := rfl
@[simp] theorem State.writeRecon_sse (s : State) (a : Nat) (v : Pixel) : (s.writeRecon a v).sse = s.sse := rfl
@[simp] theorem State.writeRecon_npix (s : State) (a : Nat) (v : Pixel) : (s.writeRecon a v).npix = s.npix := rfl
@[simp] theorem State.writeRecon_mseQ (s : State) (a : Nat) (v : Pixel) : (s.writeRecon a v).mseQ = s.mseQ := rfl
@[simp] theorem State.writeRecon_ratioNum (s : State) (a : Nat) (v : Pixel) :
    (s.writeRecon a v).ratioNum = s.ratioNum := rfl
@[simp] theorem State.writeRecon_ratioDen (s : State) (a : Nat) (v : Pixel) :
    (s.writeRecon a v).ratioDen = s.ratioDen := rfl
@[simp] theorem State.writeRecon_ratioBpr (s : State) (a : Nat) (v : Pixel) :
    (s.writeRecon a v).ratioBpr = s.ratioBpr := rfl
@[simp] theorem State.writeRecon_ratioQ (s : State) (a : Nat) (v : Pixel) : (s.writeRecon a v).ratioQ = s.ratioQ := rfl
@[simp] theorem State.writeRecon_orig (s : State) (a : Nat) (v : Pixel) : (s.writeRecon a v).orig = s.orig := rfl
@[simp] theorem State.writeRecon_resid (s : State) (a : Nat) (v : Pixel) : (s.writeRecon a v).resid = s.resid := rfl
@[simp] theorem State.writeRecon_recon (s : State) (a : Nat) (v : Pixel) :
    (s.writeRecon a v).recon = s.recon.store a v := rfl
@[simp] theorem State.writeRecon_script (s : State) (a : Nat) (v : Pixel) : (s.writeRecon a v).script = s.script := rfl
@[simp] theorem State.writeRecon_readings (s : State) (a : Nat) (v : Pixel) :
    (s.writeRecon a v).readings = s.readings := rfl

/-! ### setCursor -/

@[simp] theorem State.setCursor_status (s : State) (c : Nat × Nat) : (s.setCursor c).status = s.status := rfl
@[simp] theorem State.setCursor_modeReq (s : State) (c : Nat × Nat) : (s.setCursor c).modeReq = s.modeReq := rfl
@[simp] theorem State.setCursor_levelsReq (s : State) (c : Nat × Nat) : (s.setCursor c).levelsReq = s.levelsReq := rfl
@[simp] theorem State.setCursor_origH (s : State) (c : Nat × Nat) : (s.setCursor c).origH = s.origH := rfl
@[simp] theorem State.setCursor_origW (s : State) (c : Nat × Nat) : (s.setCursor c).origW = s.origW := rfl
@[simp] theorem State.setCursor_residH (s : State) (c : Nat × Nat) : (s.setCursor c).residH = s.residH := rfl
@[simp] theorem State.setCursor_residW (s : State) (c : Nat × Nat) : (s.setCursor c).residW = s.residW := rfl
@[simp] theorem State.setCursor_reconH (s : State) (c : Nat × Nat) : (s.setCursor c).reconH = s.reconH := rfl
@[simp] theorem State.setCursor_reconW (s : State) (c : Nat × Nat) : (s.setCursor c).reconW = s.reconW := rfl
@[simp] theorem State.setCursor_cfgMode (s : State) (c : Nat × Nat) : (s.setCursor c).cfgMode = s.cfgMode := rfl
@[simp] theorem State.setCursor_cfgLevels (s : State) (c : Nat × Nat) : (s.setCursor c).cfgLevels = s.cfgLevels := rfl
@[simp] theorem State.setCursor_cfgStep (s : State) (c : Nat × Nat) : (s.setCursor c).cfgStep = s.cfgStep := rfl
@[simp] theorem State.setCursor_curI (s : State) (c : Nat × Nat) : (s.setCursor c).curI = BitVec.ofNat 16 c.1 := rfl
@[simp] theorem State.setCursor_curJ (s : State) (c : Nat × Nat) : (s.setCursor c).curJ = BitVec.ofNat 16 c.2 := rfl
@[simp] theorem State.setCursor_sse (s : State) (c : Nat × Nat) : (s.setCursor c).sse = s.sse := rfl
@[simp] theorem State.setCursor_npix (s : State) (c : Nat × Nat) : (s.setCursor c).npix = s.npix := rfl
@[simp] theorem State.setCursor_mseQ (s : State) (c : Nat × Nat) : (s.setCursor c).mseQ = s.mseQ := rfl
@[simp] theorem State.setCursor_ratioNum (s : State) (c : Nat × Nat) : (s.setCursor c).ratioNum = s.ratioNum := rfl
@[simp] theorem State.setCursor_ratioDen (s : State) (c : Nat × Nat) : (s.setCursor c).ratioDen = s.ratioDen := rfl
@[simp] theorem State.setCursor_ratioBpr (s : State) (c : Nat × Nat) : (s.setCursor c).ratioBpr = s.ratioBpr := rfl
@[simp] theorem State.setCursor_ratioQ (s : State) (c : Nat × Nat) : (s.setCursor c).ratioQ = s.ratioQ := rfl
@[simp] theorem State.setCursor_orig (s : State) (c : Nat × Nat) : (s.setCursor c).orig = s.orig := rfl
@[simp] theorem State.setCursor_resid (s : State) (c : Nat × Nat) : (s.setCursor c).resid = s.resid := rfl
@[simp] theorem State.setCursor_recon (s : State) (c : Nat × Nat) : (s.setCursor c).recon = s.recon := rfl
@[simp] theorem State.setCursor_script (s : State) (c : Nat × Nat) : (s.setCursor c).script = s.script := rfl
@[simp] theorem State.setCursor_readings (s : State) (c : Nat × Nat) : (s.setCursor c).readings = s.readings := rfl

/-! ### accept -/

@[simp] theorem State.accept_status (s : State) (op : BitVec 8) :
    (s.accept op).status = { s.status with lastop := op } := rfl
@[simp] theorem State.accept_modeReq (s : State) (op : BitVec 8) : (s.accept op).modeReq = s.modeReq := rfl
@[simp] theorem State.accept_levelsReq (s : State) (op : BitVec 8) : (s.accept op).levelsReq = s.levelsReq := rfl
@[simp] theorem State.accept_origH (s : State) (op : BitVec 8) : (s.accept op).origH = s.origH := rfl
@[simp] theorem State.accept_origW (s : State) (op : BitVec 8) : (s.accept op).origW = s.origW := rfl
@[simp] theorem State.accept_residH (s : State) (op : BitVec 8) : (s.accept op).residH = s.residH := rfl
@[simp] theorem State.accept_residW (s : State) (op : BitVec 8) : (s.accept op).residW = s.residW := rfl
@[simp] theorem State.accept_reconH (s : State) (op : BitVec 8) : (s.accept op).reconH = s.reconH := rfl
@[simp] theorem State.accept_reconW (s : State) (op : BitVec 8) : (s.accept op).reconW = s.reconW := rfl
@[simp] theorem State.accept_cfgMode (s : State) (op : BitVec 8) : (s.accept op).cfgMode = s.cfgMode := rfl
@[simp] theorem State.accept_cfgLevels (s : State) (op : BitVec 8) : (s.accept op).cfgLevels = s.cfgLevels := rfl
@[simp] theorem State.accept_cfgStep (s : State) (op : BitVec 8) : (s.accept op).cfgStep = s.cfgStep := rfl
@[simp] theorem State.accept_curI (s : State) (op : BitVec 8) : (s.accept op).curI = s.curI := rfl
@[simp] theorem State.accept_curJ (s : State) (op : BitVec 8) : (s.accept op).curJ = s.curJ := rfl
@[simp] theorem State.accept_sse (s : State) (op : BitVec 8) : (s.accept op).sse = s.sse := rfl
@[simp] theorem State.accept_npix (s : State) (op : BitVec 8) : (s.accept op).npix = s.npix := rfl
@[simp] theorem State.accept_mseQ (s : State) (op : BitVec 8) : (s.accept op).mseQ = s.mseQ := rfl
@[simp] theorem State.accept_ratioNum (s : State) (op : BitVec 8) : (s.accept op).ratioNum = s.ratioNum := rfl
@[simp] theorem State.accept_ratioDen (s : State) (op : BitVec 8) : (s.accept op).ratioDen = s.ratioDen := rfl
@[simp] theorem State.accept_ratioBpr (s : State) (op : BitVec 8) : (s.accept op).ratioBpr = s.ratioBpr := rfl
@[simp] theorem State.accept_ratioQ (s : State) (op : BitVec 8) : (s.accept op).ratioQ = s.ratioQ := rfl
@[simp] theorem State.accept_orig (s : State) (op : BitVec 8) : (s.accept op).orig = s.orig := rfl
@[simp] theorem State.accept_resid (s : State) (op : BitVec 8) : (s.accept op).resid = s.resid := rfl
@[simp] theorem State.accept_recon (s : State) (op : BitVec 8) : (s.accept op).recon = s.recon := rfl
@[simp] theorem State.accept_script (s : State) (op : BitVec 8) : (s.accept op).script = s.script := rfl
@[simp] theorem State.accept_readings (s : State) (op : BitVec 8) : (s.accept op).readings = s.readings := rfl

/-! ### startPass -/

@[simp] theorem State.startPass_status (s : State) : (s.startPass).status = { s.status with busy := true } := rfl
@[simp] theorem State.startPass_modeReq (s : State) : (s.startPass).modeReq = s.modeReq := rfl
@[simp] theorem State.startPass_levelsReq (s : State) : (s.startPass).levelsReq = s.levelsReq := rfl
@[simp] theorem State.startPass_origH (s : State) : (s.startPass).origH = s.origH := rfl
@[simp] theorem State.startPass_origW (s : State) : (s.startPass).origW = s.origW := rfl
@[simp] theorem State.startPass_residH (s : State) : (s.startPass).residH = s.residH := rfl
@[simp] theorem State.startPass_residW (s : State) : (s.startPass).residW = s.residW := rfl
@[simp] theorem State.startPass_reconH (s : State) : (s.startPass).reconH = s.reconH := rfl
@[simp] theorem State.startPass_reconW (s : State) : (s.startPass).reconW = s.reconW := rfl
@[simp] theorem State.startPass_cfgMode (s : State) : (s.startPass).cfgMode = s.cfgMode := rfl
@[simp] theorem State.startPass_cfgLevels (s : State) : (s.startPass).cfgLevels = s.cfgLevels := rfl
@[simp] theorem State.startPass_cfgStep (s : State) : (s.startPass).cfgStep = s.cfgStep := rfl
@[simp] theorem State.startPass_curI (s : State) : (s.startPass).curI = 0#16 := rfl
@[simp] theorem State.startPass_curJ (s : State) : (s.startPass).curJ = 0#16 := rfl
@[simp] theorem State.startPass_sse (s : State) : (s.startPass).sse = s.sse := rfl
@[simp] theorem State.startPass_npix (s : State) : (s.startPass).npix = s.npix := rfl
@[simp] theorem State.startPass_mseQ (s : State) : (s.startPass).mseQ = s.mseQ := rfl
@[simp] theorem State.startPass_ratioNum (s : State) : (s.startPass).ratioNum = s.ratioNum := rfl
@[simp] theorem State.startPass_ratioDen (s : State) : (s.startPass).ratioDen = s.ratioDen := rfl
@[simp] theorem State.startPass_ratioBpr (s : State) : (s.startPass).ratioBpr = s.ratioBpr := rfl
@[simp] theorem State.startPass_ratioQ (s : State) : (s.startPass).ratioQ = s.ratioQ := rfl
@[simp] theorem State.startPass_orig (s : State) : (s.startPass).orig = s.orig := rfl
@[simp] theorem State.startPass_resid (s : State) : (s.startPass).resid = s.resid := rfl
@[simp] theorem State.startPass_recon (s : State) : (s.startPass).recon = s.recon := rfl
@[simp] theorem State.startPass_script (s : State) : (s.startPass).script = s.script := rfl
@[simp] theorem State.startPass_readings (s : State) : (s.startPass).readings = s.readings := rfl

/-! ### complete -/

@[simp] theorem State.complete_status (s : State) (c : BitVec 4) :
    (s.complete c).status = { s.status with busy := false, result := c, errs := s.status.errs ||| errBit c } := rfl
@[simp] theorem State.complete_modeReq (s : State) (c : BitVec 4) : (s.complete c).modeReq = s.modeReq := rfl
@[simp] theorem State.complete_levelsReq (s : State) (c : BitVec 4) : (s.complete c).levelsReq = s.levelsReq := rfl
@[simp] theorem State.complete_origH (s : State) (c : BitVec 4) : (s.complete c).origH = s.origH := rfl
@[simp] theorem State.complete_origW (s : State) (c : BitVec 4) : (s.complete c).origW = s.origW := rfl
@[simp] theorem State.complete_residH (s : State) (c : BitVec 4) : (s.complete c).residH = s.residH := rfl
@[simp] theorem State.complete_residW (s : State) (c : BitVec 4) : (s.complete c).residW = s.residW := rfl
@[simp] theorem State.complete_reconH (s : State) (c : BitVec 4) : (s.complete c).reconH = s.reconH := rfl
@[simp] theorem State.complete_reconW (s : State) (c : BitVec 4) : (s.complete c).reconW = s.reconW := rfl
@[simp] theorem State.complete_cfgMode (s : State) (c : BitVec 4) : (s.complete c).cfgMode = s.cfgMode := rfl
@[simp] theorem State.complete_cfgLevels (s : State) (c : BitVec 4) : (s.complete c).cfgLevels = s.cfgLevels := rfl
@[simp] theorem State.complete_cfgStep (s : State) (c : BitVec 4) : (s.complete c).cfgStep = s.cfgStep := rfl
@[simp] theorem State.complete_curI (s : State) (c : BitVec 4) : (s.complete c).curI = s.curI := rfl
@[simp] theorem State.complete_curJ (s : State) (c : BitVec 4) : (s.complete c).curJ = s.curJ := rfl
@[simp] theorem State.complete_sse (s : State) (c : BitVec 4) : (s.complete c).sse = s.sse := rfl
@[simp] theorem State.complete_npix (s : State) (c : BitVec 4) : (s.complete c).npix = s.npix := rfl
@[simp] theorem State.complete_mseQ (s : State) (c : BitVec 4) : (s.complete c).mseQ = s.mseQ := rfl
@[simp] theorem State.complete_ratioNum (s : State) (c : BitVec 4) : (s.complete c).ratioNum = s.ratioNum := rfl
@[simp] theorem State.complete_ratioDen (s : State) (c : BitVec 4) : (s.complete c).ratioDen = s.ratioDen := rfl
@[simp] theorem State.complete_ratioBpr (s : State) (c : BitVec 4) : (s.complete c).ratioBpr = s.ratioBpr := rfl
@[simp] theorem State.complete_ratioQ (s : State) (c : BitVec 4) : (s.complete c).ratioQ = s.ratioQ := rfl
@[simp] theorem State.complete_orig (s : State) (c : BitVec 4) : (s.complete c).orig = s.orig := rfl
@[simp] theorem State.complete_resid (s : State) (c : BitVec 4) : (s.complete c).resid = s.resid := rfl
@[simp] theorem State.complete_recon (s : State) (c : BitVec 4) : (s.complete c).recon = s.recon := rfl
@[simp] theorem State.complete_script (s : State) (c : BitVec 4) : (s.complete c).script = s.script := rfl
@[simp] theorem State.complete_readings (s : State) (c : BitVec 4) : (s.complete c).readings = s.readings := rfl

/-! ### raise -/

@[simp] theorem State.raise_status (s : State) (x : Cause) :
    (s.raise x).status = { s.status with busy := false, result := x.code, errs := s.status.errs ||| errBit x.code } := rfl
@[simp] theorem State.raise_modeReq (s : State) (x : Cause) : (s.raise x).modeReq = s.modeReq := rfl
@[simp] theorem State.raise_levelsReq (s : State) (x : Cause) : (s.raise x).levelsReq = s.levelsReq := rfl
@[simp] theorem State.raise_origH (s : State) (x : Cause) : (s.raise x).origH = s.origH := rfl
@[simp] theorem State.raise_origW (s : State) (x : Cause) : (s.raise x).origW = s.origW := rfl
@[simp] theorem State.raise_residH (s : State) (x : Cause) : (s.raise x).residH = s.residH := rfl
@[simp] theorem State.raise_residW (s : State) (x : Cause) : (s.raise x).residW = s.residW := rfl
@[simp] theorem State.raise_reconH (s : State) (x : Cause) : (s.raise x).reconH = s.reconH := rfl
@[simp] theorem State.raise_reconW (s : State) (x : Cause) : (s.raise x).reconW = s.reconW := rfl
@[simp] theorem State.raise_cfgMode (s : State) (x : Cause) : (s.raise x).cfgMode = s.cfgMode := rfl
@[simp] theorem State.raise_cfgLevels (s : State) (x : Cause) : (s.raise x).cfgLevels = s.cfgLevels := rfl
@[simp] theorem State.raise_cfgStep (s : State) (x : Cause) : (s.raise x).cfgStep = s.cfgStep := rfl
@[simp] theorem State.raise_curI (s : State) (x : Cause) : (s.raise x).curI = s.curI := rfl
@[simp] theorem State.raise_curJ (s : State) (x : Cause) : (s.raise x).curJ = s.curJ := rfl
@[simp] theorem State.raise_sse (s : State) (x : Cause) : (s.raise x).sse = s.sse := rfl
@[simp] theorem State.raise_npix (s : State) (x : Cause) : (s.raise x).npix = s.npix := rfl
@[simp] theorem State.raise_mseQ (s : State) (x : Cause) : (s.raise x).mseQ = s.mseQ := rfl
@[simp] theorem State.raise_ratioNum (s : State) (x : Cause) : (s.raise x).ratioNum = s.ratioNum := rfl
@[simp] theorem State.raise_ratioDen (s : State) (x : Cause) : (s.raise x).ratioDen = s.ratioDen := rfl
@[simp] theorem State.raise_ratioBpr (s : State) (x : Cause) : (s.raise x).ratioBpr = s.ratioBpr := rfl
@[simp] theorem State.raise_ratioQ (s : State) (x : Cause) : (s.raise x).ratioQ = s.ratioQ := rfl
@[simp] theorem State.raise_orig (s : State) (x : Cause) : (s.raise x).orig = s.orig := rfl
@[simp] theorem State.raise_resid (s : State) (x : Cause) : (s.raise x).resid = s.resid := rfl
@[simp] theorem State.raise_recon (s : State) (x : Cause) : (s.raise x).recon = s.recon := rfl
@[simp] theorem State.raise_script (s : State) (x : Cause) : (s.raise x).script = s.script := rfl
@[simp] theorem State.raise_readings (s : State) (x : Cause) : (s.raise x).readings = s.readings := rfl

/-! ### latchConfig -/

@[simp] theorem State.latchConfig_status (s : State) (b : Bool) (m : PredictorMode) (l : BitVec 32) (p : BitVec 9) :
    (s.latchConfig b m l p).status = { s.status with cfgValid := b } := rfl
@[simp] theorem State.latchConfig_modeReq (s : State) (b : Bool) (m : PredictorMode) (l : BitVec 32) (p : BitVec 9) :
    (s.latchConfig b m l p).modeReq = s.modeReq := rfl
@[simp] theorem State.latchConfig_levelsReq (s : State) (b : Bool) (m : PredictorMode) (l : BitVec 32) (p : BitVec 9) :
    (s.latchConfig b m l p).levelsReq = s.levelsReq := rfl
@[simp] theorem State.latchConfig_origH (s : State) (b : Bool) (m : PredictorMode) (l : BitVec 32) (p : BitVec 9) :
    (s.latchConfig b m l p).origH = s.origH := rfl
@[simp] theorem State.latchConfig_origW (s : State) (b : Bool) (m : PredictorMode) (l : BitVec 32) (p : BitVec 9) :
    (s.latchConfig b m l p).origW = s.origW := rfl
@[simp] theorem State.latchConfig_residH (s : State) (b : Bool) (m : PredictorMode) (l : BitVec 32) (p : BitVec 9) :
    (s.latchConfig b m l p).residH = s.residH := rfl
@[simp] theorem State.latchConfig_residW (s : State) (b : Bool) (m : PredictorMode) (l : BitVec 32) (p : BitVec 9) :
    (s.latchConfig b m l p).residW = s.residW := rfl
@[simp] theorem State.latchConfig_reconH (s : State) (b : Bool) (m : PredictorMode) (l : BitVec 32) (p : BitVec 9) :
    (s.latchConfig b m l p).reconH = s.reconH := rfl
@[simp] theorem State.latchConfig_reconW (s : State) (b : Bool) (m : PredictorMode) (l : BitVec 32) (p : BitVec 9) :
    (s.latchConfig b m l p).reconW = s.reconW := rfl
@[simp] theorem State.latchConfig_cfgMode (s : State) (b : Bool) (m : PredictorMode) (l : BitVec 32) (p : BitVec 9) :
    (s.latchConfig b m l p).cfgMode = m := rfl
@[simp] theorem State.latchConfig_cfgLevels (s : State) (b : Bool) (m : PredictorMode) (l : BitVec 32) (p : BitVec 9) :
    (s.latchConfig b m l p).cfgLevels = l := rfl
@[simp] theorem State.latchConfig_cfgStep (s : State) (b : Bool) (m : PredictorMode) (l : BitVec 32) (p : BitVec 9) :
    (s.latchConfig b m l p).cfgStep = p := rfl
@[simp] theorem State.latchConfig_curI (s : State) (b : Bool) (m : PredictorMode) (l : BitVec 32) (p : BitVec 9) :
    (s.latchConfig b m l p).curI = s.curI := rfl
@[simp] theorem State.latchConfig_curJ (s : State) (b : Bool) (m : PredictorMode) (l : BitVec 32) (p : BitVec 9) :
    (s.latchConfig b m l p).curJ = s.curJ := rfl
@[simp] theorem State.latchConfig_sse (s : State) (b : Bool) (m : PredictorMode) (l : BitVec 32) (p : BitVec 9) :
    (s.latchConfig b m l p).sse = s.sse := rfl
@[simp] theorem State.latchConfig_npix (s : State) (b : Bool) (m : PredictorMode) (l : BitVec 32) (p : BitVec 9) :
    (s.latchConfig b m l p).npix = s.npix := rfl
@[simp] theorem State.latchConfig_mseQ (s : State) (b : Bool) (m : PredictorMode) (l : BitVec 32) (p : BitVec 9) :
    (s.latchConfig b m l p).mseQ = s.mseQ := rfl
@[simp] theorem State.latchConfig_ratioNum (s : State) (b : Bool) (m : PredictorMode) (l : BitVec 32) (p : BitVec 9) :
    (s.latchConfig b m l p).ratioNum = s.ratioNum := rfl
@[simp] theorem State.latchConfig_ratioDen (s : State) (b : Bool) (m : PredictorMode) (l : BitVec 32) (p : BitVec 9) :
    (s.latchConfig b m l p).ratioDen = s.ratioDen := rfl
@[simp] theorem State.latchConfig_ratioBpr (s : State) (b : Bool) (m : PredictorMode) (l : BitVec 32) (p : BitVec 9) :
    (s.latchConfig b m l p).ratioBpr = s.ratioBpr := rfl
@[simp] theorem State.latchConfig_ratioQ (s : State) (b : Bool) (m : PredictorMode) (l : BitVec 32) (p : BitVec 9) :
    (s.latchConfig b m l p).ratioQ = s.ratioQ := rfl
@[simp] theorem State.latchConfig_orig (s : State) (b : Bool) (m : PredictorMode) (l : BitVec 32) (p : BitVec 9) :
    (s.latchConfig b m l p).orig = s.orig := rfl
@[simp] theorem State.latchConfig_resid (s : State) (b : Bool) (m : PredictorMode) (l : BitVec 32) (p : BitVec 9) :
    (s.latchConfig b m l p).resid = s.resid := rfl
@[simp] theorem State.latchConfig_recon (s : State) (b : Bool) (m : PredictorMode) (l : BitVec 32) (p : BitVec 9) :
    (s.latchConfig b m l p).recon = s.recon := rfl
@[simp] theorem State.latchConfig_script (s : State) (b : Bool) (m : PredictorMode) (l : BitVec 32) (p : BitVec 9) :
    (s.latchConfig b m l p).script = s.script := rfl
@[simp] theorem State.latchConfig_readings (s : State) (b : Bool) (m : PredictorMode) (l : BitVec 32) (p : BitVec 9) :
    (s.latchConfig b m l p).readings = s.readings := rfl

/-! ### clearMseValid -/

@[simp] theorem State.clearMseValid_status (s : State) :
    (s.clearMseValid).status = { s.status with mseValid := false } := rfl
@[simp] theorem State.clearMseValid_modeReq (s : State) : (s.clearMseValid).modeReq = s.modeReq := rfl
@[simp] theorem State.clearMseValid_levelsReq (s : State) : (s.clearMseValid).levelsReq = s.levelsReq := rfl
@[simp] theorem State.clearMseValid_origH (s : State) : (s.clearMseValid).origH = s.origH := rfl
@[simp] theorem State.clearMseValid_origW (s : State) : (s.clearMseValid).origW = s.origW := rfl
@[simp] theorem State.clearMseValid_residH (s : State) : (s.clearMseValid).residH = s.residH := rfl
@[simp] theorem State.clearMseValid_residW (s : State) : (s.clearMseValid).residW = s.residW := rfl
@[simp] theorem State.clearMseValid_reconH (s : State) : (s.clearMseValid).reconH = s.reconH := rfl
@[simp] theorem State.clearMseValid_reconW (s : State) : (s.clearMseValid).reconW = s.reconW := rfl
@[simp] theorem State.clearMseValid_cfgMode (s : State) : (s.clearMseValid).cfgMode = s.cfgMode := rfl
@[simp] theorem State.clearMseValid_cfgLevels (s : State) : (s.clearMseValid).cfgLevels = s.cfgLevels := rfl
@[simp] theorem State.clearMseValid_cfgStep (s : State) : (s.clearMseValid).cfgStep = s.cfgStep := rfl
@[simp] theorem State.clearMseValid_curI (s : State) : (s.clearMseValid).curI = s.curI := rfl
@[simp] theorem State.clearMseValid_curJ (s : State) : (s.clearMseValid).curJ = s.curJ := rfl
@[simp] theorem State.clearMseValid_sse (s : State) : (s.clearMseValid).sse = s.sse := rfl
@[simp] theorem State.clearMseValid_npix (s : State) : (s.clearMseValid).npix = s.npix := rfl
@[simp] theorem State.clearMseValid_mseQ (s : State) : (s.clearMseValid).mseQ = s.mseQ := rfl
@[simp] theorem State.clearMseValid_ratioNum (s : State) : (s.clearMseValid).ratioNum = s.ratioNum := rfl
@[simp] theorem State.clearMseValid_ratioDen (s : State) : (s.clearMseValid).ratioDen = s.ratioDen := rfl
@[simp] theorem State.clearMseValid_ratioBpr (s : State) : (s.clearMseValid).ratioBpr = s.ratioBpr := rfl
@[simp] theorem State.clearMseValid_ratioQ (s : State) : (s.clearMseValid).ratioQ = s.ratioQ := rfl
@[simp] theorem State.clearMseValid_orig (s : State) : (s.clearMseValid).orig = s.orig := rfl
@[simp] theorem State.clearMseValid_resid (s : State) : (s.clearMseValid).resid = s.resid := rfl
@[simp] theorem State.clearMseValid_recon (s : State) : (s.clearMseValid).recon = s.recon := rfl
@[simp] theorem State.clearMseValid_script (s : State) : (s.clearMseValid).script = s.script := rfl
@[simp] theorem State.clearMseValid_readings (s : State) : (s.clearMseValid).readings = s.readings := rfl

/-! ### clearRatioFlags -/

@[simp] theorem State.clearRatioFlags_status (s : State) :
    (s.clearRatioFlags).status = { s.status with ratioValid := false, ratioDiv0 := false } := rfl
@[simp] theorem State.clearRatioFlags_modeReq (s : State) : (s.clearRatioFlags).modeReq = s.modeReq := rfl
@[simp] theorem State.clearRatioFlags_levelsReq (s : State) : (s.clearRatioFlags).levelsReq = s.levelsReq := rfl
@[simp] theorem State.clearRatioFlags_origH (s : State) : (s.clearRatioFlags).origH = s.origH := rfl
@[simp] theorem State.clearRatioFlags_origW (s : State) : (s.clearRatioFlags).origW = s.origW := rfl
@[simp] theorem State.clearRatioFlags_residH (s : State) : (s.clearRatioFlags).residH = s.residH := rfl
@[simp] theorem State.clearRatioFlags_residW (s : State) : (s.clearRatioFlags).residW = s.residW := rfl
@[simp] theorem State.clearRatioFlags_reconH (s : State) : (s.clearRatioFlags).reconH = s.reconH := rfl
@[simp] theorem State.clearRatioFlags_reconW (s : State) : (s.clearRatioFlags).reconW = s.reconW := rfl
@[simp] theorem State.clearRatioFlags_cfgMode (s : State) : (s.clearRatioFlags).cfgMode = s.cfgMode := rfl
@[simp] theorem State.clearRatioFlags_cfgLevels (s : State) : (s.clearRatioFlags).cfgLevels = s.cfgLevels := rfl
@[simp] theorem State.clearRatioFlags_cfgStep (s : State) : (s.clearRatioFlags).cfgStep = s.cfgStep := rfl
@[simp] theorem State.clearRatioFlags_curI (s : State) : (s.clearRatioFlags).curI = s.curI := rfl
@[simp] theorem State.clearRatioFlags_curJ (s : State) : (s.clearRatioFlags).curJ = s.curJ := rfl
@[simp] theorem State.clearRatioFlags_sse (s : State) : (s.clearRatioFlags).sse = s.sse := rfl
@[simp] theorem State.clearRatioFlags_npix (s : State) : (s.clearRatioFlags).npix = s.npix := rfl
@[simp] theorem State.clearRatioFlags_mseQ (s : State) : (s.clearRatioFlags).mseQ = s.mseQ := rfl
@[simp] theorem State.clearRatioFlags_ratioNum (s : State) : (s.clearRatioFlags).ratioNum = s.ratioNum := rfl
@[simp] theorem State.clearRatioFlags_ratioDen (s : State) : (s.clearRatioFlags).ratioDen = s.ratioDen := rfl
@[simp] theorem State.clearRatioFlags_ratioBpr (s : State) : (s.clearRatioFlags).ratioBpr = s.ratioBpr := rfl
@[simp] theorem State.clearRatioFlags_ratioQ (s : State) : (s.clearRatioFlags).ratioQ = s.ratioQ := rfl
@[simp] theorem State.clearRatioFlags_orig (s : State) : (s.clearRatioFlags).orig = s.orig := rfl
@[simp] theorem State.clearRatioFlags_resid (s : State) : (s.clearRatioFlags).resid = s.resid := rfl
@[simp] theorem State.clearRatioFlags_recon (s : State) : (s.clearRatioFlags).recon = s.recon := rfl
@[simp] theorem State.clearRatioFlags_script (s : State) : (s.clearRatioFlags).script = s.script := rfl
@[simp] theorem State.clearRatioFlags_readings (s : State) : (s.clearRatioFlags).readings = s.readings := rfl

/-! ### clearErrs -/

@[simp] theorem State.clearErrs_status (s : State) : (s.clearErrs).status = { s.status with errs := 0#4 } := rfl
@[simp] theorem State.clearErrs_modeReq (s : State) : (s.clearErrs).modeReq = s.modeReq := rfl
@[simp] theorem State.clearErrs_levelsReq (s : State) : (s.clearErrs).levelsReq = s.levelsReq := rfl
@[simp] theorem State.clearErrs_origH (s : State) : (s.clearErrs).origH = s.origH := rfl
@[simp] theorem State.clearErrs_origW (s : State) : (s.clearErrs).origW = s.origW := rfl
@[simp] theorem State.clearErrs_residH (s : State) : (s.clearErrs).residH = s.residH := rfl
@[simp] theorem State.clearErrs_residW (s : State) : (s.clearErrs).residW = s.residW := rfl
@[simp] theorem State.clearErrs_reconH (s : State) : (s.clearErrs).reconH = s.reconH := rfl
@[simp] theorem State.clearErrs_reconW (s : State) : (s.clearErrs).reconW = s.reconW := rfl
@[simp] theorem State.clearErrs_cfgMode (s : State) : (s.clearErrs).cfgMode = s.cfgMode := rfl
@[simp] theorem State.clearErrs_cfgLevels (s : State) : (s.clearErrs).cfgLevels = s.cfgLevels := rfl
@[simp] theorem State.clearErrs_cfgStep (s : State) : (s.clearErrs).cfgStep = s.cfgStep := rfl
@[simp] theorem State.clearErrs_curI (s : State) : (s.clearErrs).curI = s.curI := rfl
@[simp] theorem State.clearErrs_curJ (s : State) : (s.clearErrs).curJ = s.curJ := rfl
@[simp] theorem State.clearErrs_sse (s : State) : (s.clearErrs).sse = s.sse := rfl
@[simp] theorem State.clearErrs_npix (s : State) : (s.clearErrs).npix = s.npix := rfl
@[simp] theorem State.clearErrs_mseQ (s : State) : (s.clearErrs).mseQ = s.mseQ := rfl
@[simp] theorem State.clearErrs_ratioNum (s : State) : (s.clearErrs).ratioNum = s.ratioNum := rfl
@[simp] theorem State.clearErrs_ratioDen (s : State) : (s.clearErrs).ratioDen = s.ratioDen := rfl
@[simp] theorem State.clearErrs_ratioBpr (s : State) : (s.clearErrs).ratioBpr = s.ratioBpr := rfl
@[simp] theorem State.clearErrs_ratioQ (s : State) : (s.clearErrs).ratioQ = s.ratioQ := rfl
@[simp] theorem State.clearErrs_orig (s : State) : (s.clearErrs).orig = s.orig := rfl
@[simp] theorem State.clearErrs_resid (s : State) : (s.clearErrs).resid = s.resid := rfl
@[simp] theorem State.clearErrs_recon (s : State) : (s.clearErrs).recon = s.recon := rfl
@[simp] theorem State.clearErrs_script (s : State) : (s.clearErrs).script = s.script := rfl
@[simp] theorem State.clearErrs_readings (s : State) : (s.clearErrs).readings = s.readings := rfl

/-! ### encFinish -/

@[simp] theorem State.encFinish_status (s : State) :
    (s.encFinish).status = { s.status with busy := false, result := 0#4, errs := s.status.errs ||| errBit 0#4 } := rfl
@[simp] theorem State.encFinish_modeReq (s : State) : (s.encFinish).modeReq = s.modeReq := rfl
@[simp] theorem State.encFinish_levelsReq (s : State) : (s.encFinish).levelsReq = s.levelsReq := rfl
@[simp] theorem State.encFinish_origH (s : State) : (s.encFinish).origH = s.origH := rfl
@[simp] theorem State.encFinish_origW (s : State) : (s.encFinish).origW = s.origW := rfl
@[simp] theorem State.encFinish_residH (s : State) : (s.encFinish).residH = s.origH := rfl
@[simp] theorem State.encFinish_residW (s : State) : (s.encFinish).residW = s.origW := rfl
@[simp] theorem State.encFinish_reconH (s : State) : (s.encFinish).reconH = s.reconH := rfl
@[simp] theorem State.encFinish_reconW (s : State) : (s.encFinish).reconW = s.reconW := rfl
@[simp] theorem State.encFinish_cfgMode (s : State) : (s.encFinish).cfgMode = s.cfgMode := rfl
@[simp] theorem State.encFinish_cfgLevels (s : State) : (s.encFinish).cfgLevels = s.cfgLevels := rfl
@[simp] theorem State.encFinish_cfgStep (s : State) : (s.encFinish).cfgStep = s.cfgStep := rfl
@[simp] theorem State.encFinish_curI (s : State) : (s.encFinish).curI = s.curI := rfl
@[simp] theorem State.encFinish_curJ (s : State) : (s.encFinish).curJ = s.curJ := rfl
@[simp] theorem State.encFinish_sse (s : State) : (s.encFinish).sse = s.sse := rfl
@[simp] theorem State.encFinish_npix (s : State) : (s.encFinish).npix = s.npix := rfl
@[simp] theorem State.encFinish_mseQ (s : State) : (s.encFinish).mseQ = s.mseQ := rfl
@[simp] theorem State.encFinish_ratioNum (s : State) : (s.encFinish).ratioNum = s.ratioNum := rfl
@[simp] theorem State.encFinish_ratioDen (s : State) : (s.encFinish).ratioDen = s.ratioDen := rfl
@[simp] theorem State.encFinish_ratioBpr (s : State) : (s.encFinish).ratioBpr = s.ratioBpr := rfl
@[simp] theorem State.encFinish_ratioQ (s : State) : (s.encFinish).ratioQ = s.ratioQ := rfl
@[simp] theorem State.encFinish_orig (s : State) : (s.encFinish).orig = s.orig := rfl
@[simp] theorem State.encFinish_resid (s : State) : (s.encFinish).resid = s.resid := rfl
@[simp] theorem State.encFinish_recon (s : State) : (s.encFinish).recon = s.recon := rfl
@[simp] theorem State.encFinish_script (s : State) : (s.encFinish).script = s.script := rfl
@[simp] theorem State.encFinish_readings (s : State) : (s.encFinish).readings = s.readings := rfl

/-! ### decFinish -/

@[simp] theorem State.decFinish_status (s : State) :
    (s.decFinish).status = { s.status with busy := false, result := 0#4, errs := s.status.errs ||| errBit 0#4 } := rfl
@[simp] theorem State.decFinish_modeReq (s : State) : (s.decFinish).modeReq = s.modeReq := rfl
@[simp] theorem State.decFinish_levelsReq (s : State) : (s.decFinish).levelsReq = s.levelsReq := rfl
@[simp] theorem State.decFinish_origH (s : State) : (s.decFinish).origH = s.origH := rfl
@[simp] theorem State.decFinish_origW (s : State) : (s.decFinish).origW = s.origW := rfl
@[simp] theorem State.decFinish_residH (s : State) : (s.decFinish).residH = s.residH := rfl
@[simp] theorem State.decFinish_residW (s : State) : (s.decFinish).residW = s.residW := rfl
@[simp] theorem State.decFinish_reconH (s : State) : (s.decFinish).reconH = s.residH := rfl
@[simp] theorem State.decFinish_reconW (s : State) : (s.decFinish).reconW = s.residW := rfl
@[simp] theorem State.decFinish_cfgMode (s : State) : (s.decFinish).cfgMode = s.cfgMode := rfl
@[simp] theorem State.decFinish_cfgLevels (s : State) : (s.decFinish).cfgLevels = s.cfgLevels := rfl
@[simp] theorem State.decFinish_cfgStep (s : State) : (s.decFinish).cfgStep = s.cfgStep := rfl
@[simp] theorem State.decFinish_curI (s : State) : (s.decFinish).curI = s.curI := rfl
@[simp] theorem State.decFinish_curJ (s : State) : (s.decFinish).curJ = s.curJ := rfl
@[simp] theorem State.decFinish_sse (s : State) : (s.decFinish).sse = s.sse := rfl
@[simp] theorem State.decFinish_npix (s : State) : (s.decFinish).npix = s.npix := rfl
@[simp] theorem State.decFinish_mseQ (s : State) : (s.decFinish).mseQ = s.mseQ := rfl
@[simp] theorem State.decFinish_ratioNum (s : State) : (s.decFinish).ratioNum = s.ratioNum := rfl
@[simp] theorem State.decFinish_ratioDen (s : State) : (s.decFinish).ratioDen = s.ratioDen := rfl
@[simp] theorem State.decFinish_ratioBpr (s : State) : (s.decFinish).ratioBpr = s.ratioBpr := rfl
@[simp] theorem State.decFinish_ratioQ (s : State) : (s.decFinish).ratioQ = s.ratioQ := rfl
@[simp] theorem State.decFinish_orig (s : State) : (s.decFinish).orig = s.orig := rfl
@[simp] theorem State.decFinish_resid (s : State) : (s.decFinish).resid = s.resid := rfl
@[simp] theorem State.decFinish_recon (s : State) : (s.decFinish).recon = s.recon := rfl
@[simp] theorem State.decFinish_script (s : State) : (s.decFinish).script = s.script := rfl
@[simp] theorem State.decFinish_readings (s : State) : (s.decFinish).readings = s.readings := rfl

/-! ### mseFinish -/

@[simp] theorem State.mseFinish_status (s : State) :
    (s.mseFinish).status = { s.status with busy := false, mseValid := true, result := 0#4, errs := s.status.errs ||| errBit 0#4 } := rfl
@[simp] theorem State.mseFinish_modeReq (s : State) : (s.mseFinish).modeReq = s.modeReq := rfl
@[simp] theorem State.mseFinish_levelsReq (s : State) : (s.mseFinish).levelsReq = s.levelsReq := rfl
@[simp] theorem State.mseFinish_origH (s : State) : (s.mseFinish).origH = s.origH := rfl
@[simp] theorem State.mseFinish_origW (s : State) : (s.mseFinish).origW = s.origW := rfl
@[simp] theorem State.mseFinish_residH (s : State) : (s.mseFinish).residH = s.residH := rfl
@[simp] theorem State.mseFinish_residW (s : State) : (s.mseFinish).residW = s.residW := rfl
@[simp] theorem State.mseFinish_reconH (s : State) : (s.mseFinish).reconH = s.reconH := rfl
@[simp] theorem State.mseFinish_reconW (s : State) : (s.mseFinish).reconW = s.reconW := rfl
@[simp] theorem State.mseFinish_cfgMode (s : State) : (s.mseFinish).cfgMode = s.cfgMode := rfl
@[simp] theorem State.mseFinish_cfgLevels (s : State) : (s.mseFinish).cfgLevels = s.cfgLevels := rfl
@[simp] theorem State.mseFinish_cfgStep (s : State) : (s.mseFinish).cfgStep = s.cfgStep := rfl
@[simp] theorem State.mseFinish_curI (s : State) : (s.mseFinish).curI = s.curI := rfl
@[simp] theorem State.mseFinish_curJ (s : State) : (s.mseFinish).curJ = s.curJ := rfl
@[simp] theorem State.mseFinish_sse (s : State) : (s.mseFinish).sse = s.sse := rfl
@[simp] theorem State.mseFinish_npix (s : State) :
    (s.mseFinish).npix = BitVec.ofNat 32 (s.origH.toNat * s.origW.toNat) := rfl
@[simp] theorem State.mseFinish_mseQ (s : State) :
    (s.mseFinish).mseQ = fquot s.sse.toNat (s.origH.toNat * s.origW.toNat) := rfl
@[simp] theorem State.mseFinish_ratioNum (s : State) : (s.mseFinish).ratioNum = s.ratioNum := rfl
@[simp] theorem State.mseFinish_ratioDen (s : State) : (s.mseFinish).ratioDen = s.ratioDen := rfl
@[simp] theorem State.mseFinish_ratioBpr (s : State) : (s.mseFinish).ratioBpr = s.ratioBpr := rfl
@[simp] theorem State.mseFinish_ratioQ (s : State) : (s.mseFinish).ratioQ = s.ratioQ := rfl
@[simp] theorem State.mseFinish_orig (s : State) : (s.mseFinish).orig = s.orig := rfl
@[simp] theorem State.mseFinish_resid (s : State) : (s.mseFinish).resid = s.resid := rfl
@[simp] theorem State.mseFinish_recon (s : State) : (s.mseFinish).recon = s.recon := rfl
@[simp] theorem State.mseFinish_script (s : State) : (s.mseFinish).script = s.script := rfl
@[simp] theorem State.mseFinish_readings (s : State) : (s.mseFinish).readings = s.readings := rfl

/-! ### record -/

@[simp] theorem State.record_status (s : State) (v : HostValue) (b : Bool) : (s.record v b).status = s.status := rfl
@[simp] theorem State.record_modeReq (s : State) (v : HostValue) (b : Bool) : (s.record v b).modeReq = s.modeReq := rfl
@[simp] theorem State.record_levelsReq (s : State) (v : HostValue) (b : Bool) :
    (s.record v b).levelsReq = s.levelsReq := rfl
@[simp] theorem State.record_origH (s : State) (v : HostValue) (b : Bool) : (s.record v b).origH = s.origH := rfl
@[simp] theorem State.record_origW (s : State) (v : HostValue) (b : Bool) : (s.record v b).origW = s.origW := rfl
@[simp] theorem State.record_residH (s : State) (v : HostValue) (b : Bool) : (s.record v b).residH = s.residH := rfl
@[simp] theorem State.record_residW (s : State) (v : HostValue) (b : Bool) : (s.record v b).residW = s.residW := rfl
@[simp] theorem State.record_reconH (s : State) (v : HostValue) (b : Bool) : (s.record v b).reconH = s.reconH := rfl
@[simp] theorem State.record_reconW (s : State) (v : HostValue) (b : Bool) : (s.record v b).reconW = s.reconW := rfl
@[simp] theorem State.record_cfgMode (s : State) (v : HostValue) (b : Bool) : (s.record v b).cfgMode = s.cfgMode := rfl
@[simp] theorem State.record_cfgLevels (s : State) (v : HostValue) (b : Bool) :
    (s.record v b).cfgLevels = s.cfgLevels := rfl
@[simp] theorem State.record_cfgStep (s : State) (v : HostValue) (b : Bool) : (s.record v b).cfgStep = s.cfgStep := rfl
@[simp] theorem State.record_curI (s : State) (v : HostValue) (b : Bool) : (s.record v b).curI = s.curI := rfl
@[simp] theorem State.record_curJ (s : State) (v : HostValue) (b : Bool) : (s.record v b).curJ = s.curJ := rfl
@[simp] theorem State.record_sse (s : State) (v : HostValue) (b : Bool) : (s.record v b).sse = s.sse := rfl
@[simp] theorem State.record_npix (s : State) (v : HostValue) (b : Bool) : (s.record v b).npix = s.npix := rfl
@[simp] theorem State.record_mseQ (s : State) (v : HostValue) (b : Bool) : (s.record v b).mseQ = s.mseQ := rfl
@[simp] theorem State.record_ratioNum (s : State) (v : HostValue) (b : Bool) :
    (s.record v b).ratioNum = s.ratioNum := rfl
@[simp] theorem State.record_ratioDen (s : State) (v : HostValue) (b : Bool) :
    (s.record v b).ratioDen = s.ratioDen := rfl
@[simp] theorem State.record_ratioBpr (s : State) (v : HostValue) (b : Bool) :
    (s.record v b).ratioBpr = s.ratioBpr := rfl
@[simp] theorem State.record_ratioQ (s : State) (v : HostValue) (b : Bool) : (s.record v b).ratioQ = s.ratioQ := rfl
@[simp] theorem State.record_orig (s : State) (v : HostValue) (b : Bool) : (s.record v b).orig = s.orig := rfl
@[simp] theorem State.record_resid (s : State) (v : HostValue) (b : Bool) : (s.record v b).resid = s.resid := rfl
@[simp] theorem State.record_recon (s : State) (v : HostValue) (b : Bool) : (s.record v b).recon = s.recon := rfl
@[simp] theorem State.record_script (s : State) (v : HostValue) (b : Bool) : (s.record v b).script = s.script := rfl
@[simp] theorem State.record_readings (s : State) (v : HostValue) (b : Bool) :
    (s.record v b).readings = ⟨v, b⟩ :: s.readings := rfl

/-! ### withCommand -/

@[simp] theorem State.withCommand_status (s : State) (w : CommandWord) :
    (s.withCommand w).status = { s.status with busy := false } := rfl
@[simp] theorem State.withCommand_modeReq (s : State) (w : CommandWord) : (s.withCommand w).modeReq = s.modeReq := rfl
@[simp] theorem State.withCommand_levelsReq (s : State) (w : CommandWord) :
    (s.withCommand w).levelsReq = s.levelsReq := rfl
@[simp] theorem State.withCommand_origH (s : State) (w : CommandWord) : (s.withCommand w).origH = s.origH := rfl
@[simp] theorem State.withCommand_origW (s : State) (w : CommandWord) : (s.withCommand w).origW = s.origW := rfl
@[simp] theorem State.withCommand_residH (s : State) (w : CommandWord) : (s.withCommand w).residH = s.residH := rfl
@[simp] theorem State.withCommand_residW (s : State) (w : CommandWord) : (s.withCommand w).residW = s.residW := rfl
@[simp] theorem State.withCommand_reconH (s : State) (w : CommandWord) : (s.withCommand w).reconH = s.reconH := rfl
@[simp] theorem State.withCommand_reconW (s : State) (w : CommandWord) : (s.withCommand w).reconW = s.reconW := rfl
@[simp] theorem State.withCommand_cfgMode (s : State) (w : CommandWord) : (s.withCommand w).cfgMode = s.cfgMode := rfl
@[simp] theorem State.withCommand_cfgLevels (s : State) (w : CommandWord) :
    (s.withCommand w).cfgLevels = s.cfgLevels := rfl
@[simp] theorem State.withCommand_cfgStep (s : State) (w : CommandWord) : (s.withCommand w).cfgStep = s.cfgStep := rfl
@[simp] theorem State.withCommand_curI (s : State) (w : CommandWord) : (s.withCommand w).curI = s.curI := rfl
@[simp] theorem State.withCommand_curJ (s : State) (w : CommandWord) : (s.withCommand w).curJ = s.curJ := rfl
@[simp] theorem State.withCommand_sse (s : State) (w : CommandWord) : (s.withCommand w).sse = s.sse := rfl
@[simp] theorem State.withCommand_npix (s : State) (w : CommandWord) : (s.withCommand w).npix = s.npix := rfl
@[simp] theorem State.withCommand_mseQ (s : State) (w : CommandWord) : (s.withCommand w).mseQ = s.mseQ := rfl
@[simp] theorem State.withCommand_ratioNum (s : State) (w : CommandWord) :
    (s.withCommand w).ratioNum = s.ratioNum := rfl
@[simp] theorem State.withCommand_ratioDen (s : State) (w : CommandWord) :
    (s.withCommand w).ratioDen = s.ratioDen := rfl
@[simp] theorem State.withCommand_ratioBpr (s : State) (w : CommandWord) :
    (s.withCommand w).ratioBpr = s.ratioBpr := rfl
@[simp] theorem State.withCommand_ratioQ (s : State) (w : CommandWord) : (s.withCommand w).ratioQ = s.ratioQ := rfl
@[simp] theorem State.withCommand_orig (s : State) (w : CommandWord) : (s.withCommand w).orig = s.orig := rfl
@[simp] theorem State.withCommand_resid (s : State) (w : CommandWord) : (s.withCommand w).resid = s.resid := rfl
@[simp] theorem State.withCommand_recon (s : State) (w : CommandWord) : (s.withCommand w).recon = s.recon := rfl
@[simp] theorem State.withCommand_script (s : State) (w : CommandWord) :
    (s.withCommand w).script = commandEvent w :: s.script := rfl
@[simp] theorem State.withCommand_readings (s : State) (w : CommandWord) :
    (s.withCommand w).readings = s.readings := rfl

/-! ### encWrite -/

@[simp] theorem State.encWrite_status (s : State) : (s.encWrite).status = s.status := rfl
@[simp] theorem State.encWrite_modeReq (s : State) : (s.encWrite).modeReq = s.modeReq := rfl
@[simp] theorem State.encWrite_levelsReq (s : State) : (s.encWrite).levelsReq = s.levelsReq := rfl
@[simp] theorem State.encWrite_origH (s : State) : (s.encWrite).origH = s.origH := rfl
@[simp] theorem State.encWrite_origW (s : State) : (s.encWrite).origW = s.origW := rfl
@[simp] theorem State.encWrite_residH (s : State) : (s.encWrite).residH = s.residH := rfl
@[simp] theorem State.encWrite_residW (s : State) : (s.encWrite).residW = s.residW := rfl
@[simp] theorem State.encWrite_reconH (s : State) : (s.encWrite).reconH = s.reconH := rfl
@[simp] theorem State.encWrite_reconW (s : State) : (s.encWrite).reconW = s.reconW := rfl
@[simp] theorem State.encWrite_cfgMode (s : State) : (s.encWrite).cfgMode = s.cfgMode := rfl
@[simp] theorem State.encWrite_cfgLevels (s : State) : (s.encWrite).cfgLevels = s.cfgLevels := rfl
@[simp] theorem State.encWrite_cfgStep (s : State) : (s.encWrite).cfgStep = s.cfgStep := rfl
@[simp] theorem State.encWrite_curI (s : State) : (s.encWrite).curI = s.curI := rfl
@[simp] theorem State.encWrite_curJ (s : State) : (s.encWrite).curJ = s.curJ := rfl
@[simp] theorem State.encWrite_sse (s : State) : (s.encWrite).sse = s.sse := rfl
@[simp] theorem State.encWrite_npix (s : State) : (s.encWrite).npix = s.npix := rfl
@[simp] theorem State.encWrite_mseQ (s : State) : (s.encWrite).mseQ = s.mseQ := rfl
@[simp] theorem State.encWrite_ratioNum (s : State) : (s.encWrite).ratioNum = s.ratioNum := rfl
@[simp] theorem State.encWrite_ratioDen (s : State) : (s.encWrite).ratioDen = s.ratioDen := rfl
@[simp] theorem State.encWrite_ratioBpr (s : State) : (s.encWrite).ratioBpr = s.ratioBpr := rfl
@[simp] theorem State.encWrite_ratioQ (s : State) : (s.encWrite).ratioQ = s.ratioQ := rfl
@[simp] theorem State.encWrite_orig (s : State) : (s.encWrite).orig = s.orig := rfl
@[simp] theorem State.encWrite_resid (s : State) :
    (s.encWrite).resid = s.resid.store (addr s.curI.toNat s.curJ.toNat s.origW.toNat)
      (BitVec.ofInt 16 (s.encResidual s.curI.toNat s.curJ.toNat)) := rfl
@[simp] theorem State.encWrite_recon (s : State) : (s.encWrite).recon = s.recon := rfl
@[simp] theorem State.encWrite_script (s : State) : (s.encWrite).script = s.script := rfl
@[simp] theorem State.encWrite_readings (s : State) : (s.encWrite).readings = s.readings := rfl

/-! ### decWrite -/

@[simp] theorem State.decWrite_status (s : State) : (s.decWrite).status = s.status := rfl
@[simp] theorem State.decWrite_modeReq (s : State) : (s.decWrite).modeReq = s.modeReq := rfl
@[simp] theorem State.decWrite_levelsReq (s : State) : (s.decWrite).levelsReq = s.levelsReq := rfl
@[simp] theorem State.decWrite_origH (s : State) : (s.decWrite).origH = s.origH := rfl
@[simp] theorem State.decWrite_origW (s : State) : (s.decWrite).origW = s.origW := rfl
@[simp] theorem State.decWrite_residH (s : State) : (s.decWrite).residH = s.residH := rfl
@[simp] theorem State.decWrite_residW (s : State) : (s.decWrite).residW = s.residW := rfl
@[simp] theorem State.decWrite_reconH (s : State) : (s.decWrite).reconH = s.reconH := rfl
@[simp] theorem State.decWrite_reconW (s : State) : (s.decWrite).reconW = s.reconW := rfl
@[simp] theorem State.decWrite_cfgMode (s : State) : (s.decWrite).cfgMode = s.cfgMode := rfl
@[simp] theorem State.decWrite_cfgLevels (s : State) : (s.decWrite).cfgLevels = s.cfgLevels := rfl
@[simp] theorem State.decWrite_cfgStep (s : State) : (s.decWrite).cfgStep = s.cfgStep := rfl
@[simp] theorem State.decWrite_curI (s : State) : (s.decWrite).curI = s.curI := rfl
@[simp] theorem State.decWrite_curJ (s : State) : (s.decWrite).curJ = s.curJ := rfl
@[simp] theorem State.decWrite_sse (s : State) : (s.decWrite).sse = s.sse := rfl
@[simp] theorem State.decWrite_npix (s : State) : (s.decWrite).npix = s.npix := rfl
@[simp] theorem State.decWrite_mseQ (s : State) : (s.decWrite).mseQ = s.mseQ := rfl
@[simp] theorem State.decWrite_ratioNum (s : State) : (s.decWrite).ratioNum = s.ratioNum := rfl
@[simp] theorem State.decWrite_ratioDen (s : State) : (s.decWrite).ratioDen = s.ratioDen := rfl
@[simp] theorem State.decWrite_ratioBpr (s : State) : (s.decWrite).ratioBpr = s.ratioBpr := rfl
@[simp] theorem State.decWrite_ratioQ (s : State) : (s.decWrite).ratioQ = s.ratioQ := rfl
@[simp] theorem State.decWrite_orig (s : State) : (s.decWrite).orig = s.orig := rfl
@[simp] theorem State.decWrite_resid (s : State) : (s.decWrite).resid = s.resid := rfl
@[simp] theorem State.decWrite_recon (s : State) :
    (s.decWrite).recon = s.recon.store (addr s.curI.toNat s.curJ.toNat s.residW.toNat)
      (BitVec.ofInt 8 (s.decPixel s.curI.toNat s.curJ.toNat)) := rfl
@[simp] theorem State.decWrite_script (s : State) : (s.decWrite).script = s.script := rfl
@[simp] theorem State.decWrite_readings (s : State) : (s.decWrite).readings = s.readings := rfl

/-! ### mseAdd -/

@[simp] theorem State.mseAdd_status (s : State) : (s.mseAdd).status = s.status := rfl
@[simp] theorem State.mseAdd_modeReq (s : State) : (s.mseAdd).modeReq = s.modeReq := rfl
@[simp] theorem State.mseAdd_levelsReq (s : State) : (s.mseAdd).levelsReq = s.levelsReq := rfl
@[simp] theorem State.mseAdd_origH (s : State) : (s.mseAdd).origH = s.origH := rfl
@[simp] theorem State.mseAdd_origW (s : State) : (s.mseAdd).origW = s.origW := rfl
@[simp] theorem State.mseAdd_residH (s : State) : (s.mseAdd).residH = s.residH := rfl
@[simp] theorem State.mseAdd_residW (s : State) : (s.mseAdd).residW = s.residW := rfl
@[simp] theorem State.mseAdd_reconH (s : State) : (s.mseAdd).reconH = s.reconH := rfl
@[simp] theorem State.mseAdd_reconW (s : State) : (s.mseAdd).reconW = s.reconW := rfl
@[simp] theorem State.mseAdd_cfgMode (s : State) : (s.mseAdd).cfgMode = s.cfgMode := rfl
@[simp] theorem State.mseAdd_cfgLevels (s : State) : (s.mseAdd).cfgLevels = s.cfgLevels := rfl
@[simp] theorem State.mseAdd_cfgStep (s : State) : (s.mseAdd).cfgStep = s.cfgStep := rfl
@[simp] theorem State.mseAdd_curI (s : State) : (s.mseAdd).curI = s.curI := rfl
@[simp] theorem State.mseAdd_curJ (s : State) : (s.mseAdd).curJ = s.curJ := rfl
@[simp] theorem State.mseAdd_sse (s : State) :
    (s.mseAdd).sse = BitVec.ofInt 64 (s.sse.toNat + s.cellDiff (addr s.curI.toNat s.curJ.toNat s.origW.toNat) *
      s.cellDiff (addr s.curI.toNat s.curJ.toNat s.origW.toNat)) := rfl
@[simp] theorem State.mseAdd_npix (s : State) : (s.mseAdd).npix = s.npix := rfl
@[simp] theorem State.mseAdd_mseQ (s : State) : (s.mseAdd).mseQ = s.mseQ := rfl
@[simp] theorem State.mseAdd_ratioNum (s : State) : (s.mseAdd).ratioNum = s.ratioNum := rfl
@[simp] theorem State.mseAdd_ratioDen (s : State) : (s.mseAdd).ratioDen = s.ratioDen := rfl
@[simp] theorem State.mseAdd_ratioBpr (s : State) : (s.mseAdd).ratioBpr = s.ratioBpr := rfl
@[simp] theorem State.mseAdd_ratioQ (s : State) : (s.mseAdd).ratioQ = s.ratioQ := rfl
@[simp] theorem State.mseAdd_orig (s : State) : (s.mseAdd).orig = s.orig := rfl
@[simp] theorem State.mseAdd_resid (s : State) : (s.mseAdd).resid = s.resid := rfl
@[simp] theorem State.mseAdd_recon (s : State) : (s.mseAdd).recon = s.recon := rfl
@[simp] theorem State.mseAdd_script (s : State) : (s.mseAdd).script = s.script := rfl
@[simp] theorem State.mseAdd_readings (s : State) : (s.mseAdd).readings = s.readings := rfl

/-! ### resetRegisters -/

@[simp] theorem State.resetRegisters_status (s : State) : (s.resetRegisters).status = State.reset.status := rfl
@[simp] theorem State.resetRegisters_modeReq (s : State) : (s.resetRegisters).modeReq = State.reset.modeReq := rfl
@[simp] theorem State.resetRegisters_levelsReq (s : State) : (s.resetRegisters).levelsReq = State.reset.levelsReq := rfl
@[simp] theorem State.resetRegisters_origH (s : State) : (s.resetRegisters).origH = State.reset.origH := rfl
@[simp] theorem State.resetRegisters_origW (s : State) : (s.resetRegisters).origW = State.reset.origW := rfl
@[simp] theorem State.resetRegisters_residH (s : State) : (s.resetRegisters).residH = State.reset.residH := rfl
@[simp] theorem State.resetRegisters_residW (s : State) : (s.resetRegisters).residW = State.reset.residW := rfl
@[simp] theorem State.resetRegisters_reconH (s : State) : (s.resetRegisters).reconH = State.reset.reconH := rfl
@[simp] theorem State.resetRegisters_reconW (s : State) : (s.resetRegisters).reconW = State.reset.reconW := rfl
@[simp] theorem State.resetRegisters_cfgMode (s : State) : (s.resetRegisters).cfgMode = State.reset.cfgMode := rfl
@[simp] theorem State.resetRegisters_cfgLevels (s : State) : (s.resetRegisters).cfgLevels = State.reset.cfgLevels := rfl
@[simp] theorem State.resetRegisters_cfgStep (s : State) : (s.resetRegisters).cfgStep = State.reset.cfgStep := rfl
@[simp] theorem State.resetRegisters_curI (s : State) : (s.resetRegisters).curI = State.reset.curI := rfl
@[simp] theorem State.resetRegisters_curJ (s : State) : (s.resetRegisters).curJ = State.reset.curJ := rfl
@[simp] theorem State.resetRegisters_sse (s : State) : (s.resetRegisters).sse = State.reset.sse := rfl
@[simp] theorem State.resetRegisters_npix (s : State) : (s.resetRegisters).npix = State.reset.npix := rfl
@[simp] theorem State.resetRegisters_mseQ (s : State) : (s.resetRegisters).mseQ = State.reset.mseQ := rfl
@[simp] theorem State.resetRegisters_ratioNum (s : State) : (s.resetRegisters).ratioNum = State.reset.ratioNum := rfl
@[simp] theorem State.resetRegisters_ratioDen (s : State) : (s.resetRegisters).ratioDen = State.reset.ratioDen := rfl
@[simp] theorem State.resetRegisters_ratioBpr (s : State) : (s.resetRegisters).ratioBpr = State.reset.ratioBpr := rfl
@[simp] theorem State.resetRegisters_ratioQ (s : State) : (s.resetRegisters).ratioQ = State.reset.ratioQ := rfl
@[simp] theorem State.resetRegisters_orig (s : State) : (s.resetRegisters).orig = s.orig := rfl
@[simp] theorem State.resetRegisters_resid (s : State) : (s.resetRegisters).resid = s.resid := rfl
@[simp] theorem State.resetRegisters_recon (s : State) : (s.resetRegisters).recon = s.recon := rfl
@[simp] theorem State.resetRegisters_script (s : State) : (s.resetRegisters).script = s.script := rfl
@[simp] theorem State.resetRegisters_readings (s : State) : (s.resetRegisters).readings = s.readings := rfl

end Sys2Proof.Machine
end

