-- ==== Sys2Proof/Laws/Memory.lean ====
section
/-! SUPPORT. The laws of the grid memories: a read after a write, the canonical form kept by every write, and equal memories
are equal data. -/

namespace Sys2Proof.Machine

/-- A read after a write: the addressed cell has the value written, every other cell what it had (R69, R72). -/
theorem Memory.lookup_store {w : Nat} (m : Memory w) (a b : Nat) (v : BitVec w) :
    (m.store a v).lookup b = if b = a then some v else m.lookup b := by
  induction m with
  | nil => simp only [Memory.store, Memory.lookup, eq_comm]
  | cons e m ih =>
    obtain ⟨k, x⟩ := e
    simp only [Memory.store]
    split
    · simp only [Memory.lookup, eq_comm]
    · split
      · subst_vars; simp only [Memory.lookup, eq_comm]; split <;> rfl
      · simp only [Memory.lookup, ih]
        split
        · rename_i h1 h2 h3; subst h3; rw [if_neg (fun h => h2 h.symm)]
        · rfl

/-- Where a stored entry can stand: it is the one stored, or it was there. -/
theorem Memory.mem_store {w : Nat} {m : Memory w} {a : Nat} {v : BitVec w} {p : Nat × BitVec w}
    (h : p ∈ m.store a v) : p = (a, v) ∨ p ∈ m := by
  induction m with
  | nil => simpa [Memory.store] using h
  | cons e m ih =>
    obtain ⟨k, x⟩ := e
    simp only [Memory.store] at h
    split at h
    · simpa using h
    · split at h
      · rcases List.mem_cons.1 h with h | h
        · exact .inl h
        · exact .inr (List.mem_cons_of_mem _ h)
      · rcases List.mem_cons.1 h with h | h
        · exact .inr (h ▸ List.mem_cons_self ..)
        · exact (ih h).imp_right (List.mem_cons_of_mem _)

/-- Every write to an address of the space keeps the canonical form. -/
theorem Memory.store_wf {w : Nat} {m : Memory w} {a : Nat} {v : BitVec w} (hm : m.wf) (ha : a < Config.spaceCells) :
    (m.store a v).wf := by
  refine ⟨?_, fun p hp => ?_⟩
  · have h := hm.1
    clear hm ha
    induction m with
    | nil => simp [Memory.store]
    | cons e m ih =>
      obtain ⟨k, x⟩ := e
      have hk : ∀ p ∈ m, k < p.1 := (List.pairwise_cons.1 h).1
      have hm : m.Pairwise (fun p q => p.1 < q.1) := (List.pairwise_cons.1 h).2
      simp only [Memory.store]
      split
      · rename_i hak
        refine List.pairwise_cons.2 ⟨fun p hp => ?_, h⟩
        rcases List.mem_cons.1 hp with rfl | hp
        · exact hak
        · exact lt_trans hak (hk p hp)
      · split
        · rename_i hak; subst hak
          exact List.pairwise_cons.2 ⟨hk, hm⟩
        · refine List.pairwise_cons.2 ⟨fun p hp => ?_, ih hm⟩
          rcases Memory.mem_store hp with rfl | hp
          · show k < a; omega
          · exact hk p hp
  · rcases Memory.mem_store hp with rfl | hp
    · exact ha
    · exact hm.2 p hp

/-- Nothing is found at an address below all that are listed. -/
theorem Memory.lookup_none {w : Nat} {m : Memory w} {a : Nat} (h : ∀ p ∈ m, a < p.1) : m.lookup a = none := by
  induction m with
  | nil => rfl
  | cons e m ih =>
    obtain ⟨k, x⟩ := e
    have : a < k := h (k, x) (List.mem_cons_self ..)
    simp only [Memory.lookup]
    rw [if_neg (by omega)]
    exact ih fun p hp => h p (List.mem_cons_of_mem _ hp)

/-- Equal memories are equal data: two canonical lists that agree at every address are the same list. -/
theorem Memory.ext_of_lookup {w : Nat} {m n : Memory w} (hm : m.wf) (hn : n.wf)
    (h : ∀ a, m.lookup a = n.lookup a) : m = n := by
  replace hm := hm.1
  replace hn := hn.1
  induction m generalizing n with
  | nil =>
    cases n with
    | nil => rfl
    | cons e n => obtain ⟨k, x⟩ := e; simpa [Memory.lookup] using h k
  | cons e m ih =>
    obtain ⟨k, x⟩ := e
    cases n with
    | nil => simpa [Memory.lookup] using h k
    | cons f n =>
      obtain ⟨l, y⟩ := f
      have hk := (List.pairwise_cons.1 hm).1
      have hl := (List.pairwise_cons.1 hn).1
      have hkl : k = l := by
        rcases lt_trichotomy k l with hlt | heq | hgt
        · have h1 := h k
          rw [Memory.lookup_none (m := (l, y) :: n)] at h1
          · simp [Memory.lookup] at h1
          · intro p hp
            rcases List.mem_cons.1 hp with rfl | hp
            · exact hlt
            · exact lt_trans hlt (hl p hp)
        · exact heq
        · have h1 := h l
          rw [Memory.lookup_none (m := (k, x) :: m)] at h1
          · simp [Memory.lookup] at h1
          · intro p hp
            rcases List.mem_cons.1 hp with rfl | hp
            · exact hgt
            · exact lt_trans hgt (hk p hp)
      subst hkl
      have hxy : x = y := by simpa [Memory.lookup] using h k
      subst hxy
      refine congrArg _ (ih (n := n) (fun a => ?_) (List.pairwise_cons.1 hm).2 (List.pairwise_cons.1 hn).2)
      have h1 := h a
      simp only [Memory.lookup] at h1
      by_cases hak : k = a
      · subst hak
        rw [Memory.lookup_none hk, Memory.lookup_none hl]
      · simpa [hak] using h1

/-! ## Cell reads after each write -/

theorem State.readOrig_writeOrig (s : State) (a b : Nat) (v : Pixel) :
    (s.writeOrig a v).readOrig b = if b = a then v else s.readOrig b := by
  simp only [State.readOrig, State.writeOrig_orig, Memory.lookup_store]; split <;> rfl

theorem State.readResid_writeResid (s : State) (a b : Nat) (v : ResidCell) :
    (s.writeResid a v).readResid b = if b = a then v else s.readResid b := by
  simp only [State.readResid, State.writeResid_resid, Memory.lookup_store]; split <;> rfl

theorem State.readRecon_writeRecon (s : State) (a b : Nat) (v : Pixel) :
    (s.writeRecon a v).readRecon b = if b = a then v else s.readRecon b := by
  simp only [State.readRecon, State.writeRecon_recon, Memory.lookup_store]; split <;> rfl

/-- A cell read depends on the memory of its space alone: the spaces do not alias (R60). -/
theorem State.readOrig_congr {s t : State} (h : t.orig = s.orig) (a : Nat) : t.readOrig a = s.readOrig a := by
  simp only [State.readOrig, h]

theorem State.readResid_congr {s t : State} (h : t.resid = s.resid) (a : Nat) : t.readResid a = s.readResid a := by
  simp only [State.readResid, h]

theorem State.readRecon_congr {s t : State} (h : t.recon = s.recon) (a : Nat) : t.readRecon a = s.readRecon a := by
  simp only [State.readRecon, h]

/-! ## Addresses -/

/-- Every address the engine forms is an address of the space, whatever the registers hold (R8, R33). -/
theorem addr_lt_spaceCells (i j w : Dim) : addr i.toNat j.toNat w.toNat < Config.spaceCells := by
  have hi := i.isLt
  have hj := j.isLt
  have hw := w.isLt
  have h : i.toNat * w.toNat ≤ 65535 * 65535 := Nat.mul_le_mul (by omega) (by omega)
  simp only [addr, Config.spaceCells]
  omega

/-- The cells of a grid stand below H·W (R64). -/
theorem addr_lt {i j h w : Nat} (hi : i < h) (hj : j < w) : addr i j w < h * w := by
  have : (i + 1) * w ≤ h * w := Nat.mul_le_mul_right _ hi
  have h2 : (i + 1) * w = i * w + w := Nat.succ_mul i w
  simp only [addr]
  omega

/-- Two cells of a grid at one address are one cell (R63). -/
theorem addr_inj {i j k l w : Nat} (hj : j < w) (hl : l < w) (h : addr i j w = addr k l w) : i = k ∧ j = l := by
  simp only [addr] at h
  have hw : 0 < w := by omega
  have h1 : i = k := by
    have a1 : (i * w + j) / w = i := by rw [Nat.mul_comm, Nat.mul_add_div hw, Nat.div_eq_of_lt hj, Nat.add_zero]
    have a2 : (k * w + l) / w = k := by rw [Nat.mul_comm, Nat.mul_add_div hw, Nat.div_eq_of_lt hl, Nat.add_zero]
    rw [← a1, h, a2]
  subst h1
  exact ⟨rfl, by omega⟩

/-- Every address below H·W is a cell of the grid: row a / W, column a mod W (R31). -/
theorem addr_div_mod (a w : Nat) : addr (a / w) (a % w) w = a := by
  simp only [addr]
  rw [Nat.mul_comm]
  exact Nat.div_add_mod a w

/-! ## Every operation keeps the canonical form -/

theorem State.writeOrig_wf {s : State} {a : Nat} {v : Pixel} (h : s.orig.wf) (ha : a < Config.spaceCells) :
    (s.writeOrig a v).orig.wf := Memory.store_wf h ha

theorem State.writeResid_wf {s : State} {a : Nat} {v : ResidCell} (h : s.resid.wf) (ha : a < Config.spaceCells) :
    (s.writeResid a v).resid.wf := Memory.store_wf h ha

theorem State.writeRecon_wf {s : State} {a : Nat} {v : Pixel} (h : s.recon.wf) (ha : a < Config.spaceCells) :
    (s.writeRecon a v).recon.wf := Memory.store_wf h ha

theorem State.encWrite_wf {s : State} (h : s.resid.wf) : s.encWrite.resid.wf :=
  Memory.store_wf h (addr_lt_spaceCells _ _ _)

theorem State.decWrite_wf {s : State} (h : s.recon.wf) : s.decWrite.recon.wf :=
  Memory.store_wf h (addr_lt_spaceCells _ _ _)

/-- A host cell write (R93): the three memories stay canonical. -/
theorem State.writeCell_wf {s : State} (sp : Space) (c : CellAddr) (v : HostValue)
    (ho : s.orig.wf) (hr : s.resid.wf) (hc : s.recon.wf) :
    (s.writeCell sp c v).orig.wf ∧ (s.writeCell sp c v).resid.wf ∧ (s.writeCell sp c v).recon.wf := by
  have hlt : c.toNat < Config.spaceCells := c.isLt
  cases sp
  · exact ⟨Memory.store_wf ho hlt, hr, hc⟩
  · exact ⟨ho, Memory.store_wf hr hlt, hc⟩
  · exact ⟨ho, hr, Memory.store_wf hc hlt⟩

/-- The memories of the reset state are canonical. -/
theorem State.reset_wf : State.reset.orig.wf ∧ State.reset.resid.wf ∧ State.reset.recon.wf := by
  simp [State.reset, Memory.wf]

end Sys2Proof.Machine
end

