-- ==== Sys2Proof/Laws/Step.lean ====
section
/-! SUPPORT. What each shared operation and each step can do, said once: if it answers `next t`, then one of the cases
listed holds. -/

namespace Sys2Proof.Machine

/-! ## Completion and raising -/

/-- Success sets no sticky bit (R258). -/
@[simp] theorem errBit_zero : errBit 0#4 = 0#4 := rfl

/-- The STATUS after an error (R286): RESULT is the cause's code, its sticky bit is set, BUSY is 0; nothing else. -/
theorem State.raise_eq (s : State) (x : Cause) :
    s.raise x = { s with status := { s.status with
      busy := false, result := x.code, errs := s.status.errs ||| errBit x.code } } := rfl

/-- The STATUS after success (R258): RESULT is 0 and no sticky bit changes. -/
theorem State.complete_zero_eq (s : State) :
    s.complete 0#4 = { s with status := { s.status with busy := false, result := 0#4 } } := by
  simp [State.complete]

/-! ## Acceptances -/

/-- What CFG can do (R160): drop the configuration with ConfigError, or latch one. -/
theorem execCfg_cases {s t : State} (h : execCfg s = .next t) :
    ((modeOperand s.modeReq = none ∨ s.levelsReq.toInt ≤ 0) ∧
      t = ((s.accept Instr.cfg.opcode).latchConfig false .order1 0#32 0#9).raise .configError) ∨
    (∃ m, modeOperand s.modeReq = some m ∧ 0 < s.levelsReq.toInt ∧
      t = ((s.accept Instr.cfg.opcode).latchConfig true m (BitVec.ofInt 32 s.levelsReq.toInt)
        (BitVec.ofNat 9 (stepOf s.levelsReq.toInt.toNat))).complete 0#4) := by
  unfold execCfg at h
  cases hm : modeOperand s.modeReq with
  | none => simp only [State.accept_modeReq, hm] at h; injection h with h; exact .inl ⟨.inl rfl, h.symm⟩
  | some m =>
    simp only [State.accept_modeReq, hm] at h
    change (if s.levelsReq.toInt ≤ 0 then _ else _) = _ at h
    by_cases hl : s.levelsReq.toInt ≤ 0
    · rw [if_pos hl] at h; injection h with h; exact .inl ⟨.inr hl, h.symm⟩
    · rw [if_neg hl] at h; injection h with h
      exact .inr ⟨m, rfl, by omega, h.symm⟩

/-- What the acceptance of ENC can do (R181). -/
theorem execEnc_cases {s t : State} (h : execEnc s = .next t) :
    (s.status.cfgValid = false ∧ t = (s.accept Instr.enc.opcode).raise .configError) ∨
    (s.status.cfgValid = true ∧ emptyGrid s.origH s.origW = true ∧
      t = (s.accept Instr.enc.opcode).raise .inputError) ∨
    (s.status.cfgValid = true ∧ emptyGrid s.origH s.origW = false ∧ t = (s.accept Instr.enc.opcode).startPass) := by
  change (if s.status.cfgValid = false then _ else if emptyGrid s.origH s.origW = true then _ else _) = _ at h
  cases hc : s.status.cfgValid with
  | false => rw [if_pos hc] at h; injection h with h; exact .inl ⟨rfl, h.symm⟩
  | true =>
    rw [if_neg (show ¬ s.status.cfgValid = false by simp [hc])] at h
    cases he : emptyGrid s.origH s.origW with
    | true => rw [if_pos he] at h; injection h with h; exact .inr (.inl ⟨rfl, rfl, h.symm⟩)
    | false =>
      rw [if_neg (show ¬ emptyGrid s.origH s.origW = true by simp [he])] at h
      injection h with h
      exact .inr (.inr ⟨rfl, rfl, h.symm⟩)

/-- What the acceptance of DEC can do (R201). -/
theorem execDec_cases {s t : State} (h : execDec s = .next t) :
    (s.status.cfgValid = false ∧ t = (s.accept Instr.dec.opcode).raise .configError) ∨
    (s.status.cfgValid = true ∧ emptyGrid s.residH s.residW = true ∧
      t = (s.accept Instr.dec.opcode).raise .inputError) ∨
    (s.status.cfgValid = true ∧ emptyGrid s.residH s.residW = false ∧
      t = (s.accept Instr.dec.opcode).startPass) := by
  change (if s.status.cfgValid = false then _ else if emptyGrid s.residH s.residW = true then _ else _) = _ at h
  cases hc : s.status.cfgValid with
  | false => rw [if_pos hc] at h; injection h with h; exact .inl ⟨rfl, h.symm⟩
  | true =>
    rw [if_neg (show ¬ s.status.cfgValid = false by simp [hc])] at h
    cases he : emptyGrid s.residH s.residW with
    | true => rw [if_pos he] at h; injection h with h; exact .inr (.inl ⟨rfl, rfl, h.symm⟩)
    | false =>
      rw [if_neg (show ¬ emptyGrid s.residH s.residW = true by simp [he])] at h
      injection h with h
      exact .inr (.inr ⟨rfl, rfl, h.symm⟩)

/-- What the acceptance of MSE can do (R221). -/
theorem execMse_cases {s t : State} (h : execMse s = .next t) :
    ((s.origH ≠ s.reconH ∨ s.origW ≠ s.reconW) ∧
      t = (s.accept Instr.mse.opcode).clearMseValid.raise .dimensionMismatchError) ∨
    (s.origH = s.reconH ∧ s.origW = s.reconW ∧ emptyGrid s.origH s.origW = true ∧
      t = (s.accept Instr.mse.opcode).clearMseValid.raise .inputError) ∨
    (s.origH = s.reconH ∧ s.origW = s.reconW ∧ emptyGrid s.origH s.origW = false ∧
      t = State.startPass { (s.accept Instr.mse.opcode).clearMseValid with sse := 0#64 }) := by
  change (if s.origH ≠ s.reconH ∨ s.origW ≠ s.reconW then _ else if emptyGrid s.origH s.origW = true then _ else _) = _
    at h
  by_cases hd : s.origH ≠ s.reconH ∨ s.origW ≠ s.reconW
  · rw [if_pos hd] at h; injection h with h; exact .inl ⟨hd, h.symm⟩
  · rw [if_neg hd] at h
    have hd : s.origH = s.reconH ∧ s.origW = s.reconW := by simpa [not_or] using hd
    cases he : emptyGrid s.origH s.origW with
    | true => rw [if_pos he] at h; injection h with h; exact .inr (.inl ⟨hd.1, hd.2, rfl, h.symm⟩)
    | false =>
      rw [if_neg (show ¬ emptyGrid s.origH s.origW = true by simp [he])] at h
      injection h with h
      exact .inr (.inr ⟨hd.1, hd.2, rfl, h.symm⟩)

/-- The state after a RATIO that raises nothing (R235). -/
def State.ratioDone (s : State) : State :=
  { s with
    ratioBpr := BitVec.ofNat 5 (clog2 s.cfgLevels.toNat)
    ratioNum := BitVec.ofNat 64 (s.origW.toNat * s.origH.toNat * 8)
    ratioDen := BitVec.ofNat 64 (s.origW.toNat * s.origH.toNat * clog2 s.cfgLevels.toNat)
    ratioQ := fquot (s.origW.toNat * s.origH.toNat * 8) (s.origW.toNat * s.origH.toNat * clog2 s.cfgLevels.toNat)
    status := { s.status with
      busy := false, ratioValid := true, ratioDiv0 := clog2 s.cfgLevels.toNat = 0, result := 0#4,
      lastop := Instr.ratio.opcode } }

/-- What RATIO can do (R235). -/
theorem execRatio_cases {s t : State} (h : execRatio s = .next t) :
    (s.status.cfgValid = false ∧ t = (s.accept Instr.ratio.opcode).clearRatioFlags.raise .configError) ∨
    (s.status.cfgValid = true ∧ emptyGrid s.origH s.origW = true ∧
      t = (s.accept Instr.ratio.opcode).clearRatioFlags.raise .inputError) ∨
    (s.status.cfgValid = true ∧ emptyGrid s.origH s.origW = false ∧ t = s.ratioDone) := by
  change (if s.status.cfgValid = false then _ else if emptyGrid s.origH s.origW = true then _ else _) = _ at h
  cases hc : s.status.cfgValid with
  | false => rw [if_pos hc] at h; injection h with h; exact .inl ⟨rfl, h.symm⟩
  | true =>
    rw [if_neg (show ¬ s.status.cfgValid = false by simp [hc])] at h
    cases he : emptyGrid s.origH s.origW with
    | true => rw [if_pos he] at h; injection h with h; exact .inr (.inl ⟨rfl, rfl, h.symm⟩)
    | false =>
      rw [if_neg (show ¬ emptyGrid s.origH s.origW = true by simp [he])] at h
      injection h with h
      refine .inr (.inr ⟨rfl, rfl, ?_⟩)
      subst h
      rw [State.complete_zero_eq]
      rfl

/-! ## Cell steps -/

/-- What a cell step can do (R256, R257): the cursor was a cell of the grid, the cell's own work is done, the finish if it
was the last, and the cursor advanced. -/
theorem State.visit_eq_next {s t : State} {h w : Nat} {cell finish : State → State}
    (e : s.visit h w cell finish = .next t) :
    s.curI.toNat < h ∧ s.curJ.toNat < w ∧
    t = (if last s.curI.toNat s.curJ.toNat h w then finish (cell s) else cell s).setCursor
      (advance s.curI.toNat s.curJ.toNat w) := by
  simp only [State.visit] at e
  split at e
  · rename_i hc; injection e with e; exact ⟨hc.1, hc.2, e.symm⟩
  · cases e

/-- A cell step on a cell of the grid answers a next state. -/
theorem State.visit_of_lt {s : State} {h w : Nat} {cell finish : State → State}
    (hi : s.curI.toNat < h) (hj : s.curJ.toNat < w) :
    s.visit h w cell finish = .next ((if last s.curI.toNat s.curJ.toNat h w then finish (cell s) else cell s).setCursor
      (advance s.curI.toNat s.curJ.toNat w)) := by
  simp only [State.visit, hi, hj, and_self, if_true]

/-- Which cell step the engine takes (R256). -/
theorem engineStep_enc {s : State} (h : s.status.lastop = Instr.enc.opcode) : engineStep s = encCell s := by
  simp only [engineStep, h, if_true]

theorem engineStep_dec {s : State} (h : s.status.lastop = Instr.dec.opcode) : engineStep s = decCell s := by
  simp only [engineStep, h]; rfl

theorem engineStep_mse {s : State} (h : s.status.lastop = Instr.mse.opcode) : engineStep s = mseCell s := by
  simp only [engineStep, h]; rfl

/-- What an engine step can do (R256). -/
theorem engineStep_cases {s t : State} (h : engineStep s = .next t) :
    (s.status.lastop = Instr.enc.opcode ∧ s.cfgStep ≠ 0#9 ∧
      s.visit s.origH.toNat s.origW.toNat State.encWrite State.encFinish = .next t) ∨
    (s.status.lastop = Instr.dec.opcode ∧
      s.visit s.residH.toNat s.residW.toNat State.decWrite State.decFinish = .next t) ∨
    (s.status.lastop = Instr.mse.opcode ∧
      s.visit s.origH.toNat s.origW.toNat State.mseAdd State.mseFinish = .next t) := by
  simp only [engineStep] at h
  split at h
  · rename_i hl
    simp only [encCell] at h
    split at h
    · cases h
    · rename_i hz; exact .inl ⟨hl, hz, h⟩
  · split at h
    · rename_i hl; exact .inr (.inl ⟨hl, h⟩)
    · split at h
      · rename_i hl; exact .inr (.inr ⟨hl, h⟩)
      · cases h

/-! ## The machine's step -/

/-- With nothing left in the script the engine takes its turn. -/
theorem step_nil {s : State} (h : s.script = []) : step s = engineTurn s := by
  simp only [step, nextEvent, h]

/-- The script's next event happens. -/
theorem step_cons {s : State} {e : Event} {rest : List Event} (h : s.script = e :: rest) :
    step s = perform e { s with script := rest } := by
  simp only [step, nextEvent, h]

/-! What each event is (one equation per event). -/

@[simp] theorem perform_host (t : Transaction) (s : State) : perform (.host t) s = transact t s := rfl
@[simp] theorem perform_check (c : Check) (s : State) :
    perform (.check c) s = .next (s.record (s.checkRead c) (checkMeets c (s.checkRead c))) := rfl
@[simp] theorem perform_wait (s : State) : perform .wait s = .next (waitEvent s) := rfl
@[simp] theorem perform_engine (s : State) : perform .engine s = engineTurn s := rfl
@[simp] theorem perform_reset (s : State) : perform .reset s = .next s.resetRegisters := rfl

/-- The engine's turn while a pass runs is an engine step. -/
theorem engineTurn_busy {s : State} (h : s.status.busy = true) : engineTurn s = engineStep s := by
  simp only [engineTurn, h, if_true]

/-- The engine's turn while idle changes nothing (R255). -/
theorem engineTurn_idle {s : State} (h : s.status.busy = false) : engineTurn s = .next s := by
  simp [engineTurn, h]

/-- A write to CMD while idle is a command (R250). -/
theorem transact_command {s : State} {v : HostValue} (h : s.status.busy = false) :
    transact (.wr 0#16 v) s = acceptWord (v.setWidth 32) s := by
  simp [transact, h, Reg.ofNumber]

end Sys2Proof.Machine
end

