-- ==== Sys2Proof/Laws/Pass.lean ====
section
/-! SUPPORT. What a pass is made of, said once: the raster order by cell address, the ranges of the values read and stored,
the engine's steps, and the induction over the cells of a grid. -/

namespace Sys2Proof.Machine

/-! ## Operands -/

/-- R100: an empty grid, in numbers. -/
theorem emptyGrid_iff (h w : Dim) : emptyGrid h w = true ↔ h.toNat = 0 ∨ w.toNat = 0 := by
  simp [emptyGrid, ← BitVec.toNat_inj]

/-- Every register number is a register's own or is above 21 (R22, R23 d). -/
theorem ofNumber_cases (k : Nat) :
    (∃ r, Reg.ofNumber k = some r ∧ r.number = k) ∨ (Reg.ofNumber k = none ∧ 21 < k) := by
  by_cases h : k ≤ 21
  · left; interval_cases k <;> exact ⟨_, rfl, rfl⟩
  · refine .inr ⟨?_, by omega⟩
    unfold Reg.ofNumber; split <;> first | omega | rfl

/-- A cell of ORIG is read in 0..255 (R12). -/
theorem State.origInt_range (s : State) (a : Nat) : 0 ≤ s.origInt a ∧ s.origInt a ≤ 255 := by
  unfold State.origInt; have := (s.readOrig a).isLt; omega

/-- A cell of RECON is read in 0..255 (R12). -/
theorem State.reconInt_range (s : State) (a : Nat) : 0 ≤ s.reconInt a ∧ s.reconInt a ≤ 255 := by
  unfold State.reconInt; have := (s.readRecon a).isLt; omega

/-- One squared difference (R222). -/
theorem State.cellDiff_sq_range (s : State) (a : Nat) :
    0 ≤ s.cellDiff a * s.cellDiff a ∧ s.cellDiff a * s.cellDiff a ≤ 65025 := by
  have h1 := s.origInt_range a
  have h2 := s.reconInt_range a
  unfold State.cellDiff
  constructor <;> nlinarith

/-- A grid has at most 65535² cells (R64). -/
theorem cells_le (h w : Dim) : h.toNat * w.toNat ≤ 4294836225 := by
  have hH := h.isLt
  have hW := w.isLt
  have := Nat.mul_le_mul (show h.toNat ≤ 65535 by omega) (show w.toNat ≤ 65535 by omega)
  omega

/-- `trunc_8` of a value in range is the value. -/
theorem toNat_ofInt_pixel {v : Int} (h0 : 0 ≤ v) (h1 : v ≤ 255) : ((BitVec.ofInt 8 v).toNat : Int) = v := by
  rw [BitVec.toNat_ofInt]; omega

/-- `trunc_64` of a value in range is the value. -/
theorem toNat_ofInt_sum {v : Int} (h0 : 0 ≤ v) (h1 : v < 2 ^ 64) : ((BitVec.ofInt 64 v).toNat : Int) = v := by
  rw [BitVec.toNat_ofInt]; omega

/-! ## The raster order -/

/-- The row of the k-th cell is a row of the grid. -/
theorem div_lt_of_cell {k h w : Nat} (hk : k < h * w) : k / w < h := Nat.div_lt_of_lt_mul (by rwa [Nat.mul_comm])

/-- R31: the successor of the k-th cell is the (k+1)-th. -/
theorem advance_div_mod (k w : Nat) (hw : 0 < w) : advance (k / w) (k % w) w = ((k + 1) / w, (k + 1) % w) := by
  have h1 := Nat.div_add_mod k w
  have h2 := Nat.mod_lt k hw
  unfold advance
  split
  · rename_i h
    have : k + 1 = (k % w + 1) + w * (k / w) := by omega
    rw [this, Nat.add_mul_div_left _ _ hw, Nat.add_mul_mod_self_left, Nat.div_eq_of_lt h, Nat.mod_eq_of_lt h]; simp
  · have : k + 1 = w * (k / w + 1) := by rw [Nat.mul_add]; omega
    rw [this, Nat.mul_div_cancel_left _ hw, Nat.mul_mod_right]

/-- The last cell, by its coordinates (R31). -/
theorem last_iff {i j h w : Nat} (hi : i < h) (hj : j < w) : last i j h w = decide (i + 1 = h ∧ j + 1 = w) := by
  unfold last; rw [← Bool.decide_and]; congr 1; simp only [eq_iff_iff]; omega

/-- After the last cell the cursor is (H, 0), and the last address is H·W − 1 (R31, R32). -/
theorem advance_of_last {i j h w : Nat} (hi : i < h) (hj : j < w) (hl : last i j h w = true) :
    advance i j w = (h, 0) ∧ addr i j w + 1 = h * w := by
  rw [last_iff hi hj, decide_eq_true_eq] at hl
  obtain ⟨rfl, rfl⟩ := hl
  refine ⟨by simp [advance], ?_⟩
  simp only [addr]; ring

/-- Before the last cell the successor is a cell, at the next address (R31, R33). -/
theorem advance_of_not_last {i j h w : Nat} (hi : i < h) (hj : j < w) (hl : last i j h w = false) :
    (advance i j w).1 < h ∧ (advance i j w).2 < w ∧ addr (advance i j w).1 (advance i j w).2 w = addr i j w + 1 ∧
      addr i j w + 1 < h * w := by
  rw [last_iff hi hj, decide_eq_false_iff_not, not_and] at hl
  have key : (advance i j w).1 < h ∧ (advance i j w).2 < w ∧
      addr (advance i j w).1 (advance i j w).2 w = addr i j w + 1 := by
    unfold advance
    split
    · simp only [addr]; omega
    · have hj1 : j + 1 = w := by omega
      have hi1 : i + 1 ≠ h := fun h => hl h hj1
      refine ⟨by show i + 1 < h; omega, by show 0 < w; omega, ?_⟩
      simp only [addr]; rw [Nat.succ_mul]; omega
  exact ⟨key.1, key.2.1, key.2.2, by rw [← key.2.2]; exact addr_lt key.1 key.2.1⟩

/-- The k-th cell is the last one iff k + 1 = H·W (R31). -/
theorem last_div_mod (k h w : Nat) (hk : k < h * w) (hw : 0 < w) :
    last (k / w) (k % w) h w = decide (k + 1 = h * w) := by
  have hi := div_lt_of_cell hk
  have hj := Nat.mod_lt k hw
  have ha : addr (k / w) (k % w) w = k := addr_div_mod k w
  cases hl : last (k / w) (k % w) h w with
  | true => have := (advance_of_last hi hj hl).2; rw [ha] at this; simp [this]
  | false =>
    have := (advance_of_not_last hi hj hl).2.2.2
    rw [ha] at this
    exact (decide_eq_false (by omega)).symm

/-! ## The engine's steps -/

/-- One engine turn more. -/
theorem engineSteps_succ {k : Nat} {s v : State} (h : engineSteps k s = .next v) :
    engineSteps (k + 1) s = engineTurn v := by
  induction k generalizing s with
  | zero => injection h with h; subst h; unfold engineSteps; cases engineTurn s <;> rfl
  | succ n ih =>
    unfold engineSteps at h
    rw [engineSteps]
    cases hs : engineTurn s with
    | next t => rw [hs] at h; exact ih h
    | fault r => rw [hs] at h; cases h
    | refused r => rw [hs] at h; cases h

/-- The induction over a pass (R253, R256): a property of the state after k cells, which the start has, every cell step
keeps and the last one with the command's finish too, holds after any k ≤ H·W engine steps. -/
theorem pass_induction {h w : Nat} (hh : h < 65536) (hw : w < 65536) (w1 : 1 ≤ w) {cell fin : State → State}
    {I : Nat → State → Prop} {u : State} (h0 : I 0 u)
    (hI : ∀ k v, k < h * w → I k v → v.curI = BitVec.ofNat 16 (k / w) ∧ v.curJ = BitVec.ofNat 16 (k % w) ∧
      engineTurn v = v.visit h w cell fin)
    (hstep : ∀ k v, k + 1 < h * w → I k v → I (k + 1) ((cell v).setCursor ((k + 1) / w, (k + 1) % w)))
    (hlast : ∀ k v, k + 1 = h * w → I k v → I (k + 1) ((fin (cell v)).setCursor (h, 0))) :
    ∀ k, k ≤ h * w → ∃ v, engineSteps k u = .next v ∧ I k v := by
  intro k
  induction k with
  | zero => intro _; exact ⟨u, rfl, h0⟩
  | succ k ih =>
    intro hk
    obtain ⟨v, hv, hIv⟩ := ih (by omega)
    obtain ⟨c1, c2, c3⟩ := hI k v (by omega) hIv
    have hdl := div_lt_of_cell (show k < h * w by omega)
    have hml := Nat.mod_lt k (show 0 < w from w1)
    have d1 : v.curI.toNat = k / w := by rw [c1]; simp; omega
    have d2 : v.curJ.toNat = k % w := by rw [c2]; simp; omega
    rw [engineSteps_succ hv, c3, State.visit_of_lt (by rw [d1]; exact hdl) (by rw [d2]; exact hml), d1, d2,
      advance_div_mod k w w1, last_div_mod k h w (by omega) w1]
    refine ⟨_, rfl, ?_⟩
    by_cases he : k + 1 = h * w
    · rw [if_pos (by simpa using he)]
      have := hlast k v he hIv
      have e1 : (k + 1) / w = h := by rw [he]; exact Nat.mul_div_cancel _ w1
      have e2 : (k + 1) % w = 0 := by rw [he]; exact Nat.mul_mod_left _ _
      rw [e1, e2]; exact this
    · rw [if_neg (by simpa using he)]
      exact hstep k v (by omega) hIv

/-- The same engine with another host script and other readings. -/
def State.withHost (s : State) (sc : List Event) (rd : List Reading) : State := { s with script := sc, readings := rd }

/-- The engine neither reads nor writes what is the host's (R20): its turn is the same whatever the script and the
readings. -/
theorem engineTurn_host {s t : State} (h : engineTurn s = .next t) (sc : List Event) (rd : List Reading) :
    engineTurn (s.withHost sc rd) = .next (t.withHost sc rd) ∧ t.script = s.script ∧ t.readings = s.readings := by
  unfold engineTurn at h ⊢
  split at h
  · rename_i hb
    rw [if_pos (show (s.withHost sc rd).status.busy = true from hb)]
    rcases engineStep_cases h with ⟨hl, hz, hv⟩ | ⟨hl, hv⟩ | ⟨hl, hv⟩ <;> obtain ⟨hi, hj, rfl⟩ := State.visit_eq_next hv
    · rw [engineStep_enc (show (s.withHost sc rd).status.lastop = _ from hl), encCell, if_neg (show (s.withHost sc rd).cfgStep ≠ 0#9 from hz)]
      change (s.withHost sc rd).visit s.origH.toNat s.origW.toNat _ _ = _ ∧ _
      rw [State.visit_of_lt (s := s.withHost sc rd) hi hj]
      refine ⟨congrArg Host.Outcome.next ?_, by split <;> rfl, by split <;> rfl⟩
      change (if last s.curI.toNat s.curJ.toNat s.origH.toNat s.origW.toNat = true then _ else _ : State).setCursor
        (advance s.curI.toNat s.curJ.toNat s.origW.toNat) = _
      split <;> rfl
    · rw [engineStep_dec (show (s.withHost sc rd).status.lastop = _ from hl), decCell]
      change (s.withHost sc rd).visit s.residH.toNat s.residW.toNat _ _ = _ ∧ _
      rw [State.visit_of_lt (s := s.withHost sc rd) hi hj]
      refine ⟨congrArg Host.Outcome.next ?_, by split <;> rfl, by split <;> rfl⟩
      change (if last s.curI.toNat s.curJ.toNat s.residH.toNat s.residW.toNat = true then _ else _ : State).setCursor
        (advance s.curI.toNat s.curJ.toNat s.residW.toNat) = _
      split <;> rfl
    · rw [engineStep_mse (show (s.withHost sc rd).status.lastop = _ from hl), mseCell]
      change (s.withHost sc rd).visit s.origH.toNat s.origW.toNat _ _ = _ ∧ _
      rw [State.visit_of_lt (s := s.withHost sc rd) hi hj]
      refine ⟨congrArg Host.Outcome.next ?_, by split <;> rfl, by split <;> rfl⟩
      change (if last s.curI.toNat s.curJ.toNat s.origH.toNat s.origW.toNat = true then _ else _ : State).setCursor
        (advance s.curI.toNat s.curJ.toNat s.origW.toNat) = _
      split <;> rfl
  · rename_i hb
    injection h with h; subst h
    rw [if_neg (show ¬ (s.withHost sc rd).status.busy = true from hb)]
    exact ⟨rfl, rfl, rfl⟩

/-- What the engine's turn leaves alone: the configuration, its valid flag, ORIG, and but for a running ENC or DEC pass the
other two memories (R26, R67). -/
theorem engineTurn_frame {s t : State} (h : engineTurn s = .next t) :
    t.orig = s.orig ∧ t.cfgMode = s.cfgMode ∧ t.cfgLevels = s.cfgLevels ∧ t.cfgStep = s.cfgStep ∧
      t.status.cfgValid = s.status.cfgValid ∧
      (t.resid = s.resid ∨ (s.status.busy = true ∧ s.status.lastop = Instr.enc.opcode)) ∧
      (t.recon = s.recon ∨ (s.status.busy = true ∧ s.status.lastop = Instr.dec.opcode)) := by
  unfold engineTurn at h
  split at h
  · rename_i hb
    rcases engineStep_cases h with ⟨hl, _, hv⟩ | ⟨hl, hv⟩ | ⟨hl, hv⟩ <;> obtain ⟨_, _, rfl⟩ := State.visit_eq_next hv <;>
      refine ⟨?_, ?_, ?_, ?_, ?_, ?_, ?_⟩ <;> first | (right; exact ⟨hb, hl⟩) | (try left) <;> (split <;> simp)
  · injection h with h; subst h
    exact ⟨rfl, rfl, rfl, rfl, rfl, .inl rfl, .inl rfl⟩

end Sys2Proof.Machine
end

