-- ==== Sys2Proof/Laws/PerInstr.lean ====
section
/-! SUPPORT. The family RoundTrip: what holds of every command as syntax, one lemma per constructor. -/

namespace Sys2Proof.Laws.RoundTrip

/-- The command is well formed, its word is legal (R95), and the decoder reads it back. -/
def Statement (i : Instr) : Prop :=
  i.wellFormed = true ∧ CommandWord.legal (encode i) = true ∧ decode (encode i) = .ok i

theorem cfg : Statement .cfg := ⟨rfl, rfl, rfl⟩
theorem enc : Statement .enc := ⟨rfl, rfl, rfl⟩
theorem dec : Statement .dec := ⟨rfl, rfl, rfl⟩
theorem mse : Statement .mse := ⟨rfl, rfl, rfl⟩
theorem ratio : Statement .ratio := ⟨rfl, rfl, rfl⟩
theorem clrerr : Statement .clrerr := ⟨rfl, rfl, rfl⟩
theorem srst : Statement .srst := ⟨rfl, rfl, rfl⟩

end Sys2Proof.Laws.RoundTrip
end

