-- ==== Sys2Proof/Laws/Script.lean ====
section
/-! SUPPORT. What an interleaving of a script with the engine's turns is: the same host actions, and every such list of
events is one. -/

namespace Sys2Proof.Machine

@[simp] theorem State.withScript_script (s : State) (ls : List Line) : (s.withScript ls).script = scriptEvents ls := rfl
@[simp] theorem State.withScript_engineState (s : State) (ls : List Line) :
    { s.withScript ls with script := s.script } = s := rfl
@[simp] theorem State.withInterleaving_script (s : State) (ls : List Line) (turns : List Nat) :
    (s.withInterleaving ls turns).script = interleave turns (scriptEvents ls) := rfl
@[simp] theorem State.withInterleaving_engineState (s : State) (ls : List Line) (turns : List Nat) :
    { s.withInterleaving ls turns with script := s.script } = s := rfl

/-- With no turn given the host actions stand as they are. -/
@[simp] theorem interleave_nil (es : List Event) : interleave [] es = es := by cases es <;> rfl

/-- An interleaving adds engine turns and nothing else. -/
theorem interleave_filter (turns : List Nat) (es : List Event) :
    (interleave turns es).filter (· ≠ .engine) = es.filter (· ≠ .engine) := by
  induction es generalizing turns with
  | nil => cases turns <;> rfl
  | cons e es ih =>
    cases turns with
    | nil => rw [interleave_nil]
    | cons n ns =>
      have hr : (List.replicate n Event.engine).filter (· ≠ .engine) = [] := by
        rw [List.filter_eq_nil_iff]; intro x hx; simp [List.eq_of_mem_replicate hx]
      rw [interleave, List.filter_append, hr, List.nil_append, List.filter_cons, List.filter_cons, ih]

/-- One engine turn more before the first host action. -/
theorem interleave_engine (turns : List Nat) (e : Event) (es : List Event) :
    .engine :: interleave turns (e :: es) = interleave ((turns.headD 0 + 1) :: turns.tail) (e :: es) := by
  cases turns with
  | nil => simp [interleave]
  | cons n ns => simp [interleave, List.replicate_succ]

/-- Every list of events with the host actions `es` is an interleaving of them, but for the turns after the last action. -/
theorem exists_interleave (l : List Event) :
    ∃ turns k, l = interleave turns (l.filter (· ≠ .engine)) ++ List.replicate k .engine := by
  induction l with
  | nil => exact ⟨[], 0, rfl⟩
  | cons e l ih =>
    obtain ⟨turns, k, h⟩ := ih
    by_cases he : e = .engine
    · subst he
      simp only [List.filter_cons, ne_eq, not_true_eq_false, decide_false, Bool.false_eq_true, if_false]
      cases hf : l.filter (· ≠ .engine) with
      | nil =>
        rw [hf] at h
        refine ⟨[], k + 1, ?_⟩
        rw [interleave_nil, List.nil_append, List.replicate_succ]
        congr 1
        rw [h]; cases turns <;> rfl
      | cons x xs =>
        rw [hf] at h
        refine ⟨(turns.headD 0 + 1) :: turns.tail, k, ?_⟩
        rw [← interleave_engine, List.cons_append, ← h]
    · refine ⟨0 :: turns, k, ?_⟩
      rw [List.filter_cons, if_pos (by simpa using he)]
      simp only [interleave, List.replicate_zero, List.nil_append, List.cons_append]
      rw [← h]

end Sys2Proof.Machine
end

