-- ==== Sys2Proof/Tests/Slice0.lean ====
section
/-! SUPPORT. The model's own tests: expected values are those of 95_test_vectors.md and of the tables of the section files,
each cited. Then one witness for each statement that has hypotheses: a concrete state and operands that meet them. -/

namespace Sys2Proof.Tests

open Sys2Proof Sys2Proof.Machine

/-! ## States -/

/-- Reset, then a valid configuration latched. -/
def configured (m : PredictorMode) (l : Nat) : State :=
  { State.reset with
    cfgMode := m, cfgLevels := BitVec.ofNat 32 l, cfgStep := BitVec.ofNat 9 (stepOf l)
    status := { Status.reset with cfgValid := true } }

/-- A row-major list of cells, from address 0. -/
def cells {n : Nat} (xs : List Int) : Memory n := xs.zipIdx.map fun x => (x.2, BitVec.ofInt n x.1)

/-- `s` with a grid in ORIG. -/
def withOrig (s : State) (h w : Nat) (xs : List Int) : State :=
  { s with orig := cells xs, origH := BitVec.ofNat 16 h, origW := BitVec.ofNat 16 w }

/-- `s` with a grid in RESID. -/
def withResid (s : State) (h w : Nat) (xs : List Int) : State :=
  { s with resid := cells xs, residH := BitVec.ofNat 16 h, residW := BitVec.ofNat 16 w }

/-- `s` with a grid in RECON. -/
def withRecon (s : State) (h w : Nat) (xs : List Int) : State :=
  { s with recon := cells xs, reconH := BitVec.ofNat 16 h, reconW := BitVec.ofNat 16 w }

/-- `s` in the pass of a command, at a cell. -/
def inPass (s : State) (i : Instr) (row col : Nat) : State :=
  { s with
    curI := BitVec.ofNat 16 row, curJ := BitVec.ofNat 16 col
    status := { s.status with busy := true, lastop := i.opcode } }

/-- `s` with the host's next event. -/
def doing (s : State) (e : Event) : State := { s with script := [e] }

/-- A property of the next state, false where there is none. -/
def after (o : Host.Outcome State Fault Refusal) (p : State → Bool) : Bool :=
  match o with
  | .next t => p t
  | .fault _ => false
  | .refused _ => false

/-- The STATUS word after an outcome. -/
def statusAfter (o : Host.Outcome State Fault Refusal) (w : Nat) : Bool := after o fun t => t.status.word.toNat = w

/-! ## WellFormed refuses what it should -/

theorem test_illegal_word_zero : CommandWord.legal 0x00000000#32 = false := by decide
theorem test_illegal_word_eight : CommandWord.legal 0x00000008#32 = false := by decide
theorem test_illegal_word_upper_bits : CommandWord.legal 0x00000102#32 = false := by decide
theorem test_legal_word_seven : CommandWord.legal 0x00000007#32 = true := by decide
theorem test_loadgrid_wrong_rows : (Line.loadgrid .orig 2 2 [[1, 2]]).wellFormed = false := by decide
theorem test_expectgrid_wrong_width : (Line.expectgrid .orig 2 2 [[1, 2], [3]]).wellFormed = false := by decide
theorem test_loadgrid_right_shape : (Line.loadgrid .orig 2 2 [[1, 2], [3, 4]]).wellFormed = true := by decide

/-! ## Decoding (R96: `zero` in bits 31:8, `op` in bits 7:0, written out bit by bit) -/

theorem test_decode_cfg : decode (0b000000000000000000000000#24 ++ 0b00000001#8) = .ok .cfg := by decide
theorem test_decode_enc : decode (0b000000000000000000000000#24 ++ 0b00000010#8) = .ok .enc := by decide
theorem test_decode_dec : decode (0b000000000000000000000000#24 ++ 0b00000011#8) = .ok .dec := by decide
theorem test_decode_mse : decode (0b000000000000000000000000#24 ++ 0b00000100#8) = .ok .mse := by decide
theorem test_decode_ratio : decode (0b000000000000000000000000#24 ++ 0b00000101#8) = .ok .ratio := by decide
theorem test_decode_clrerr : decode (0b000000000000000000000000#24 ++ 0b00000110#8) = .ok .clrerr := by decide
theorem test_decode_srst : decode (0b000000000000000000000000#24 ++ 0b00000111#8) = .ok .srst := by decide
theorem test_decode_0xFF : decode 0x000000FF#32 = .error .unknownOpcode := by decide
theorem test_decodeTableWord : decodeTableWord 32 2 = some .enc ∧ decodeTableWord 32 0x102 = none := by decide

/-- The instruction placed where the next step fetches is the one that runs (ENC with nothing configured: V13). -/
theorem test_withFetchWord : statusAfter (step (State.reset.withFetchWord 32 2)) 0x00021100 = true := by decide

/-! ## The commands -/

/-- R168: MODE_REQ 1, LEVELS_REQ 8 latches (1, 8, 32); V7: STATUS 0x00010002. -/
theorem test_cfg_latches :
    after (exec .cfg { State.reset with modeReq := 1#32, levelsReq := 8#32 }) (fun t =>
      t.cfgMode = .order2 ∧ t.cfgLevels = 8#32 ∧ t.cfgStep = 32#9 ∧ t.status.word = 0x00010002#32) = true := by decide

/-- S3: `configure order1, -1` over a valid configuration: STATUS 0x00011100, the configuration dropped. -/
theorem test_cfg_negative_levels :
    after (exec .cfg { configured .order2 8 with modeReq := 0#32, levelsReq := 0xFFFFFFFF#32 }) (fun t =>
      t.cfgStep = 0#9 ∧ t.status.word = 0x00011100#32) = true := by decide

/-- P1 line 11: STATUS 0x00020003. -/
theorem test_enc_accepted :
    statusAfter (exec .enc (withOrig (configured .order1 16) 2 2 [10, 10, 10, 10])) 0x00020003 = true := by decide

/-- V8 trace of E3, cell (0,2): p = 127, e = -127, q = -2, pattern 0xFFFE; then the cursor is (1,0). -/
theorem test_enc_cell :
    after (engineTurn (inPass (withOrig (configured .adaptive 4) 2 3 [0, 255, 0, 255, 128, 64]) .enc 0 2)) (fun t =>
      t.readResid 2 = 0xFFFE#16 ∧ t.curI = 1#16 ∧ t.curJ = 0#16 ∧ t.status.busy = true) = true := by decide

/-- V13: RESID 2×0 with a valid configuration is InputError. -/
theorem test_dec_empty :
    statusAfter (exec .dec (withResid (configured .order1 16) 2 0 [])) 0x00032202 = true := by decide

/-- P6 trace, the last cell (1,2): resid 2, p = 0 + 255 − 0, d = 512, stored 255; RECON takes 2×3; STATUS 0x00030002. -/
theorem test_dec_last_cell :
    after (engineTurn (inPass (withRecon (withResid (configured .order2 1) 2 3 [32767, -32768, 1, -1, 0, 2])
        0 0 [255, 0, 255, 0, 0, 0x5A]) .dec 1 2)) (fun t =>
      t.readRecon 5 = 255#8 ∧ t.reconH = 2#16 ∧ t.reconW = 3#16 ∧ t.curI = 2#16 ∧ t.curJ = 0#16 ∧
        t.status.word = 0x00030002#32) = true := by decide

/-- V9: 0×5 against 0×7 is a mismatch before it is empty. -/
theorem test_mse_mismatch_first :
    statusAfter (exec .mse (withRecon (withOrig State.reset 0 5 []) 0 7 [])) 0x00044300 = true := by decide

/-- P7, the MSE table: step 4 (the last) makes SSE 144, NPIX 4, MSE_Q 0x4042000000000000, STATUS 0x00040006. -/
theorem test_mse_last_cell :
    after (engineTurn { inPass (withRecon (withOrig (configured .order1 16) 2 2 [10, 10, 10, 10]) 2 2
        [16, 16, 16, 16]) .mse 1 1 with sse := 108#64 }) (fun t =>
      t.sse = 144#64 ∧ t.npix = 4#32 ∧ t.mseQ = 0x4042000000000000#64 ∧ t.status.word = 0x00040006#32) = true := by
  decide

/-- V8 row E10: bits per residual 5, 24 and 15 bits, quotient 8/5. -/
theorem test_ratio :
    after (exec .ratio (withOrig (configured .order2 32) 3 1 [5, 250, 5])) (fun t =>
      t.ratioBpr = 5#5 ∧ t.ratioNum = 24#64 ∧ t.ratioDen = 15#64 ∧ t.ratioQ = 0x3FF999999999999A#64) = true := by decide

/-- P4: one level gives RATIO_DEN 0 and RATIO_DIV0 = 1, no error (R238). -/
theorem test_ratio_one_level :
    after (exec .ratio (withOrig (configured .adaptive 1) 2 2 [200, 50, 60, 220])) (fun t =>
      t.ratioDen = 0#64 ∧ t.ratioQ = 0x7FF0000000000000#64 ∧ t.status.word = 0x0005001A#32) = true := by decide

/-- V11: `clrerr` clears ERRS and keeps CFG_VALID. -/
theorem test_clrerr :
    statusAfter (exec .clrerr { configured .order1 16 with
      status := { Status.reset with cfgValid := true, result := 4#4, errs := 0xA#4, lastop := 0xFF#8 } }) 0x00060002
      = true := by decide

/-- V11: `srst` gives STATUS 0x00000000 and keeps the memories. -/
theorem test_srst :
    after (exec .srst (withOrig (configured .order1 16) 1 1 [10])) (fun t =>
      t.status.word = 0#32 ∧ t.origH = 0#16 ∧ t.cfgStep = 0#9 ∧ t.readOrig 0 = 10#8) = true := by decide

/-- V11: `cmd 0x102` is IllegalCommand with LASTOP 0x02 and no ENC. -/
theorem test_illegal_command : statusAfter (acceptWord 0x102#32 (configured .order1 16)) 0x00028402 = true := by decide

/-! ## Transactions and scripts -/

/-- V12: `wr ORIG_H, 0x12345` stores 0x2345. -/
theorem test_wr_keeps_low_bits :
    after (transact (.wr 4#16 0x12345#64) State.reset) (fun t => t.readNumber 4#16 = 0x2345#64) = true := by decide

/-- V12: `wm RESID, 7, -3` stores 0xFFFD, read as -3. -/
theorem test_wm_resid :
    after (transact (.wm .resid 7#32 0xFFFFFFFFFFFFFFFD#64) State.reset) (fun t =>
      t.readResid 7 = 0xFFFD#16 ∧ t.residInt 7 = -3) = true := by decide

/-- V12: `wr STATUS, 0xFFFFFFFF` is ignored, and `rd 22` reads 0. -/
theorem test_read_only :
    after (transact (.wr 1#16 0xFFFFFFFF#64) (configured .order1 16)) (fun t =>
      t = configured .order1 16 ∧ t.readNumber 22#16 = 0#64) = true := by decide

/-- P6: the encodings of `configure order2, 1`, with the name in any case (R107). -/
theorem test_configure_line :
    lineEvents (.configure ['O', 'r', 'd', 'e', 'r', '2'] 1) =
      [.host (.wr 2#16 1#64), .host (.wr 3#16 1#64), .host (.wr 0#16 1#64)] := by decide

/-- P1: lines 1 to 6 are `loadgrid ORIG, 2, 2, ...`. -/
theorem test_loadgrid_line :
    lineEvents (.loadgrid .orig 2 2 [[10, 11], [12, 13]]) =
      [.host (.wr 4#16 2#64), .host (.wr 5#16 2#64), .host (.wm .orig 0#32 10#64), .host (.wm .orig 1#32 11#64),
       .host (.wm .orig 2#32 12#64), .host (.wm .orig 3#32 13#64)] := by decide

/-- R103: one line of text with a comment, a hexadecimal and a negative number. -/
theorem test_assemble_lines :
    assemble "WM resid, 0x7, -3 # cell\n\nexpect STATUS.RESULT, 0".toList =
      some [.wm .resid 7#32 (-3), .check (.field .result 0)] := by decide

/-- R108: a listed grid of the wrong shape is refused. -/
theorem test_assemble_grid :
    assemble "loadgrid ORIG, 1, 2, [[10,20]]".toList = some [.loadgrid .orig 1 2 [[10, 20]]] ∧
      assemble "loadgrid ORIG, 2, 2, [[10,20]]".toList = none := by decide

/-- R107: any string is a name; those that are none of the three give 0xFFFFFFFF. -/
theorem test_assemble_names :
    (["2d", "3", "order-1", "Order2", "a, [b]"].map fun n => assemble ("configure ".toList ++ n.toList ++ ", -8".toList)) =
      (["2d", "3", "order-1", "Order2", "a, [b]"].map fun n => some [.configure n.toList (-8)]) ∧
    (["2d", "3", "order-1", "Order2", "a, [b]"].map fun n => modeCode n.toList) =
      [0xFFFFFFFF#32, 0xFFFFFFFF#32, 0xFFFFFFFF#32, 1#32, 0xFFFFFFFF#32] := by decide

/-- P3: `pipeline ADAPTIVE, 4`, with a comment. -/
theorem test_assemble_pipeline :
    assemble "pipeline ADAPTIVE, 4 # step 64".toList = some [.pipeline "ADAPTIVE".toList 4] := by decide

/-- R108: H = 0 lists no row and W = 0 lists empty rows; a row is not listed where H = 0. -/
theorem test_assemble_empty_grids :
    assemble "loadgrid ORIG, 0, 5, []".toList = some [.loadgrid .orig 0 5 []] ∧
      assemble "expectgrid RESID, 2, 0, [[],[]]".toList = some [.expectgrid .resid 2 0 [[], []]] ∧
      assemble "loadgrid ORIG, 0, 0, [[]]".toList = none ∧ assemble "loadgrid ORIG, 1, 1, [[1,]]".toList = none := by
  decide

/-- P8 (c): `enc` at once followed by `wr LEVELS_REQ, 99`: dropped with no engine step between, performed after the one step
of a 1×1 pass. -/
theorem test_interleaving :
    let s := withOrig (configured .order1 16) 1 1 [10]
    after (steps 2 (s.withInterleaving [.command .enc, .wr 3#16 99] [])) (fun t => t.levelsReq = 0#32) = true ∧
      after (steps 3 (s.withInterleaving [.command .enc, .wr 3#16 99] [0, 1])) (fun t => t.levelsReq = 99#32) = true := by
  decide

/-! ## The datapath -/

/-- V1. -/
theorem test_stepOf :
    [1, 3, 10, 16, 31, 65, 86, 255, 256, 2147483647].map stepOf = [256, 86, 26, 16, 9, 4, 3, 2, 1, 1] := by decide

/-- V2, s = 16 and s = 3: the vectors that tell the roundings apart. -/
theorem test_quant :
    [8, 10, 24, -8, -9, -24, -25, -248].map (quant · 16) = [1, 1, 2, 0, -1, -1, -2, -15] ∧
      [1, 2, -1, -2].map (quant · 3) = [0, 1, 0, -1] := by decide

/-- V3. -/
theorem test_dequant_clamp :
    dequant (-2) 64 = -128 ∧ dequant 32767 256 = 8388352 ∧
      [-255, -1, 0, 127, 255, 256, 767].map clamp = [0, 0, 0, 127, 255, 255, 255] := by decide

/-- V4: the grid 1..9, at (1,0), (1,1) and (2,2) for each mode. -/
theorem test_predict :
    let g : Nat → Int := fun a => a + 1
    [PredictorMode.order1, .order2, .adaptive].map (fun m => (predict g 1 0 3 m, predict g 1 1 3 m, predict g 2 2 3 m)) =
      [(0, 4, 8), (1, 5, 9), (0, 3, 7)] := by decide

/-- V5. -/
theorem test_clog2 :
    [1, 2, 3, 5, 8, 9, 256, 257].map clog2 = [0, 1, 2, 3, 3, 4, 8, 9] := by decide

/-- V6: 2/6, 38/3, 24/15, 32/124 and the largest MSE. -/
theorem test_fquot :
    fquot 2 6 = 0x3FD5555555555555#64 ∧ fquot 38 3 = 0x4029555555555555#64 ∧ fquot 24 15 = 0x3FF999999999999A#64 ∧
      fquot 32 124 = 0x3FD0842108421084#64 ∧ fquot 279271725530625 4294836225 = 0x40EFC02000000000#64 := by decide

/-- V6: n = 0, an exact value, and d = 0. -/
theorem test_fquot_ends :
    fquot 0 1 = 0#64 ∧ fquot 3276 6 = 0x4081100000000000#64 ∧ fquot 8 0 = 0x7FF0000000000000#64 := by decide

/-! ## Witnesses: states and operands that meet the hypotheses of the statements, one per clause -/

/-- A state of a run in the middle of an MSE pass over a 2×2 grid: cell (0,1), one square of 36 summed (P7). -/
def midMse : State :=
  { inPass (withRecon (withOrig (configured .order1 16) 2 2 [10, 10, 10, 10]) 2 2 [16, 16, 16, 16]) .mse 0 1 with
    sse := 36#64 }

/-- A grid of one row and two cells under a configuration, idle. -/
def pair (m : PredictorMode) (l : Nat) : State := withOrig (configured m l) 1 2 [10, 10]

theorem test_witness_DecoderIsTotalAndExact :
    (∀ w ∈ [0x00000001#32, 0x00000007#32], w.toNat / 256 = 0 ∧ 1 ≤ w.toNat % 256 ∧ w.toNat % 256 ≤ 7) ∧
    ∀ w ∈ [0x00000000#32, 0x00000008#32, 0x00000101#32, 0xFFFFFFFF#32],
      ¬ (w.toNat / 256 = 0 ∧ 1 ≤ w.toNat % 256 ∧ w.toNat % 256 ≤ 7) := by simp

theorem test_witness_DecodeAndEncodeAgree :
    ∀ i ∈ [Instr.cfg, .enc, .dec, .mse, .ratio, .clrerr, .srst], i.wellFormed = true := by decide

theorem test_witness_StepRunsDecodedCommand :
    (doing State.reset (.host (.wr 0#16 0x100000002#64))).script = .host (.wr 0#16 0x100000002#64) :: [] ∧
    (doing State.reset (.host (.wr 0#16 0x100000002#64))).status.busy = false ∧ Instr.enc.wellFormed = true ∧
    decode (BitVec.ofNat 32 ((0x100000002#64).toNat % 2 ^ 32)) = .ok .enc := by decide

theorem test_witness_IllegalCommandIsRaised :
    ∀ v ∈ [0x0#64, 0x8#64, 0x102#64, 0x1FFFFFFFF#64],
      (doing State.reset (.host (.wr 0#16 v))).script = .host (.wr 0#16 v) :: [] ∧
      (doing State.reset (.host (.wr 0#16 v))).status.busy = false ∧
      ¬ (v.toNat % 2 ^ 32 / 256 = 0 ∧ 1 ≤ v.toNat % 256 ∧ v.toNat % 256 ≤ 7) :=
  fun v h => ⟨rfl, rfl, by revert v; simp⟩

theorem test_witness_BusyIgnoresHostWrites :
    (doing midMse (.host (.wr 0#16 7#64))).script = .host (.wr 0#16 7#64) :: [] ∧
    (doing midMse (.host (.wm .resid 3#32 7#64))).script = .host (.wm .resid 3#32 7#64) :: [] ∧
    midMse.status.busy = true := by decide

/-- CMD, the read-only STATUS, the ends of the writable registers of each width, 10 and 22; idle and busy. -/
theorem test_witness_RegisterWriteTransaction :
    (doing State.reset (.host (.wr 0#16 5#64))).script = .host (.wr 0#16 5#64) :: [] ∧
    (doing State.reset (.host (.wr 1#16 5#64))).script = .host (.wr 1#16 5#64) :: [] ∧
    (doing State.reset (.host (.wr 2#16 5#64))).script = .host (.wr 2#16 5#64) :: [] ∧
    (doing State.reset (.host (.wr 3#16 5#64))).script = .host (.wr 3#16 5#64) :: [] ∧
    (doing State.reset (.host (.wr 4#16 5#64))).script = .host (.wr 4#16 5#64) :: [] ∧
    (doing State.reset (.host (.wr 9#16 5#64))).script = .host (.wr 9#16 5#64) :: [] ∧
    (doing State.reset (.host (.wr 10#16 5#64))).script = .host (.wr 10#16 5#64) :: [] ∧
    (doing State.reset (.host (.wr 22#16 5#64))).script = .host (.wr 22#16 5#64) :: [] ∧
    (doing State.reset (.host (.wr 0#16 5#64))).status.busy = false ∧
    (doing State.reset (.host (.wr 22#16 5#64))).status.busy = false ∧
    (doing midMse (.host (.wr 2#16 5#64))).script = .host (.wr 2#16 5#64) :: [] ∧
    (doing midMse (.host (.wr 2#16 5#64))).status.busy = true :=
  ⟨rfl, rfl, rfl, rfl, rfl, rfl, rfl, rfl, rfl, rfl, rfl, rfl⟩

/-- The first and the last cell of each space; idle and busy. -/
theorem test_witness_CellWriteTransaction :
    (doing State.reset (.host (.wm .orig 0#32 5#64))).script = .host (.wm .orig 0#32 5#64) :: [] ∧
    (doing State.reset (.host (.wm .orig 0xFFFFFFFF#32 5#64))).script = .host (.wm .orig 0xFFFFFFFF#32 5#64) :: [] ∧
    (doing State.reset (.host (.wm .resid 0#32 5#64))).script = .host (.wm .resid 0#32 5#64) :: [] ∧
    (doing State.reset (.host (.wm .resid 0xFFFFFFFF#32 5#64))).script = .host (.wm .resid 0xFFFFFFFF#32 5#64) :: [] ∧
    (doing State.reset (.host (.wm .recon 0#32 5#64))).script = .host (.wm .recon 0#32 5#64) :: [] ∧
    (doing State.reset (.host (.wm .recon 0xFFFFFFFF#32 5#64))).script = .host (.wm .recon 0xFFFFFFFF#32 5#64) :: [] ∧
    (doing State.reset (.host (.wm .orig 0#32 5#64))).status.busy = false ∧
    (doing midMse (.host (.wm .orig 0#32 5#64))).script = .host (.wm .orig 0#32 5#64) :: [] ∧
    (doing midMse (.host (.wm .orig 0#32 5#64))).status.busy = true :=
  ⟨rfl, rfl, rfl, rfl, rfl, rfl, rfl, rfl, rfl⟩

theorem test_witness_RegisterReadTransaction :
    (doing midMse (.host (.rd 0#16))).script = .host (.rd 0#16) :: [] ∧
    (doing midMse (.host (.rd 1#16))).script = .host (.rd 1#16) :: [] ∧
    (doing midMse (.host (.rd 21#16))).script = .host (.rd 21#16) :: [] ∧
    (doing midMse (.host (.rd 22#16))).script = .host (.rd 22#16) :: [] ∧
    (doing midMse (.host (.rd 65535#16))).script = .host (.rd 65535#16) :: [] :=
  ⟨rfl, rfl, rfl, rfl, rfl⟩

theorem test_witness_CellReadTransaction :
    (doing midMse (.host (.rm .orig 0#32))).script = .host (.rm .orig 0#32) :: [] ∧
    (doing midMse (.host (.rm .resid 0#32))).script = .host (.rm .resid 0#32) :: [] ∧
    (doing midMse (.host (.rm .recon 0#32))).script = .host (.rm .recon 0#32) :: [] :=
  ⟨rfl, rfl, rfl⟩

theorem test_witness_EngineMovesOnlyWhenBusy :
    midMse.script = [] ∧ midMse.status.busy = true ∧ State.reset.script = [] ∧ State.reset.status.busy = false ∧
    (doing midMse .engine).script = .engine :: [] ∧ (doing State.reset .engine).script = .engine :: [] := by decide

theorem test_witness_CompleteRecordsOutcome : (0#4).toNat ≤ 4 ∧ (4#4).toNat ≤ 4 := by decide

theorem test_witness_ResetWorksInEveryState :
    (doing midMse .reset).script = .reset :: [] ∧ (doing midMse .reset).status.busy = true := by decide

/-- The two clauses that ask for BUSY = 1 and for BUSY = 0. -/
theorem test_witness_SrstRestoresResetRegisters :
    midMse.status.busy = true ∧ (configured .order1 16).status.busy = false := by decide

theorem test_witness_ClrerrClearsStickyBits : (configured .order1 16).status.busy = false := by decide

theorem test_witness_ErrorsLeaveNoTrace :
    State.reset.status.busy = false ∧
    after (exec .enc State.reset) (fun t => t.status.busy = false ∧ t.status.result ≠ 0#4) = true := by decide

/-- Both clauses: `configure order1, 16` (step 16) and `configure order2, 1` (step 256); a mode of 3, levels of 0 and −1. -/
theorem test_witness_CfgLatchesOrDrops :
    State.reset.status.busy = false ∧
    ((0#32).toNat = PredictorMode.order1.code.toNat ∧ 1 ≤ (16#32).toInt ∧ 256 ≤ 16 * (16#32).toNat ∧
      (16 - 1) * (16#32).toNat < 256) ∧
    ((1#32).toNat = PredictorMode.order2.code.toNat ∧ 1 ≤ (1#32).toInt ∧ 256 ≤ 256 * (1#32).toNat ∧
      (256 - 1) * (1#32).toNat < 256) ∧
    2 < (3#32).toNat ∧ (0#32).toInt ≤ 0 ∧ (0xFFFFFFFF#32).toInt ≤ 0 := by decide

theorem test_witness_OnlyCfgAndResetChangeConfiguration :
    after (step (doing { State.reset with levelsReq := 16#32 } (.host (.wr 0#16 1#64)))) (fun t =>
      t.cfgLevels ≠ State.reset.cfgLevels) = true ∧
    after (step (doing (configured .order1 16) .reset)) (fun t => t.cfgLevels = 0#32) = true := by decide

/-- The script of S3's `configure bogus, 8` and the three commands, over a valid configuration and a loaded grid. -/
theorem test_witness_UnknownNameBlocksThePipeline :
    let s := (pair .order1 16).withScript [.configure "bogus".toList 8, .command .enc, .command .dec, .command .ratio]
    s.status.busy = false ∧ "bogus".toList.map Char.toLower ≠ "order1".toList ∧
    "bogus".toList.map Char.toLower ≠ "order2".toList ∧ "bogus".toList.map Char.toLower ≠ "adaptive".toList ∧
    s.script = lineEvents (.configure "bogus".toList 8) ++
      scriptEvents [.command .enc, .command .dec, .command .ratio] ++ [] := by decide

/-- The three clauses: no configuration; an empty grid; a pass starts. -/
theorem test_witness_EncAcceptance :
    State.reset.status.busy = false ∧ State.reset.status.cfgValid = false ∧
    (configured .order1 16).status.busy = false ∧ (configured .order1 16).status.cfgValid = true ∧
    (configured .order1 16).origH.toNat = 0 ∧
    (pair .order1 16).status.busy = false ∧ (pair .order1 16).status.cfgValid = true ∧
    1 ≤ (pair .order1 16).origH.toNat ∧ 1 ≤ (pair .order1 16).origW.toNat := by decide

theorem test_witness_DecAcceptance :
    (withResid (configured .order1 16) 2 0 []).residW.toNat = 0 ∧
    (withResid (configured .order1 16) 1 1 [1]).status.busy = false ∧
    (withResid (configured .order1 16) 1 1 [1]).status.cfgValid = true ∧
    1 ≤ (withResid (configured .order1 16) 1 1 [1]).residH.toNat ∧
    1 ≤ (withResid (configured .order1 16) 1 1 [1]).residW.toNat := by decide

theorem test_witness_MseAcceptance :
    (withOrig State.reset 2 2 []).origH ≠ (withOrig State.reset 2 2 []).reconH ∧
    State.reset.origH = State.reset.reconH ∧ State.reset.origW = State.reset.reconW ∧ State.reset.origH.toNat = 0 ∧
    (withRecon (withOrig State.reset 1 1 [3]) 1 1 [4]).origH = (withRecon (withOrig State.reset 1 1 [3]) 1 1 [4]).reconH ∧
    (withRecon (withOrig State.reset 1 1 [3]) 1 1 [4]).origW = (withRecon (withOrig State.reset 1 1 [3]) 1 1 [4]).reconW ∧
    1 ≤ (withRecon (withOrig State.reset 1 1 [3]) 1 1 [4]).origH.toNat ∧
    1 ≤ (withRecon (withOrig State.reset 1 1 [3]) 1 1 [4]).origW.toNat := by decide

theorem config_of (m : PredictorMode) : ConfigInv (configured m 16) ∧ ConfigInv (pair m 16) := by
  cases m <;> unfold ConfigInv <;> decide

/-- A cell that is not the last, and the last one. -/
theorem test_witness_EncCellStep :
    ∀ j ∈ [0, 1],
      (inPass (pair .order1 16) .enc 0 j).status.busy = true ∧ (inPass (pair .order1 16) .enc 0 j).status.lastop = 0x02#8 ∧
      (inPass (pair .order1 16) .enc 0 j).status.cfgValid = true ∧ ConfigInv (inPass (pair .order1 16) .enc 0 j) ∧
      (inPass (pair .order1 16) .enc 0 j).curI.toNat < 1 ∧ (inPass (pair .order1 16) .enc 0 j).curJ.toNat < 2 ∧
      RoundsHalfUp ((inPass (pair .order1 16) .enc 0 j).origInt j -
        predict (inPass (pair .order1 16) .enc 0 j).origInt 0 j 2 .order1) 16 (1 - j) := by
  unfold ConfigInv RoundsHalfUp; decide

theorem test_witness_EncPassComputesResiduals :
    (pair .order1 16).status.busy = false ∧ (pair .order1 16).status.cfgValid = true ∧ ConfigInv (pair .order1 16) ∧
    1 ≤ (pair .order1 16).origH.toNat ∧ 1 ≤ (pair .order1 16).origW.toNat := by
  unfold ConfigInv; decide

theorem test_witness_StoredResidualReadsBack : 1 ≤ (configured .order2 256).cfgStep.toNat := by decide

theorem test_witness_DecCellStep :
    ∀ j ∈ [0, 1],
      (inPass (withResid (configured .order1 16) 1 2 [1, 0]) .dec 0 j).status.busy = true ∧
      (inPass (withResid (configured .order1 16) 1 2 [1, 0]) .dec 0 j).status.lastop = 0x03#8 ∧
      (inPass (withResid (configured .order1 16) 1 2 [1, 0]) .dec 0 j).curI.toNat < 1 ∧
      (inPass (withResid (configured .order1 16) 1 2 [1, 0]) .dec 0 j).curJ.toNat < 2 := by decide

theorem test_witness_DecPassRebuildsGrid :
    (withResid (configured .order1 16) 1 2 [1, 0]).status.busy = false ∧
    (withResid (configured .order1 16) 1 2 [1, 0]).status.cfgValid = true ∧
    1 ≤ (withResid (configured .order1 16) 1 2 [1, 0]).residH.toNat ∧
    1 ≤ (withResid (configured .order1 16) 1 2 [1, 0]).residW.toNat := by decide

/-- Two states that agree on ORIG and the configuration and differ in RESID. -/
theorem test_witness_EncodeThenDecodeIsDeterministic :
    let s := pair .order2 16
    let s' := { pair .order2 16 with resid := cells [5] }
    s ≠ s' ∧ s.status.busy = false ∧ s'.status.busy = false ∧ s.status.cfgValid = true ∧ s'.status.cfgValid = true ∧
    ConfigInv s ∧ ConfigInv s' ∧ s'.cfgMode = s.cfgMode ∧ s'.cfgStep = s.cfgStep ∧ s'.origH = s.origH ∧
    s'.origW = s.origW ∧ 1 ≤ s.origH.toNat ∧ 1 ≤ s.origW.toNat ∧
    ∀ a, a < s.origH.toNat * s.origW.toNat → s'.readOrig a = s.readOrig a := by
  refine ⟨by decide, rfl, rfl, rfl, rfl, (config_of _).2, (config_of _).2, rfl, rfl, rfl, rfl, by decide, by decide, ?_⟩
  exact fun _ _ => rfl

theorem test_witness_StepOneIsLossless :
    (pair .order2 256).status.busy = false ∧ (pair .order2 256).status.cfgValid = true ∧
    (pair .order2 256).cfgStep = 1#9 ∧ 1 ≤ (pair .order2 256).origH.toNat ∧ 1 ≤ (pair .order2 256).origW.toNat := by
  decide

theorem test_witness_ConstantGridDecodesToOneValue :
    (pair .order1 16).status.busy = false ∧ (pair .order1 16).status.cfgValid = true ∧ ConfigInv (pair .order1 16) ∧
    (pair .order1 16).cfgMode = .order1 ∧ 1 ≤ (pair .order1 16).origH.toNat ∧ 1 ≤ (pair .order1 16).origW.toNat ∧
    (∀ a, a < 2 → (pair .order1 16).readOrig a = 10#8) ∧ RoundsHalfUp 10 16 1 := by
  unfold ConfigInv RoundsHalfUp; decide

/-- The invariants hold of a state in the middle of a pass. -/
theorem midMse_inv : Inv midMse where
  memory := by unfold MemoryInv Memory.wf; decide
  config := by unfold ConfigInv; decide
  pass := by unfold PassInv; decide
  outcome := by unfold OutcomeInv; decide
  mse := by unfold MseInv; decide
  ratio := by unfold RatioInv; decide

theorem test_witness_MseCellStep :
    midMse.status.busy = true ∧ midMse.status.lastop = 0x04#8 ∧ PassInv midMse := ⟨rfl, rfl, midMse_inv.pass⟩

/-- The last cell of the pass. -/
theorem test_witness_MseCellStep_last :
    let s := { midMse with curI := 1#16, sse := 108#64 }
    s.status.busy = true ∧ s.status.lastop = 0x04#8 ∧ PassInv s ∧ s.curI.toNat + 1 = s.origH.toNat ∧
      s.curJ.toNat + 1 = s.origW.toNat := by unfold PassInv; decide

theorem test_witness_MsePassSumsSquares :
    let s := withRecon (withOrig State.reset 1 1 [3]) 1 1 [4]
    s.status.busy = false ∧ s.origH = s.reconH ∧ s.origW = s.reconW ∧ 1 ≤ s.origH.toNat ∧ 1 ≤ s.origW.toNat := by decide

/-- 16 levels need 4 bits. -/
theorem test_witness_RatioComputesBitCounts :
    State.reset.status.cfgValid = false ∧ (configured .order1 16).origH.toNat = 0 ∧
    (pair .order1 16).status.busy = false ∧ (pair .order1 16).status.cfgValid = true ∧ ConfigInv (pair .order1 16) ∧
    1 ≤ (pair .order1 16).origH.toNat ∧ 1 ≤ (pair .order1 16).origW.toNat ∧
    (pair .order1 16).cfgLevels.toNat ≤ 2 ^ 4 ∧ ∀ c, (pair .order1 16).cfgLevels.toNat ≤ 2 ^ c → 4 ≤ c := by
  refine ⟨rfl, rfl, rfl, rfl, (config_of _).2, by decide, by decide, by decide, fun c h => ?_⟩
  by_contra hc
  have h16 : 16 ≤ 2 ^ c := h
  have : c < 4 := by omega
  interval_cases c <;> omega

theorem test_witness_RatioWithOneLevel :
    (pair .adaptive 1).status.busy = false ∧ (pair .adaptive 1).status.cfgValid = true ∧
    (pair .adaptive 1).cfgLevels = 1#32 ∧ 1 ≤ (pair .adaptive 1).origH.toNat ∧ 1 ≤ (pair .adaptive 1).origW.toNat := by
  decide

theorem test_witness_PassTakesOneStepPerCell :
    Inv midMse ∧ midMse.status.busy = true ∧ midMse.cellsLeft = 3 := ⟨midMse_inv, rfl, by decide⟩

/-- One step into a pass of two cells, for ENC and for DEC. -/
theorem test_witness_PartialGridIsVisible :
    (let s := pair .order1 16
     s.status.busy = false ∧ s.status.cfgValid = true ∧ ConfigInv s ∧ 1 ≤ s.origH.toNat ∧ 1 ≤ s.origW.toNat ∧
      1 ≤ s.origH.toNat * s.origW.toNat ∧ ∃ v t, commandAndTurns .enc 1 s = .next v ∧ commandAndTurns .enc 2 s = .next t) ∧
    (let s := withResid (configured .order1 16) 1 2 [1, 0]
     s.status.busy = false ∧ s.status.cfgValid = true ∧ ConfigInv s ∧ 1 ≤ s.residH.toNat ∧ 1 ≤ s.residW.toNat ∧
      1 ≤ s.residH.toNat * s.residW.toNat ∧
      ∃ v t, commandAndTurns .dec 1 s = .next v ∧ commandAndTurns .dec 2 s = .next t) :=
  ⟨⟨rfl, rfl, (config_of _).2, by decide, by decide, by decide, _, _, rfl, rfl⟩,
   ⟨rfl, rfl, (config_of _).1, by decide, by decide, by decide, _, _, rfl, rfl⟩⟩

/-- A read, an ignored write and a turn before the next turn, in a pass with three cells left. -/
theorem test_witness_HostCannotDisturbAPass :
    let es : List Event := [.host (.rd 1#16), .engine, .host (.wr 0#16 7#64)]
    let s := { midMse with script := es ++ .engine :: [] }
    s.status.busy = true ∧ s.script = es ++ .engine :: [] ∧ es.all turnOrTransaction = true ∧
    ∃ u u', engineSteps (engineTurns es) s = .next u ∧ u.status.busy = true ∧
      engineSteps (engineTurns es + 1) s = .next u' :=
  ⟨rfl, rfl, rfl, _, _, rfl, rfl, rfl⟩

theorem test_witness_WaitEndsWhenThePassDoes :
    Inv (doing midMse .wait) ∧ (doing midMse .wait).script = .wait :: [] ∧ (doing midMse .wait).cellsLeft = 3 :=
  ⟨⟨midMse_inv.memory, midMse_inv.config, midMse_inv.pass, midMse_inv.outcome, midMse_inv.mse, midMse_inv.ratio⟩,
    rfl, by decide⟩

theorem test_witness_EveryStepKeepsInvariants : Inv midMse ∧ ∃ t, step midMse = .next t := ⟨midMse_inv, _, rfl⟩

theorem test_witness_NoStepStops : Inv midMse := midMse_inv

theorem test_witness_SpacesHaveTheirWriters :
    (∃ t, step (doing midMse .engine) = .next t) ∧
    after (step (doing (withOrig State.reset 1 1 [3]) (.host (.wm .orig 0#32 4#64)))) (fun t => t.readOrig 0 ≠ 3#8) = true ∧
    after (step (inPass (withRecon (withResid (configured .order1 16) 1 1 [1]) 0 0 [0]) .dec 0 0)) (fun t =>
      t.readRecon 0 ≠ 0#8) = true :=
  ⟨⟨_, rfl⟩, by decide, by decide⟩

/-- An odd and an even step, a tie and none; the bounds of the level count. -/
theorem test_witness_QuantAndStepOf :
    1 ≤ 3 ∧ 1 ≤ 16 ∧ (2 * 8 : Int) = (2 * 0 + 1) * (16 : Nat) ∧ (2 * (-8) : Int) = (2 * (-1) + 1) * (16 : Nat) ∧
    1 ≤ 1 ∧ 1 ≤ 2147483647 ∧ RoundsHalfUp (-8) 16 0 := by unfold RoundsHalfUp; decide

theorem test_witness_Prediction :
    1 ≤ 1 ∧ (0 < 3 ∧ ∀ a, a < 1 * 3 + 0 → (fun b : Nat => (b : Int)) a = (fun b : Nat => if b < 3 then (b : Int) else 7) a) :=
  ⟨le_rfl, by decide, fun a h => by simp only; rw [if_pos (by omega)]⟩

theorem test_witness_ClampSaturates : (-1 : Int) < 0 ∧ 255 < (256 : Int) ∧ 0 ≤ (255 : Int) ∧ (255 : Int) ≤ 255 := by decide

theorem test_witness_Clog2IsLeastExponent : 1 ≤ 1 ∧ 5 ≤ 2 ^ 3 ∧ 16 = 2 ^ 4 ∧ 2147483648 ≤ 2 ^ 31 := by decide

/-- The largest operands, and a pattern to compare with. -/
theorem test_witness_FquotIsCorrectlyRounded :
    0 < 279271725530625 ∧ 0 < 4294836225 ∧ 279271725530625 < 2 ^ 64 ∧ 4294836225 < 2 ^ 64 ∧
      (0x40EFC02000000001#64).toNat < 0x7FF0000000000000 := by decide

theorem test_witness_ConfigureLineExpansion :
    ['O', 'R', 'D', 'E', 'R', '1'].map Char.toLower = "order1".toList ∧
    "bogus".toList.map Char.toLower ∉ ["order1".toList, "order2".toList, "adaptive".toList] := by decide

/-- Each space; a negative value among the residuals. -/
theorem test_witness_LoadgridPlacesTheGrid :
    gridShape 2 1 [[-3], [7]] = true ∧ 2 < 65536 ∧ 1 < 65536 ∧ State.reset.status.busy = false ∧
    (State.reset.withScript [.loadgrid .resid 2 1 [[-3], [7]]]).script =
      lineEvents (.loadgrid .resid 2 1 [[-3], [7]]) ++ [] ∧
    ([[-3], [7]] : List (List Int))[1]? = some [7] ∧ ([7] : List Int)[0]? = some 7 :=
  ⟨rfl, by decide, by decide, rfl, rfl, rfl, rfl⟩

theorem test_witness_ComparingReadsCompare :
    ({ midMse with script := [.check (.field .busy 1)] } : State).script = .check (.field .busy 1) :: [] ∧
    ({ midMse with script := [.check (.reg 15#16 36)] } : State).script = .check (.reg 15#16 36) :: [] ∧
    ({ midMse with script := [.check (.cell .orig 0#32 10)] } : State).script = .check (.cell .orig 0#32 10) :: [] ∧
    ({ midMse with script := [.check (.cell .resid 0#32 (-1))] } : State).script = .check (.cell .resid 0#32 (-1)) :: [] :=
  ⟨rfl, rfl, rfl, rfl⟩

end Sys2Proof.Tests
end

section
/-! SUPPORT and proofs of the family Encoding (30_encoding.md): the fields of a command word and the decoder (R94, R95), the
two writing transactions (R91, R93), and the line `configure` (R107). -/

namespace Sys2Proof

/-! ## The fields of a command word -/

theorem toNat_opField (w : CommandWord) : (opField w).toNat = w.toNat % 256 := by
  simp [opField]

theorem opField_eq_ofNat (w : CommandWord) : opField w = BitVec.ofNat 8 w.toNat :=
  BitVec.eq_of_toNat_eq (by simp [toNat_opField])

theorem zeroField_eq_zero_iff (w : CommandWord) : zeroField w = 0#24 ↔ w.toNat / 256 = 0 := by
  have hw := w.isLt
  rw [← BitVec.toNat_inj]
  simp only [zeroField, BitVec.extractLsb'_toNat, BitVec.toNat_ofNat, Nat.shiftRight_eq_div_pow]
  omega

/-! ## The decoder -/

/-- The opcode map of R96 inverts `Instr.opcode`. -/
theorem decodeOp_eq_some_iff {op : BitVec 8} {i : Instr} : decodeOp op = some i ↔ op = i.opcode := by
  constructor
  · intro h
    unfold decodeOp at h
    split_ifs at h with h1 h2 h3 h4 h5 h6 h7 <;> cases h <;> assumption
  · rintro rfl
    cases i <;> rfl

/-- The opcodes are the bytes 0x01 to 0x07 (R95, R96). -/
theorem exists_opcode_iff {op : BitVec 8} : (∃ i : Instr, op = i.opcode) ↔ 1 ≤ op.toNat ∧ op.toNat ≤ 7 := by
  constructor
  · rintro ⟨i, rfl⟩
    cases i <;> decide
  · rintro ⟨h1, h7⟩
    have hop : op = BitVec.ofNat 8 op.toNat := by simp
    generalize op.toNat = k at hop h1 h7
    subst hop
    interval_cases k
    exacts [⟨.cfg, rfl⟩, ⟨.enc, rfl⟩, ⟨.dec, rfl⟩, ⟨.mse, rfl⟩, ⟨.ratio, rfl⟩, ⟨.clrerr, rfl⟩, ⟨.srst, rfl⟩]

/-- A word decodes to `i` iff its field `zero` is 0 and its field `op` is the opcode of `i` (R94, R95). -/
theorem decode_eq_ok_iff {w : CommandWord} {i : Instr} :
    decode w = .ok i ↔ zeroField w = 0#24 ∧ opField w = i.opcode := by
  rw [← decodeOp_eq_some_iff]
  unfold decode
  by_cases hz : zeroField w = 0#24
  · cases hop : decodeOp (opField w) <;> simp [hz]
  · simp [hz]

/-- R95's legal words are those that decode. -/
theorem exists_decode_eq_ok_iff {w : CommandWord} :
    (∃ i, decode w = .ok i) ↔ w.toNat / 256 = 0 ∧ 1 ≤ w.toNat % 256 ∧ w.toNat % 256 ≤ 7 := by
  simp only [decode_eq_ok_iff, exists_and_left, exists_opcode_iff, zeroField_eq_zero_iff, toNat_opField]

namespace Machine

/-! ## The acceptance of a command word -/

theorem acceptWord_of_decode_error {w : CommandWord} {e : DecodeError} (h : decode w = .error e) (s : State) :
    acceptWord w s = .next (illegalCommand w s) := by
  simp only [acceptWord, h]

/-- The command word of a value written to CMD: bits 63:32 are discarded (R94). -/
theorem setWidth_commandWord (v : HostValue) : v.setWidth 32 = BitVec.ofNat 32 (v.toNat % 2 ^ 32) :=
  BitVec.eq_of_toNat_eq (by simp)

/-! ## The register write -/

theorem ofNumber_number (r : Reg) : Reg.ofNumber r.number = some r := by
  cases r <;> rfl

theorem ofNumber_eq_some_iff {k : Nat} {r : Reg} : Reg.ofNumber k = some r ↔ r.number = k := by
  constructor
  · intro h
    rcases ofNumber_cases k with ⟨q, hq, hqk⟩ | ⟨hnone, _⟩
    · cases hq.symm.trans h
      exact hqk
    · cases hnone.symm.trans h
  · rintro rfl
    exact ofNumber_number r

theorem State.readNumber_of_number {n : RegNo} {r : Reg} (h : r.number = n.toNat) (s : State) :
    s.readNumber n = s.readReg r := by
  simp only [State.readNumber, ofNumber_eq_some_iff.2 h]

/-- A number that names no register reads 0 (R23 d). -/
theorem State.readNumber_of_none {n : RegNo} (h : Reg.ofNumber n.toNat = none) (s : State) : s.readNumber n = 0#64 := by
  simp only [State.readNumber, h]

/-- No register is on the host's side of the state (R20). -/
theorem State.readReg_script (s : State) (es : List Event) (r : Reg) :
    ({ s with script := es } : State).readReg r = s.readReg r := by
  cases r <;> rfl

theorem State.readNumber_script (s : State) (es : List Event) (n : RegNo) :
    ({ s with script := es } : State).readNumber n = s.readNumber n := by
  simp only [State.readNumber, State.readReg_script]

/-- What a host write leaves in another register. -/
theorem State.readReg_writeReg_of_ne (s : State) {r q : Reg} (h : q ≠ r) (v : HostValue) :
    (s.writeReg r v).readReg q = s.readReg q := by
  cases r <;> cases q <;> first | rfl | exact absurd rfl h

/-- What a host write leaves in its own register: registers 2 to 9 keep the low bits of their width (R21, R91), every other
one ignores the write (R23 b). -/
theorem State.toNat_readReg_writeReg_self (s : State) (r : Reg) (v : HostValue) :
    ((s.writeReg r v).readReg r).toNat =
      if 2 ≤ r.number ∧ r.number ≤ 9 then v.toNat % 2 ^ (if r.number ≤ 3 then 32 else 16) else (s.readReg r).toNat := by
  cases r <;> simp [State.writeReg, State.readReg, Reg.number] <;> omega

/-- A host write to a register changes no cell and nothing of the host's. -/
theorem State.writeReg_frame (s : State) (r : Reg) (v : HostValue) :
    SameCells s (s.writeReg r v) ∧ (s.writeReg r v).script = s.script ∧ (s.writeReg r v).readings = s.readings := by
  cases r <;> exact ⟨⟨fun _ => rfl, fun _ => rfl, fun _ => rfl⟩, rfl, rfl⟩

/-- The whole register file after a host write to register `n` (R91). -/
theorem State.toNat_readNumber_writeReg (s : State) {n : RegNo} {r : Reg} (hr : r.number = n.toNat) (v : HostValue)
    (k : RegNo) :
    ((s.writeReg r v).readNumber k).toNat =
      if k = n ∧ 2 ≤ n.toNat ∧ n.toNat ≤ 9 then v.toNat % 2 ^ (if n.toNat ≤ 3 then 32 else 16)
      else (s.readNumber k).toNat := by
  by_cases hkn : k = n
  · subst hkn
    simp only [State.readNumber_of_number hr, State.toNat_readReg_writeReg_self, hr, true_and]
  · rw [if_neg (fun ⟨hk, _⟩ => hkn hk)]
    rcases ofNumber_cases k.toNat with ⟨q, _, hqk⟩ | ⟨hnone, _⟩
    · have hqr : q ≠ r := by
        rintro rfl
        exact hkn (BitVec.eq_of_toNat_eq (hqk.symm.trans hr))
      rw [State.readNumber_of_number hqk, State.readNumber_of_number hqk, State.readReg_writeReg_of_ne s hqr]
    · rw [State.readNumber_of_none hnone, State.readNumber_of_none hnone]

/-! ## The writing transactions -/

theorem transact_wr_busy {s : State} (h : s.status.busy = true) (n : RegNo) (v : HostValue) :
    transact (.wr n v) s = .next s := by
  simp only [transact, h, if_true]

theorem transact_wr_reg {s : State} (h : s.status.busy = false) {n : RegNo} {r : Reg} (hr : r.number = n.toNat)
    (hn : n ≠ 0#16) (v : HostValue) : transact (.wr n v) s = .next (s.writeReg r v) := by
  have hcmd : r ≠ .cmd := by
    rintro rfl
    exact hn (BitVec.eq_of_toNat_eq hr.symm)
  simp only [transact, h, ofNumber_eq_some_iff.2 hr, Bool.false_eq_true, if_false]

theorem transact_wr_none {s : State} (h : s.status.busy = false) {n : RegNo} (hn : Reg.ofNumber n.toNat = none)
    (v : HostValue) : transact (.wr n v) s = .next s := by
  simp only [transact, h, hn]
  rfl

theorem transact_wm_busy {s : State} (h : s.status.busy = true) (sp : Space) (a : CellAddr) (v : HostValue) :
    transact (.wm sp a v) s = .next s := by
  simp only [transact, h, if_true]

theorem transact_wm_idle {s : State} (h : s.status.busy = false) (sp : Space) (a : CellAddr) (v : HostValue) :
    transact (.wm sp a v) s = .next (s.writeCell sp a v) := by
  simp [transact, h]

/-! ## The cell write -/

/-- A cell write changes the memories alone. -/
theorem State.writeCell_frame (s : State) (sp : Space) (a : CellAddr) (v : HostValue) :
    s.writeCell sp a v = { s with
      orig := (s.writeCell sp a v).orig, resid := (s.writeCell sp a v).resid, recon := (s.writeCell sp a v).recon } := by
  cases sp <;> rfl

theorem State.readCell_script (s : State) (es : List Event) (sp : Space) (a : CellAddr) :
    ({ s with script := es } : State).readCell sp a = s.readCell sp a := by
  cases sp <;> rfl

/-- A write to one space is not seen in another (R60). -/
theorem State.readCell_writeCell_of_ne (s : State) {sp sp' : Space} (h : sp' ≠ sp) (a b : CellAddr) (v : HostValue) :
    (s.writeCell sp a v).readCell sp' b = s.readCell sp' b := by
  cases sp <;> cases sp' <;> first | rfl | exact absurd rfl h

/-- A cell read in the space written (R93): the addressed cell keeps the low bits, every other one what it had. -/
theorem State.toNat_readCell_writeCell_self (s : State) (sp : Space) (a b : CellAddr) (v : HostValue) :
    ((s.writeCell sp a v).readCell sp b).toNat =
      if b = a then v.toNat % 2 ^ (if sp = .resid then 16 else 8) else (s.readCell sp b).toNat := by
  by_cases hb : b = a
  · cases sp <;>
      simp [State.writeCell, State.readCell, State.readOrig_writeOrig, State.readResid_writeResid,
        State.readRecon_writeRecon, hb] <;>
      omega
  · cases sp <;>
      simp only [State.writeCell, State.readCell, State.readOrig_writeOrig, State.readResid_writeResid,
        State.readRecon_writeRecon, BitVec.toNat_inj, hb, if_false]

/-- The value of every cell after a cell write (R93). -/
theorem State.toNat_readCell_writeCell (s : State) (sp sp' : Space) (a b : CellAddr) (v : HostValue) :
    ((s.writeCell sp a v).readCell sp' b).toNat =
      if sp' = sp ∧ b = a then v.toNat % 2 ^ (if sp = .resid then 16 else 8) else (s.readCell sp' b).toNat := by
  by_cases hsp : sp' = sp
  · subst hsp
    simp only [State.toNat_readCell_writeCell_self, true_and]
  · rw [if_neg (fun ⟨h, _⟩ => hsp h), State.readCell_writeCell_of_ne s hsp]

/-! ## The line `configure` -/

theorem modeCode_order1 {name : List Char} (h : name.map Char.toLower = "order1".toList) : modeCode name = 0#32 := by
  simp only [modeCode, h, if_true]

theorem modeCode_order2 {name : List Char} (h : name.map Char.toLower = "order2".toList) : modeCode name = 1#32 := by
  simp only [modeCode, h]
  rfl

theorem modeCode_adaptive {name : List Char} (h : name.map Char.toLower = "adaptive".toList) :
    modeCode name = 2#32 := by
  simp only [modeCode, h]
  rfl

theorem modeCode_unknown {name : List Char}
    (h : name.map Char.toLower ∉ ["order1".toList, "order2".toList, "adaptive".toList]) :
    modeCode name = 0xFFFFFFFF#32 := by
  simp only [List.mem_cons, List.not_mem_nil, or_false, not_or] at h
  obtain ⟨h1, h2, h3⟩ := h
  simp only [modeCode, if_neg h1, if_neg h2, if_neg h3]

end Machine

namespace Proofs

open Machine

/-- Settles O1: the legal words are those that decode, and acceptance raises IllegalCommand for a word that does not. -/
theorem decoderIsTotalAndExact : Obligations.DecoderIsTotalAndExact := by
  intro w
  rw [← exists_decode_eq_ok_iff]
  constructor
  · rintro ⟨i, hi⟩
    obtain ⟨_, hop⟩ := decode_eq_ok_iff.1 hi
    exact ⟨i, hi, by rw [← hop, toNat_opField]⟩
  · intro hillegal
    cases hdec : decode w with
    | ok i => exact absurd ⟨i, hdec⟩ hillegal
    | error e =>
      refine ⟨⟨e, rfl⟩, fun s => ?_⟩
      rw [acceptWord_of_decode_error hdec, illegalCommand, opField_eq_ofNat]

/-- Settles O7, by the register that `n` names, if it names one. -/
theorem registerWriteTransaction : Obligations.RegisterWriteTransaction := by
  intro s rest n v hscript
  rw [step_cons hscript, perform_host]
  refine ⟨fun hbusy => transact_wr_busy (s := { s with script := rest }) hbusy n v, ?_, fun hidle hn => ?_⟩
  · rintro hidle rfl
    rw [transact_command (s := { s with script := rest }) hidle, setWidth_commandWord]
  · rcases ofNumber_cases n.toNat with ⟨r, _, hr⟩ | ⟨hnone, hgt⟩
    · obtain ⟨hcells, hsc, hrd⟩ := State.writeReg_frame { s with script := rest } r v
      refine ⟨_, transact_wr_reg (s := { s with script := rest }) hidle hr hn v, fun k => ?_, hcells, hsc, hrd⟩
      rw [State.toNat_readNumber_writeReg _ hr, State.readNumber_script]
    · refine ⟨_, transact_wr_none (s := { s with script := rest }) hidle hnone v, fun k => ?_,
        ⟨fun _ => rfl, fun _ => rfl, fun _ => rfl⟩, rfl, rfl⟩
      rw [State.readNumber_script, if_neg (by omega)]

/-- Settles O8: an idle WM is `State.writeCell`. -/
theorem cellWriteTransaction : Obligations.CellWriteTransaction := by
  intro s rest sp a v hscript
  rw [step_cons hscript, perform_host]
  refine ⟨fun hbusy => transact_wm_busy (s := { s with script := rest }) hbusy sp a v, fun hidle => ?_⟩
  refine ⟨_, transact_wm_idle (s := { s with script := rest }) hidle sp a v, State.writeCell_frame _ sp a v,
    fun sp' b => ?_⟩
  rw [State.toNat_readCell_writeCell, State.readCell_script]

/-- Settles O56: the code is `modeCode`, which takes its four values by the name in lower case. -/
theorem configureLineExpansion : Obligations.ConfigureLineExpansion := by
  intro name levels
  refine ⟨(modeCode name).setWidth 64, rfl, fun h => ?_, fun h => ?_, fun h => ?_, fun h => ?_⟩
  · rw [modeCode_order1 h]; rfl
  · rw [modeCode_order2 h]; rfl
  · rw [modeCode_adaptive h]; rfl
  · rw [modeCode_unknown h]; rfl

end Proofs

end Sys2Proof
end

section
/-! SUPPORT and proofs of the family Quantizer (41_quantizer.md): QUANT at a tie (R143) and CLAMP (R148). -/

namespace Sys2Proof

namespace Machine

/-! ## QUANT at a tie -/

/-- At a tie the half added before the floor completes the greater of the two integers, so the division of R142 is
exact. -/
theorem quant_of_tie {e k : Int} {s : Nat} (hs : 1 ≤ s) (htie : 2 * e = (2 * k + 1) * s) : quant e s = k + 1 := by
  have hpos : (2 * s : Int) ≠ 0 := by omega
  calc quant e s = ((2 * k + 1) * s + s) / (2 * s) := by rw [quant, htie]
    _ = (k + 1) * (2 * s) / (2 * s) := by congr 1; ring
    _ = k + 1 := Int.mul_ediv_cancel _ hpos

/-- Of the product `(2k + 1)·s = 2e` the odd factor leaves the evenness to the step. -/
theorem even_step_of_tie {e k : Int} {s : Nat} (htie : 2 * e = (2 * k + 1) * s) : s % 2 = 0 := by
  have hs : (s : Int) = 2 * (e - k * s) := by linear_combination -htie
  omega

/-! ## CLAMP -/

theorem clamp_of_neg {v : Int} (h : v < 0) : clamp v = 0 := if_pos h

theorem clamp_of_gt {v : Int} (h : 255 < v) : clamp v = 255 := by
  rw [clamp, if_neg (by omega), if_pos h]

theorem clamp_of_mem {v : Int} (h0 : 0 ≤ v) (h255 : v ≤ 255) : clamp v = v := by
  rw [clamp, if_neg (by omega), if_neg (by omega)]

end Machine

namespace Proofs

open Machine

/-- Settles O48: the quotient is exact at a tie, and the odd multiplier makes the step even. -/
theorem quantTiesGoUp : Obligations.QuantTiesGoUp :=
  fun _ _ _ hs htie => ⟨quant_of_tie hs htie, even_step_of_tie htie⟩

/-- Settles O50, one equation of `clamp` for each of the three ranges. -/
theorem clampSaturates : Obligations.ClampSaturates :=
  fun _ => ⟨clamp_of_neg, clamp_of_gt, clamp_of_mem⟩

end Proofs

end Sys2Proof
end

section
/-! SUPPORT and proofs of the family Configure (42_configure.md): the operands of CFG (R98, R99), STEPOF as the ceiling
(R140), and the two outcomes of CFG (R160, R161, R163). -/

namespace Sys2Proof

namespace Machine

/-! ## The operands of CFG and the step -/

theorem modeOperand_of_code {v : BitVec 32} {m : PredictorMode} (h : v.toNat = m.code.toNat) :
    modeOperand v = some m := by
  rw [modeOperand, h]
  cases m <;> rfl

/-- Every value above the mode codes is an unknown mode (R98). -/
theorem modeOperand_eq_none {v : BitVec 32} (h : 2 < v.toNat) : modeOperand v = none := by
  unfold modeOperand
  split
  case h_4 => rfl
  all_goals omega

/-- STEPOF(L) is the only step that reaches 256 / L and whose predecessor does not (R140). -/
theorem stepOf_eq_of_ceil {l p : Nat} (hp : 1 ≤ p) (hge : 256 ≤ p * l) (hlt : (p - 1) * l < 256) : stepOf l = p := by
  obtain ⟨q, rfl⟩ := Nat.exists_eq_add_of_le' hp
  have hl : 0 < l := Nat.pos_of_mul_pos_left (by omega : 0 < (q + 1) * l)
  have hq : 255 / l = q := Nat.div_eq_of_lt_le (by simpa using Nat.le_of_lt_succ hlt) hge
  rw [stepOf, Nat.add_div_right 255 hl, hq]

/-! ## Completion while idle -/

theorem State.complete_zero_of_idle {s : State} (h : s.status.busy = false) :
    s.complete 0#4 = { s with status := { s.status with result := 0#4 } } := by
  rw [State.complete_zero_eq, ← h]

theorem State.raise_of_idle {s : State} (h : s.status.busy = false) (x : Cause) :
    s.raise x = { s with status := { s.status with result := x.code, errs := s.status.errs ||| errBit x.code } } := by
  rw [State.raise_eq, ← h]

/-! ## The two outcomes of CFG -/

theorem exec_cfg (s : State) : exec .cfg s = execCfg s := rfl

/-- CFG always answers a next state (R160). -/
theorem exists_execCfg_eq_next (s : State) : ∃ t, execCfg s = .next t := by
  simp only [execCfg]
  split
  · exact ⟨_, rfl⟩
  · split <;> exact ⟨_, rfl⟩

/-- Success (R161). -/
theorem execCfg_of_valid {s : State} {m : PredictorMode} (hm : modeOperand s.modeReq = some m)
    (hl : 0 < s.levelsReq.toInt) :
    execCfg s = .next (((s.accept Instr.cfg.opcode).latchConfig true m s.levelsReq
      (BitVec.ofNat 9 (stepOf s.levelsReq.toNat))).complete 0#4) := by
  obtain ⟨t, ht⟩ := exists_execCfg_eq_next s
  rcases execCfg_cases ht with ⟨hnone | hle, _⟩ | ⟨m', hm', _, rfl⟩
  · cases hm.symm.trans hnone
  · omega
  · cases hm.symm.trans hm'
    have hsle : (0#32).sle s.levelsReq = true := by simpa [BitVec.sle] using hl.le
    rw [ht, BitVec.ofInt_toInt, BitVec.toNat_toInt_of_sle hsle]

/-- Failure (R163), by either cause (R164). -/
theorem execCfg_of_invalid {s : State} (h : modeOperand s.modeReq = none ∨ s.levelsReq.toInt ≤ 0) :
    execCfg s = .next (((s.accept Instr.cfg.opcode).latchConfig false .order1 0#32 0#9).raise .configError) := by
  obtain ⟨t, ht⟩ := exists_execCfg_eq_next s
  rcases execCfg_cases ht with ⟨_, rfl⟩ | ⟨m, hm, hl, _⟩
  · exact ht
  · rcases h with hnone | hle
    · cases hm.symm.trans hnone
    · omega

end Machine

namespace Proofs

open Machine

/-- Settles O20: the outcome follows the two operands, and an idle state has no BUSY to clear. -/
theorem cfgLatchesOrDrops : Obligations.CfgLatchesOrDrops := by
  intro s hidle
  refine ⟨fun m stp hm hl hstp hge hlt => ?_, fun h => ?_⟩
  · have hstep : stepOf s.levelsReq.toNat = stp := stepOf_eq_of_ceil hstp hge hlt
    rw [exec_cfg, execCfg_of_valid (modeOperand_of_code hm) hl, hstep, State.complete_zero_of_idle]
    · rfl
    · exact hidle
  · rw [exec_cfg, execCfg_of_invalid (h.imp_left modeOperand_eq_none), State.raise_of_idle]
    · rfl
    · exact hidle

end Proofs

end Sys2Proof
end

section
/-! SUPPORT and proofs of the family Encoder (43_encoder.md): QUANT as the rounding of R142, the three outcomes of ENC
(R181), and the ENC cell step (R182, R183). -/

namespace Sys2Proof

namespace Machine

/-! ## QUANT and the step -/

/-- Rounding half up is the floor division of R142: both bound 2e + s between q·2s and (q + 1)·2s. -/
theorem roundsHalfUp_iff_eq_quant {e q : Int} {s : Nat} (hs : 1 ≤ s) : RoundsHalfUp e s q ↔ q = quant e s := by
  have hpos : (0 : Int) < 2 * s := by omega
  have hlow : q * (2 * s) = 2 * (q * s) := by ring
  rw [eq_comm, quant, Int.ediv_eq_iff_of_pos hpos, hlow, RoundsHalfUp]
  omega

theorem one_le_stepOf {l : Nat} (hl : 1 ≤ l) : 1 ≤ stepOf l :=
  Nat.div_pos (Nat.le_add_left l 255) hl

/-- A valid configuration has a step QUANT can divide by (R26, R140). -/
theorem one_le_cfgStep {s : State} (hvalid : s.status.cfgValid = true) (hcfg : ConfigInv s) : 1 ≤ s.cfgStep.toNat := by
  rw [ConfigInv, if_pos hvalid] at hcfg
  obtain ⟨hlevels, hstep⟩ := hcfg
  have hnat : 1 ≤ s.cfgLevels.toNat := by
    have := BitVec.toInt_eq_toNat_cond s.cfgLevels
    omega
  rw [hstep]
  exact one_le_stepOf hnat

theorem cfgStep_ne_zero {s : State} (hvalid : s.status.cfgValid = true) (hcfg : ConfigInv s) : s.cfgStep ≠ 0#9 := by
  intro hzero
  have hpos := one_le_cfgStep hvalid hcfg
  rw [hzero] at hpos
  exact absurd hpos (by decide)

/-! ## The three outcomes of ENC -/

theorem exec_enc (s : State) : exec .enc s = execEnc s := rfl

theorem execEnc_of_unconfigured {s : State} (hcfg : s.status.cfgValid = false) :
    execEnc s = .next ((s.accept Instr.enc.opcode).raise .configError) := by
  simp only [execEnc, State.accept_status, hcfg, if_true]

theorem execEnc_of_emptyGrid {s : State} (hcfg : s.status.cfgValid = true) (hgrid : emptyGrid s.origH s.origW = true) :
    execEnc s = .next ((s.accept Instr.enc.opcode).raise .inputError) := by
  simp [execEnc, hcfg, hgrid]

theorem execEnc_of_grid {s : State} (hcfg : s.status.cfgValid = true) (hgrid : emptyGrid s.origH s.origW = false) :
    execEnc s = .next (s.accept Instr.enc.opcode).startPass := by
  simp [execEnc, hcfg, hgrid]

/-- R100: a grid with a row and a column is not empty. -/
theorem emptyGrid_eq_false {h w : Dim} (hh : 1 ≤ h.toNat) (hw : 1 ≤ w.toNat) : emptyGrid h w = false := by
  rw [← Bool.not_eq_true, emptyGrid_iff]
  omega

/-! ## The ENC cell step -/

/-- The cursor after `pc <- Advance(i, j, W)` (R31, R32), by its two registers. -/
theorem State.setCursor_advance (s : State) (i j : Dim) (w : Nat) :
    s.setCursor (advance i.toNat j.toNat w) = { s with
      curI := if j.toNat + 1 < w then i else BitVec.ofNat 16 (i.toNat + 1)
      curJ := if j.toNat + 1 < w then BitVec.ofNat 16 (j.toNat + 1) else 0#16 } := by
  by_cases hj : j.toNat + 1 < w <;> simp [State.setCursor, advance, hj]

/-- What the one RESID write of a cell step stores (R182), by the rounded error. -/
theorem State.encWrite_of_roundsHalfUp {s : State} {q : Int} (hstep : 1 ≤ s.cfgStep.toNat)
    (hq : RoundsHalfUp (s.origInt (addr s.curI.toNat s.curJ.toNat s.origW.toNat) -
      predict s.origInt s.curI.toNat s.curJ.toNat s.origW.toNat s.cfgMode) s.cfgStep.toNat q) :
    s.encWrite = s.writeResid (addr s.curI.toNat s.curJ.toNat s.origW.toNat) (BitVec.ofInt 16 q) := by
  rw [State.encWrite, State.encResidual, ← (roundsHalfUp_iff_eq_quant hstep).1 hq]

/-- The completion of ENC (R183): the dimensions, and STATUS after success. -/
theorem State.encFinish_eq (s : State) :
    s.encFinish = { s with
      residH := s.origH, residW := s.origW, status := { s.status with busy := false, result := 0#4 } } :=
  State.complete_zero_eq _

/-- The state after the ENC cell step at the cursor (R182): the write, in the last cell the completion, the advance. -/
def State.encVisited (s : State) : State :=
  (if last s.curI.toNat s.curJ.toNat s.origH.toNat s.origW.toNat then s.encWrite.encFinish else s.encWrite).setCursor
    (advance s.curI.toNat s.curJ.toNat s.origW.toNat)

/-- The engine's turn in an ENC pass is the cell step at the cursor (R256). -/
theorem engineTurn_enc {s : State} (hbusy : s.status.busy = true) (hop : s.status.lastop = Instr.enc.opcode)
    (hstep : s.cfgStep ≠ 0#9) (hi : s.curI.toNat < s.origH.toNat) (hj : s.curJ.toNat < s.origW.toNat) :
    engineTurn s = .next s.encVisited := by
  rw [engineTurn_busy hbusy, engineStep_enc hop, encCell, if_neg hstep, State.visit_of_lt hi hj, State.encVisited]

/-- The cell step changes no memory but RESID, and RESID by its one write (R182). -/
theorem State.encVisited_memories (s : State) :
    s.encVisited.resid = s.encWrite.resid ∧ s.encVisited.orig = s.orig ∧ s.encVisited.recon = s.recon := by
  unfold State.encVisited
  split <;> exact ⟨rfl, rfl, rfl⟩

/-- Every register after the ENC cell step (R182, R183). -/
theorem State.encVisited_eq {s : State} (hi : s.curI.toNat < s.origH.toNat) (hj : s.curJ.toNat < s.origW.toNat) :
    s.encVisited = { s with
      resid := s.encVisited.resid
      curI := if s.curJ.toNat + 1 < s.origW.toNat then s.curI else BitVec.ofNat 16 (s.curI.toNat + 1)
      curJ := if s.curJ.toNat + 1 < s.origW.toNat then BitVec.ofNat 16 (s.curJ.toNat + 1) else 0#16
      residH := if s.curI.toNat + 1 = s.origH.toNat ∧ s.curJ.toNat + 1 = s.origW.toNat then s.origH else s.residH
      residW := if s.curI.toNat + 1 = s.origH.toNat ∧ s.curJ.toNat + 1 = s.origW.toNat then s.origW else s.residW
      status := if s.curI.toNat + 1 = s.origH.toNat ∧ s.curJ.toNat + 1 = s.origW.toNat
        then { s.status with busy := false, result := 0#4 } else s.status } := by
  obtain ⟨hresid, _, _⟩ := s.encVisited_memories
  rw [hresid, State.encVisited, last_iff hi hj, State.setCursor_advance, State.encFinish_eq]
  by_cases hlast : s.curI.toNat + 1 = s.origH.toNat ∧ s.curJ.toNat + 1 = s.origW.toNat
  · simp only [hlast, and_self, decide_true, if_true]
    rfl
  · simp only [hlast, decide_false, Bool.false_eq_true, if_false]
    rfl

end Machine

namespace Proofs

open Machine

/-- Settles O24: the engine's turn is the cell step at the cursor, whose one RESID write stores the rounded error. -/
theorem encCellStep : Obligations.EncCellStep := by
  intro s q hbusy hop hvalid hcfg hi hj hq
  obtain ⟨hresid, horig, hrecon⟩ := s.encVisited_memories
  refine ⟨s.encVisited, engineTurn_enc hbusy hop (cfgStep_ne_zero hvalid hcfg) hi hj, fun a => ?_,
    State.readOrig_congr horig, State.readRecon_congr hrecon, State.encVisited_eq hi hj⟩
  rw [State.readResid_congr hresid, State.encWrite_of_roundsHalfUp (one_le_cfgStep hvalid hcfg) hq,
    State.readResid_writeResid, addr]

/-- Settles O23, one equation of `execEnc` for each outcome; an idle state has no BUSY to clear. -/
theorem encAcceptance : Obligations.EncAcceptance := by
  intro s hidle
  refine ⟨fun hcfg => ?_, fun hcfg hempty => ?_, fun hcfg hh hw => ?_⟩
  · rw [exec_enc, execEnc_of_unconfigured hcfg, State.raise_of_idle]
    · rfl
    · exact hidle
  · rw [exec_enc, execEnc_of_emptyGrid hcfg ((emptyGrid_iff _ _).2 hempty), State.raise_of_idle]
    · rfl
    · exact hidle
  · rw [exec_enc, execEnc_of_grid hcfg (emptyGrid_eq_false hh hw)]
    rfl

end Proofs

end Sys2Proof
end

section
/-! SUPPORT and proofs of the family Decoder (44_decoder.md): CLAMP as a pixel, the three outcomes of DEC (R201), and the
DEC cell step (R202, R204). -/

namespace Sys2Proof

namespace Machine

/-! ## CLAMP -/

theorem clamp_eq_max_min (v : Int) : clamp v = max 0 (min 255 v) := by
  rcases lt_or_ge v 0 with hneg | h0
  · rw [clamp_of_neg hneg]; omega
  · rcases lt_or_ge 255 v with hgt | h255
    · rw [clamp_of_gt hgt]; omega
    · rw [clamp_of_mem h0 h255]; omega

/-- A clamped value fits the cell of 8 bits that stores it (R208). -/
theorem toNat_ofInt_clamp (v : Int) : ((BitVec.ofInt 8 (clamp v)).toNat : Int) = clamp v := by
  rw [clamp_eq_max_min, BitVec.toNat_ofInt]
  omega

/-! ## The three outcomes of DEC -/

/-- An error at acceptance (R250, R286): LASTOP is the command, and an idle state has no BUSY to clear. -/
theorem State.accept_raise_of_idle {s : State} (h : s.status.busy = false) (op : BitVec 8) (x : Cause) :
    (s.accept op).raise x = { s with status := { s.status with
      result := x.code, errs := s.status.errs ||| errBit x.code, lastop := op } } :=
  State.raise_of_idle (s := s.accept op) h x

theorem exec_dec (s : State) : exec .dec s = execDec s := rfl

theorem execDec_of_unconfigured {s : State} (hcfg : s.status.cfgValid = false) :
    execDec s = .next ((s.accept Instr.dec.opcode).raise .configError) := by
  simp only [execDec, State.accept_status, hcfg, if_true]

theorem execDec_of_emptyGrid {s : State} (hcfg : s.status.cfgValid = true)
    (hgrid : emptyGrid s.residH s.residW = true) :
    execDec s = .next ((s.accept Instr.dec.opcode).raise .inputError) := by
  simp [execDec, hcfg, hgrid]

theorem execDec_of_grid {s : State} (hcfg : s.status.cfgValid = true) (hgrid : emptyGrid s.residH s.residW = false) :
    execDec s = .next (s.accept Instr.dec.opcode).startPass := by
  simp [execDec, hcfg, hgrid]

/-! ## The DEC cell step -/

/-- RECON after the one write of a cell step (R202): the pixel reads back as it was computed, no other cell changes. -/
theorem State.readRecon_decWrite (s : State) (a : Nat) :
    s.decWrite.readRecon a =
      if a = addr s.curI.toNat s.curJ.toNat s.residW.toNat
      then BitVec.ofInt 8 (s.decPixel s.curI.toNat s.curJ.toNat) else s.readRecon a :=
  State.readRecon_writeRecon ..

theorem State.reconInt_decWrite_cursor (s : State) :
    s.decWrite.reconInt (addr s.curI.toNat s.curJ.toNat s.residW.toNat) = s.decPixel s.curI.toNat s.curJ.toNat := by
  rw [State.reconInt, State.readRecon_decWrite, if_pos rfl, State.decPixel, toNat_ofInt_clamp]

/-- The pixel of R202 with DEQUANT (R147) and the address (R63) written out. -/
theorem State.decPixel_eq_max_min (s : State) (i j : Nat) :
    s.decPixel i j = max 0 (min 255 (predict s.reconInt i j s.residW.toNat s.cfgMode +
      s.residInt (i * s.residW.toNat + j) * s.cfgStep.toNat)) :=
  clamp_eq_max_min _

/-- The completion of DEC (R204): the dimensions, and STATUS after success. -/
theorem State.decFinish_eq (s : State) :
    s.decFinish = { s with
      reconH := s.residH, reconW := s.residW, status := { s.status with busy := false, result := 0#4 } } :=
  State.complete_zero_eq _

/-- The state after the DEC cell step at the cursor (R202, R204), by its registers. -/
def State.decVisited (s : State) : State :=
  { s with
    recon := s.decWrite.recon
    curI := if s.curJ.toNat + 1 < s.residW.toNat then s.curI else BitVec.ofNat 16 (s.curI.toNat + 1)
    curJ := if s.curJ.toNat + 1 < s.residW.toNat then BitVec.ofNat 16 (s.curJ.toNat + 1) else 0#16
    reconH := if s.curI.toNat + 1 = s.residH.toNat ∧ s.curJ.toNat + 1 = s.residW.toNat then s.residH else s.reconH
    reconW := if s.curI.toNat + 1 = s.residH.toNat ∧ s.curJ.toNat + 1 = s.residW.toNat then s.residW else s.reconW
    status := if s.curI.toNat + 1 = s.residH.toNat ∧ s.curJ.toNat + 1 = s.residW.toNat
      then { s.status with busy := false, result := 0#4 } else s.status }

/-- At a cell of the residual grid the DEC cell step is the write, in the last cell the completion, and the advance. -/
theorem decCell_of_lt {s : State} (hi : s.curI.toNat < s.residH.toNat) (hj : s.curJ.toNat < s.residW.toNat) :
    decCell s = .next s.decVisited := by
  rw [decCell, State.visit_of_lt hi hj, last_iff hi hj, State.setCursor_advance, State.decFinish_eq, State.decVisited]
  by_cases hlast : s.curI.toNat + 1 = s.residH.toNat ∧ s.curJ.toNat + 1 = s.residW.toNat
  · simp only [hlast, and_self, decide_true, if_true]
    rfl
  · simp only [hlast, decide_false, Bool.false_eq_true, if_false]
    rfl

/-- The engine's turn in a DEC pass is the cell step at the cursor (R256). -/
theorem engineTurn_dec {s : State} (hbusy : s.status.busy = true) (hop : s.status.lastop = Instr.dec.opcode)
    (hi : s.curI.toNat < s.residH.toNat) (hj : s.curJ.toNat < s.residW.toNat) :
    engineTurn s = .next s.decVisited := by
  rw [engineTurn_busy hbusy, engineStep_dec hop, decCell_of_lt hi hj]

end Machine

namespace Proofs

open Machine

/-- Settles O28: the engine's turn is the cell step at the cursor, whose one RECON write stores the clamped sum; RECON
after the step is RECON after that write. -/
theorem decCellStep : Obligations.DecCellStep := by
  intro s hbusy hop hi hj
  refine ⟨s.decVisited, engineTurn_dec hbusy hop hi hj, ?_, fun a ha => ?_, fun _ => rfl, fun _ => rfl, rfl⟩
  · calc s.decVisited.reconInt (addr s.curI.toNat s.curJ.toNat s.residW.toNat)
        = s.decPixel s.curI.toNat s.curJ.toNat := s.reconInt_decWrite_cursor
      _ = _ := s.decPixel_eq_max_min _ _
  · calc s.decVisited.readRecon a = s.decWrite.readRecon a := rfl
      _ = s.readRecon a := by rw [State.readRecon_decWrite, addr, if_neg ha]

/-- Settles O27, one equation of `execDec` for each outcome. -/
theorem decAcceptance : Obligations.DecAcceptance := by
  intro s hidle
  refine ⟨fun hcfg => ?_, fun hcfg hempty => ?_, fun hcfg hh hw => ?_⟩
  · rw [exec_dec, execDec_of_unconfigured hcfg, State.accept_raise_of_idle hidle]
    rfl
  · rw [exec_dec, execDec_of_emptyGrid hcfg ((emptyGrid_iff _ _).2 hempty), State.accept_raise_of_idle hidle]
    rfl
  · rw [exec_dec, execDec_of_grid hcfg (emptyGrid_eq_false hh hw)]
    rfl

end Proofs

end Sys2Proof
end

section
/-! SUPPORT and proofs of the family Statistics (45_statistics.md): CLOG2 as the ceiling logarithm (R237), the three outcomes
of MSE (R221) and of RATIO (R235), and the MSE cell step (R222, R223). -/

namespace Sys2Proof

namespace Machine

/-! ## CLOG2 -/

/-- The search stops at the first exponent from `b` on that reaches `l`, if its tries go that far. -/
theorem clog2From_eq_max_clog {fuel b l : Nat} (h : l ≤ 2 ^ (b + fuel)) :
    clog2From fuel b l = max b (Nat.clog 2 l) := by
  induction fuel generalizing b with
  | zero => exact (max_eq_left (Nat.clog_le_of_le_pow h)).symm
  | succ fuel ih =>
    rw [clog2From]
    by_cases hb : l ≤ 2 ^ b
    · rw [if_pos hb, max_eq_left (Nat.clog_le_of_le_pow hb)]
    · have hlt : b < Nat.clog 2 l := (Nat.lt_clog_iff_pow_lt one_lt_two).2 (not_le.1 hb)
      rw [if_neg hb, ih (by rwa [Nat.add_right_comm, Nat.add_assoc]), max_eq_right hlt, max_eq_right hlt.le]

/-- R237's function is the library's ceiling logarithm: `l` tries are enough, for l < 2^l. -/
theorem clog2_eq_clog (l : Nat) : clog2 l = Nat.clog 2 l := by
  have htries : l ≤ 2 ^ (0 + l) := by rw [Nat.zero_add]; exact Nat.lt_two_pow_self.le
  rw [clog2, clog2From_eq_max_clog htries, Nat.zero_max]

theorem clog2_le_iff {l b : Nat} : clog2 l ≤ b ↔ l ≤ 2 ^ b := by
  rw [clog2_eq_clog, Nat.clog_le_iff_le_pow one_lt_two]

theorem clog2_eq_of_least {l b : Nat} (hb : l ≤ 2 ^ b) (hleast : ∀ c, l ≤ 2 ^ c → b ≤ c) : clog2 l = b :=
  le_antisymm (clog2_le_iff.2 hb) (hleast _ (clog2_le_iff.1 le_rfl))

/-! ## Errors of a command that first clears its flags -/

theorem State.clearMseValid_raise_of_idle {s : State} (h : s.status.busy = false) (op : BitVec 8) (x : Cause) :
    (s.accept op).clearMseValid.raise x = { s with status := { s.status with
      mseValid := false, result := x.code, errs := s.status.errs ||| errBit x.code, lastop := op } } :=
  State.raise_of_idle (s := (s.accept op).clearMseValid) h x

theorem State.clearRatioFlags_raise_of_idle {s : State} (h : s.status.busy = false) (op : BitVec 8) (x : Cause) :
    (s.accept op).clearRatioFlags.raise x = { s with status := { s.status with
      ratioValid := false, ratioDiv0 := false, result := x.code, errs := s.status.errs ||| errBit x.code,
      lastop := op } } :=
  State.raise_of_idle (s := (s.accept op).clearRatioFlags) h x

/-! ## The three outcomes of MSE -/

theorem exec_mse (s : State) : exec .mse s = execMse s := rfl

theorem execMse_of_mismatch {s : State} (hdim : s.origH ≠ s.reconH ∨ s.origW ≠ s.reconW) :
    execMse s = .next ((s.accept Instr.mse.opcode).clearMseValid.raise .dimensionMismatchError) :=
  if_pos hdim

theorem execMse_of_emptyGrid {s : State} (hh : s.origH = s.reconH) (hw : s.origW = s.reconW)
    (hgrid : emptyGrid s.origH s.origW = true) :
    execMse s = .next ((s.accept Instr.mse.opcode).clearMseValid.raise .inputError) := by
  simp [execMse, ← hh, ← hw, hgrid]

theorem execMse_of_grid {s : State} (hh : s.origH = s.reconH) (hw : s.origW = s.reconW)
    (hgrid : emptyGrid s.origH s.origW = false) :
    execMse s = .next (State.startPass { (s.accept Instr.mse.opcode).clearMseValid with sse := 0#64 }) := by
  simp [execMse, ← hh, ← hw, hgrid]

/-! ## The three outcomes of RATIO -/

theorem exec_ratio (s : State) : exec .ratio s = execRatio s := rfl

/-- RATIO always answers a next state (R235). -/
theorem exists_execRatio_eq_next (s : State) : ∃ t, execRatio s = .next t := by
  simp only [execRatio]
  split_ifs <;> exact ⟨_, rfl⟩

theorem execRatio_of_unconfigured {s : State} (hcfg : s.status.cfgValid = false) :
    execRatio s = .next ((s.accept Instr.ratio.opcode).clearRatioFlags.raise .configError) := by
  simp [execRatio, hcfg]

theorem execRatio_of_emptyGrid {s : State} (hcfg : s.status.cfgValid = true)
    (hgrid : emptyGrid s.origH s.origW = true) :
    execRatio s = .next ((s.accept Instr.ratio.opcode).clearRatioFlags.raise .inputError) := by
  simp [execRatio, hcfg, hgrid]

theorem execRatio_of_grid {s : State} (hcfg : s.status.cfgValid = true) (hgrid : emptyGrid s.origH s.origW = false) :
    execRatio s = .next s.ratioDone := by
  obtain ⟨t, ht⟩ := exists_execRatio_eq_next s
  rcases execRatio_cases ht with ⟨hno, _⟩ | ⟨_, hempty, _⟩ | ⟨_, _, rfl⟩
  · simp [hcfg] at hno
  · simp [hgrid] at hempty
  · exact ht

/-- The state after a RATIO that raises nothing (R235), from an idle state: it has no BUSY to clear. -/
theorem State.ratioDone_of_idle {s : State} {b : Nat} (h : s.status.busy = false) (hb : clog2 s.cfgLevels.toNat = b) :
    s.ratioDone = { s with
      ratioBpr := BitVec.ofNat 5 b
      ratioNum := BitVec.ofNat 64 (s.origW.toNat * s.origH.toNat * 8)
      ratioDen := BitVec.ofNat 64 (s.origW.toNat * s.origH.toNat * b)
      ratioQ := fquot (s.origW.toNat * s.origH.toNat * 8) (s.origW.toNat * s.origH.toNat * b)
      status := { s.status with
        ratioValid := true, ratioDiv0 := decide (b = 0), result := 0#4, lastop := Instr.ratio.opcode } } := by
  rw [State.ratioDone, hb, ← h]

/-! ## The bit counts of RATIO -/

/-- A latched level count is a positive 32-bit integer (R26), so at most 31 bits name a level (R237). -/
theorem clog2_cfgLevels_le {s : State} (hvalid : s.status.cfgValid = true) (hcfg : ConfigInv s) :
    clog2 s.cfgLevels.toNat ≤ 31 := by
  rw [ConfigInv, if_pos hvalid] at hcfg
  obtain ⟨hlevels, _⟩ := hcfg
  have hcond := BitVec.toInt_eq_toNat_cond s.cfgLevels
  have hlt := s.cfgLevels.isLt
  rw [clog2_le_iff]
  omega

/-- A grid of at most 65535² cells times a count of at most 31 bits fits RATIO_NUM and RATIO_DEN (R236). -/
theorem toNat_ofNat_cells_mul (h w : Dim) {b : Nat} (hb : b ≤ 31) :
    (BitVec.ofNat 64 (w.toNat * h.toNat * b)).toNat = w.toNat * h.toNat * b := by
  have hbits : w.toNat * h.toNat * b ≤ 4294836225 * 31 := Nat.mul_le_mul (cells_le w h) hb
  exact Nat.mod_eq_of_lt (by omega)

/-! ## The MSE cell step -/

/-- What the pass invariant says of an MSE pass: the cursor is a cell of ORIG, and the sum is bounded by the cells before
it (R33, R222). -/
theorem PassInv.of_mse {s : State} (hbusy : s.status.busy = true) (hop : s.status.lastop = Instr.mse.opcode)
    (h : PassInv s) :
    s.curI.toNat < s.origH.toNat ∧ s.curJ.toNat < s.origW.toNat ∧
      s.sse.toNat ≤ 65025 * addr s.curI.toNat s.curJ.toNat s.origW.toNat := by
  have hdec : ¬ s.status.lastop = Instr.dec.opcode := by rw [hop]; decide
  have henc : ¬ s.status.lastop = Instr.enc.opcode := by rw [hop]; decide
  have hH : s.passH = s.origH.toNat := if_neg hdec
  have hW : s.passW = s.origW.toNat := if_neg hdec
  obtain ⟨hi, hj, ⟨hencdec, _⟩ | ⟨_, _, _, _, hsse⟩⟩ := h hbusy
  · exact absurd hencdec (not_or.2 ⟨henc, hdec⟩)
  · rw [State.passAddr, hW] at hsse
    exact ⟨hH ▸ hi, hW ▸ hj, hsse⟩

/-- The sum after a cell step does not wrap (R8, R222): it stays at or below 65025 for each of at most 65535² cells. -/
theorem State.toNat_mseAdd_sse {s : State} (hi : s.curI.toNat < s.origH.toNat) (hj : s.curJ.toNat < s.origW.toNat)
    (hsse : s.sse.toNat ≤ 65025 * addr s.curI.toNat s.curJ.toNat s.origW.toNat) :
    (s.mseAdd.sse.toNat : Int) =
      s.sse.toNat + s.cellDiff (addr s.curI.toNat s.curJ.toNat s.origW.toNat) ^ 2 := by
  obtain ⟨hsq0, hsq⟩ := s.cellDiff_sq_range (addr s.curI.toNat s.curJ.toNat s.origW.toNat)
  have haddr := addr_lt hi hj
  have hcells := cells_le s.origH s.origW
  rw [State.mseAdd_sse, toNat_ofInt_sum (by omega) (by omega), pow_two]

/-- The completion of MSE (R223): the count, the quotient, and STATUS after success. -/
theorem State.mseFinish_eq (s : State) :
    s.mseFinish = { s with
      npix := BitVec.ofNat 32 (s.origH.toNat * s.origW.toNat)
      mseQ := fquot s.sse.toNat (s.origH.toNat * s.origW.toNat)
      status := { s.status with busy := false, mseValid := true, result := 0#4 } } :=
  State.complete_zero_eq _

/-- The state after the MSE cell step at the cursor (R222, R223), by its registers. -/
def State.mseVisited (s : State) : State :=
  { s with
    sse := s.mseAdd.sse
    curI := if s.curJ.toNat + 1 < s.origW.toNat then s.curI else BitVec.ofNat 16 (s.curI.toNat + 1)
    curJ := if s.curJ.toNat + 1 < s.origW.toNat then BitVec.ofNat 16 (s.curJ.toNat + 1) else 0#16
    npix := if s.curI.toNat + 1 = s.origH.toNat ∧ s.curJ.toNat + 1 = s.origW.toNat
      then BitVec.ofNat 32 (s.origH.toNat * s.origW.toNat) else s.npix
    mseQ := if s.curI.toNat + 1 = s.origH.toNat ∧ s.curJ.toNat + 1 = s.origW.toNat
      then fquot s.mseAdd.sse.toNat (s.origH.toNat * s.origW.toNat) else s.mseQ
    status := if s.curI.toNat + 1 = s.origH.toNat ∧ s.curJ.toNat + 1 = s.origW.toNat
      then { s.status with busy := false, mseValid := true, result := 0#4 } else s.status }

/-- At a cell of the grid the MSE cell step is the addition, in the last cell the completion, and the advance. -/
theorem mseCell_of_lt {s : State} (hi : s.curI.toNat < s.origH.toNat) (hj : s.curJ.toNat < s.origW.toNat) :
    mseCell s = .next s.mseVisited := by
  rw [mseCell, State.visit_of_lt hi hj, last_iff hi hj, State.setCursor_advance, State.mseFinish_eq, State.mseVisited]
  by_cases hlast : s.curI.toNat + 1 = s.origH.toNat ∧ s.curJ.toNat + 1 = s.origW.toNat
  · simp only [hlast, and_self, decide_true, if_true]
    rfl
  · simp only [hlast, decide_false, Bool.false_eq_true, if_false]
    rfl

/-- The engine's turn in an MSE pass is the cell step at the cursor (R256). -/
theorem engineTurn_mse {s : State} (hbusy : s.status.busy = true) (hop : s.status.lastop = Instr.mse.opcode)
    (hi : s.curI.toNat < s.origH.toNat) (hj : s.curJ.toNat < s.origW.toNat) :
    engineTurn s = .next s.mseVisited := by
  rw [engineTurn_busy hbusy, engineStep_mse hop, mseCell_of_lt hi hj]

end Machine

namespace Proofs

open Machine

/-- Settles O34: the engine's turn is the cell step at the cursor, and the pass invariant keeps the sum below 2^64. -/
theorem mseCellStep : Obligations.MseCellStep := by
  intro s hbusy hop hpass
  obtain ⟨hi, hj, hsse⟩ := hpass.of_mse hbusy hop
  exact ⟨s.mseVisited, engineTurn_mse hbusy hop hi hj, State.toNat_mseAdd_sse hi hj hsse,
    ⟨fun _ => rfl, fun _ => rfl, fun _ => rfl⟩, rfl⟩

/-- Settles O36, one equation of `execRatio` for each outcome; the least exponent is CLOG2, and the counts fit their
registers. -/
theorem ratioComputesBitCounts : Obligations.RatioComputesBitCounts := by
  refine ⟨decode_eq_ok_iff.2 ⟨rfl, rfl⟩, fun s hidle =>
    ⟨fun hcfg => ?_, fun hcfg hempty => ?_, fun b hcfg hinv hh hw hb hleast => ?_⟩⟩
  · rw [exec_ratio, execRatio_of_unconfigured hcfg, State.clearRatioFlags_raise_of_idle hidle]
    rfl
  · rw [exec_ratio, execRatio_of_emptyGrid hcfg ((emptyGrid_iff _ _).2 hempty),
      State.clearRatioFlags_raise_of_idle hidle]
    rfl
  · have hclog : clog2 s.cfgLevels.toNat = b := clog2_eq_of_least hb hleast
    have hbits : b ≤ 31 := hclog ▸ clog2_cfgLevels_le hcfg hinv
    rw [exec_ratio, execRatio_of_grid hcfg (emptyGrid_eq_false hh hw), State.ratioDone_of_idle hidle hclog]
    exact ⟨_, rfl, Nat.mod_eq_of_lt (by omega), toNat_ofNat_cells_mul _ _ (by decide),
      toNat_ofNat_cells_mul _ _ hbits, rfl⟩

/-- Settles O54 by CLOG2's adjunction with the powers of two. -/
theorem clog2IsLeastExponent : Obligations.Clog2IsLeastExponent := by
  refine fun l _ => ⟨clog2_le_iff.1 le_rfl, fun b => clog2_le_iff.2, fun k hk => ?_, clog2_le_iff.2⟩
  rw [hk, clog2_eq_clog, Nat.clog_pow 2 k one_lt_two]

/-- Settles O33, one equation of `execMse` for each outcome. -/
theorem mseAcceptance : Obligations.MseAcceptance := by
  intro s hidle
  refine ⟨fun hdim => ?_, fun hH hW hempty => ?_, fun hH hW hh hw => ?_⟩
  · rw [exec_mse, execMse_of_mismatch hdim, State.clearMseValid_raise_of_idle hidle]
    rfl
  · rw [exec_mse, execMse_of_emptyGrid hH hW ((emptyGrid_iff _ _).2 hempty), State.clearMseValid_raise_of_idle hidle]
    rfl
  · rw [exec_mse, execMse_of_grid hH hW (emptyGrid_eq_false hh hw)]
    rfl

/-- Settles O37: one level needs no bit (CLOG2(1) = 0), so the divisor is 0. -/
theorem ratioWithOneLevel : Obligations.RatioWithOneLevel := by
  intro s hidle hcfg hlevels hh hw
  have hbits : clog2 s.cfgLevels.toNat = 0 := by rw [hlevels]; rfl
  rw [exec_ratio, execRatio_of_grid hcfg (emptyGrid_eq_false hh hw), State.ratioDone_of_idle hidle hbits]
  rfl

end Proofs

end Sys2Proof
end

section
/-! SUPPORT and proofs of the family Control (46_control.md): the sticky bit of an outcome code (R258), the transition of
an idle engine on an illegal word (R265), and CLRERR (R262). -/

namespace Sys2Proof

namespace Machine

/-! ## Complete -/

/-- Code c sets ERRS[c−1] and no other bit (R258); code 0, and a code above 4, sets none. -/
theorem getLsbD_errBit (c : BitVec 4) {k : Nat} (hk : k < 4) : (errBit c).getLsbD k = decide (k + 1 = c.toNat) := by
  by_cases hc : c = 0#4
  · simp [hc]
  · have hpos : 0 < c.toNat := Nat.pos_of_ne_zero fun h => hc (BitVec.eq_of_toNat_eq h)
    rw [errBit, if_neg hc, BitVec.getLsbD_shiftLeft, BitVec.getLsbD_one, Bool.eq_iff_iff]
    simp only [Bool.and_eq_true, Bool.not_eq_true', decide_eq_true_eq, decide_eq_false_iff_not]
    omega

/-! ## The illegal command word -/

/-- A word that R95 does not list, accepted by an idle engine: IllegalCommand is raised, and no BUSY is there to clear. -/
theorem acceptWord_illegal_of_idle {s : State} (h : s.status.busy = false) {w : CommandWord}
    (hw : ¬ (w.toNat / 256 = 0 ∧ 1 ≤ w.toNat % 256 ∧ w.toNat % 256 ≤ 7)) :
    acceptWord w s = .next { s with status := { s.status with
      result := 4#4, errs := s.status.errs ||| 8#4, lastop := BitVec.ofNat 8 w.toNat } } := by
  obtain ⟨_, haccept⟩ := (Proofs.decoderIsTotalAndExact w).2 hw
  rw [haccept, State.accept_raise_of_idle h]
  rfl

/-! ## CLRERR -/

theorem exec_clrerr (s : State) : exec .clrerr s = execClrerr s := rfl

theorem execClrerr_of_idle {s : State} (h : s.status.busy = false) :
    execClrerr s = .next { s with status := { s.status with
      errs := 0#4, result := 0#4, lastop := Instr.clrerr.opcode } } := by
  have hidle : (s.accept Instr.clrerr.opcode).clearErrs.status.busy = false := h
  rw [execClrerr, State.complete_zero_of_idle hidle]
  rfl

end Machine

namespace Proofs

open Machine

/-- Settles O5: bits 63:32 of the value are discarded, and the word left is one that acceptance raises for. -/
theorem illegalCommandIsRaised : Obligations.IllegalCommandIsRaised := by
  intro s rest v hscript hidle hillegal
  have hword : (BitVec.ofNat 32 (v.toNat % 2 ^ 32)).toNat = v.toNat % 2 ^ 32 := by simp
  have hlow : v.toNat % 2 ^ 32 % 256 = v.toNat % 256 := Nat.mod_mod_of_dvd _ (by decide)
  have hop : BitVec.ofNat 8 (v.toNat % 2 ^ 32) = BitVec.ofNat 8 (v.toNat % 256) :=
    BitVec.eq_of_toNat_eq (by simp only [BitVec.toNat_ofNat]; omega)
  rw [step_cons hscript, perform_host, transact_command (s := { s with script := rest }) hidle, setWidth_commandWord,
    acceptWord_illegal_of_idle (s := { s with script := rest }) hidle (by rwa [hword, hlow]), hword, hop]

/-- Settles O6: a busy engine ignores both writing transactions. -/
theorem busyIgnoresHostWrites : Obligations.BusyIgnoresHostWrites := by
  intro s rest t hscript hbusy hwrite
  rw [step_cons hscript, perform_host]
  rcases hwrite with ⟨n, v, rfl⟩ | ⟨sp, a, v, rfl⟩
  · exact transact_wr_busy (s := { s with script := rest }) hbusy n v
  · exact transact_wm_busy (s := { s with script := rest }) hbusy sp a v

/-- Settles O13: ERRS gains `errBit c`, whose one bit is c−1. -/
theorem completeRecordsOutcome : Obligations.CompleteRecordsOutcome := by
  refine fun s => ⟨fun c _ => ⟨_, rfl, fun k hk => ?_⟩, fun _ => rfl⟩
  rw [BitVec.getLsbD_or, getLsbD_errBit c hk]

/-- Settles O18: the word has opcode 0x06 under a zero upper field, and an idle state has no BUSY to clear. -/
theorem clrerrClearsStickyBits : Obligations.ClrerrClearsStickyBits := by
  refine ⟨decode_eq_ok_iff.2 ⟨rfl, rfl⟩, fun s hidle => ?_⟩
  rw [exec_clrerr, execClrerr_of_idle hidle]
  rfl

end Proofs

end Sys2Proof
end

section
/-! SUPPORT and proofs of the invariants of a run (10_state.md, 46_control.md): what a step can do, said once, and the
invariants kept by each of those effects. -/

namespace Sys2Proof

namespace Machine

/-! ## The raster order at the cursor -/

/-- What a cell step can do, by where the cursor stands (R31, R32, R257): in the last cell the finish runs and the
cursor rests at (H, 0); elsewhere the cursor moves to the cell at the next address. -/
theorem State.visit_cases {s t : State} {h w : Nat} {cell finish : State → State}
    (e : s.visit h w cell finish = .next t) :
    (addr s.curI.toNat s.curJ.toNat w + 1 = h * w ∧ t = (finish (cell s)).setCursor (h, 0)) ∨
    (∃ i j, i < h ∧ j < w ∧ addr i j w = addr s.curI.toNat s.curJ.toNat w + 1 ∧ t = (cell s).setCursor (i, j)) := by
  obtain ⟨hi, hj, rfl⟩ := State.visit_eq_next e
  cases hl : last s.curI.toNat s.curJ.toNat h w with
  | true =>
    obtain ⟨hadv, haddr⟩ := advance_of_last hi hj hl
    exact .inl ⟨haddr, by rw [hadv, if_pos rfl]⟩
  | false =>
    obtain ⟨hi', hj', haddr, _⟩ := advance_of_not_last hi hj hl
    exact .inr ⟨_, _, hi', hj', haddr, rfl⟩

/-! ## What a step can do -/

/-- The effects of an event, the cases of R6 and R250 to R256: the host's own side alone, a reset, a turn of the engine,
and while idle a register write, a cell write, or the acceptance of a command word. -/
inductive Effect (e : Event) (s t : State) : Prop
  | host (script : List Event) (readings : List Reading) (h : t = s.withHost script readings)
  | reset (he : e = .reset) (h : t = s.resetRegisters)
  | turn (he : e = .engine) (h : engineTurn s = .next t)
  | register (idle : s.status.busy = false) (r : Reg) (v : HostValue) (h : t = s.writeReg r v)
  | cell (idle : s.status.busy = false) (sp : Space) (a : CellAddr) (v : HostValue) (he : e = .host (.wm sp a v))
      (h : t = s.writeCell sp a v)
  | command (idle : s.status.busy = false) (v : HostValue) (he : e = .host (.wr 0#16 v))
      (h : acceptWord (v.setWidth 32) s = .next t)

theorem waitEvent_eq_withHost (s : State) : ∃ script readings, waitEvent s = s.withHost script readings := by
  unfold waitEvent
  cases s.status.busy
  · exact ⟨_, _, rfl⟩
  · exact ⟨_, _, rfl⟩

/-- A host write while idle (R91): to CMD a command, to another number a register write or nothing. -/
theorem transact_wr_effect {n : RegNo} {v : HostValue} {s t : State} (idle : s.status.busy = false)
    (h : transact (.wr n v) s = .next t) : Effect (.host (.wr n v)) s t := by
  by_cases hn : n = 0#16
  · subst hn
    rw [transact_command idle] at h
    exact .command idle v rfl h
  · rcases ofNumber_cases n.toNat with ⟨r, _, hr⟩ | ⟨hnone, _⟩
    · rw [transact_wr_reg idle hr hn] at h
      cases h
      exact .register idle r v rfl
    · rw [transact_wr_none idle hnone] at h
      cases h
      exact .host _ _ rfl

theorem transact_effect {tr : Transaction} {s t : State} (h : transact tr s = .next t) : Effect (.host tr) s t := by
  cases tr with
  | rd n => cases h; exact .host _ _ rfl
  | rm sp a => cases h; exact .host _ _ rfl
  | wr n v =>
    cases hbusy : s.status.busy with
    | true => rw [transact_wr_busy hbusy] at h; cases h; exact .host _ _ rfl
    | false => exact transact_wr_effect hbusy h
  | wm sp a v =>
    cases hbusy : s.status.busy with
    | true => rw [transact_wm_busy hbusy] at h; cases h; exact .host _ _ rfl
    | false => rw [transact_wm_idle hbusy] at h; cases h; exact .cell hbusy sp a v rfl rfl

theorem perform_effect {e : Event} {s t : State} (h : perform e s = .next t) : Effect e s t := by
  cases e with
  | host tr => exact transact_effect h
  | check c => cases h; exact .host _ _ rfl
  | wait =>
    obtain ⟨script, readings, hwait⟩ := waitEvent_eq_withHost s
    cases h
    exact .host script readings hwait
  | engine => exact .turn rfl h
  | reset => cases h; exact .reset rfl rfl

/-- A step is the engine's turn when the script is empty, and otherwise the effect of its next event. -/
theorem step_cases {s t : State} (h : step s = .next t) :
    (s.script = [] ∧ engineTurn s = .next t) ∨
    (∃ e rest, s.script = e :: rest ∧ Effect e (s.withHost rest s.readings) t) := by
  cases hs : s.script with
  | nil => exact .inl ⟨rfl, by rw [← step_nil hs, h]⟩
  | cons e rest =>
    rw [step_cons hs] at h
    exact .inr ⟨e, rest, rfl, perform_effect h⟩

/-- What the acceptance of a word can do (R250): its command, or IllegalCommand. -/
theorem acceptWord_cases {w : CommandWord} {s t : State} (h : acceptWord w s = .next t) :
    (∃ i, decode w = .ok i ∧ exec i s = .next t) ∨ t = illegalCommand w s := by
  cases hw : decode w with
  | ok i => simp only [acceptWord, hw] at h; exact .inl ⟨i, rfl, h⟩
  | error e => rw [acceptWord_of_decode_error hw] at h; cases h; exact .inr rfl

/-! ## The invariants under the effects -/

/-- The invariants speak of the engine, not of the host (R20). -/
theorem Inv.withHost {s : State} (h : Inv s) (script : List Event) (readings : List Reading) :
    Inv (s.withHost script readings) :=
  ⟨h.memory, h.config, h.pass, h.outcome, h.mse, h.ratio⟩

theorem PassInv.of_idle {s : State} (h : s.status.busy = false) : PassInv s :=
  fun hbusy => absurd (h.symm.trans hbusy) Bool.false_ne_true

/-- RESULT 0 claims no sticky bit (R28). -/
theorem OutcomeInv.of_success {s : State} (h : s.status.result = 0#4) : OutcomeInv s := by
  simp [OutcomeInv, h]

theorem Inv.resetRegisters {s : State} (h : MemoryInv s) : Inv s.resetRegisters where
  memory := h
  config := ⟨rfl, rfl, rfl⟩
  pass := .of_idle rfl
  outcome := .of_success rfl
  mse := fun hvalid => absurd hvalid Bool.false_ne_true
  ratio := ⟨⟨fun hdiv => absurd hdiv Bool.false_ne_true, fun ⟨hvalid, _⟩ => absurd hvalid Bool.false_ne_true⟩,
    fun hvalid => absurd hvalid Bool.false_ne_true⟩

/-- The host writes no register an invariant speaks of while idle (R23 b, R36). -/
theorem Inv.writeReg {s : State} (h : Inv s) (idle : s.status.busy = false) (r : Reg) (v : HostValue) :
    Inv (s.writeReg r v) := by
  obtain ⟨hmemory, hconfig, _, houtcome, hmse, hratio⟩ := h
  cases r <;> exact ⟨hmemory, hconfig, .of_idle idle, houtcome, hmse, hratio⟩

theorem Inv.writeCell {s : State} (h : Inv s) (idle : s.status.busy = false) (sp : Space) (a : CellAddr)
    (v : HostValue) : Inv (s.writeCell sp a v) := by
  obtain ⟨⟨horig, hresid, hrecon⟩, hconfig, _, houtcome, hmse, hratio⟩ := h
  have hmemory := State.writeCell_wf sp a v horig hresid hrecon
  cases sp <;> exact ⟨hmemory, hconfig, .of_idle idle, houtcome, hmse, hratio⟩

/-- The sticky bit of an outcome is set with it (R258). -/
theorem OutcomeInv.complete (s : State) {c : BitVec 4} (hc : c.toNat ≤ 4) : OutcomeInv (s.complete c) := by
  refine ⟨hc, BitVec.eq_of_getLsbD_eq fun k hk => ?_⟩
  simp only [State.complete_status, BitVec.getLsbD_and, BitVec.getLsbD_or]
  cases s.status.errs.getLsbD k <;> cases (errBit c).getLsbD k <;> rfl

/-- A command that ends leaves the outcome and the idle engine right by itself; the other invariants are those of the
state it ends in. -/
theorem Inv.complete {s : State} {c : BitVec 4} (hc : c.toNat ≤ 4) (hmemory : MemoryInv s) (hconfig : ConfigInv s)
    (hmse : MseInv s) (hratio : RatioInv s) : Inv (s.complete c) :=
  ⟨hmemory, hconfig, .of_idle rfl, .complete s hc, hmse, hratio⟩

theorem Inv.raise {s : State} (x : Cause) (hmemory : MemoryInv s) (hconfig : ConfigInv s)
    (hmse : MseInv s) (hratio : RatioInv s) : Inv (s.raise x) :=
  .complete (by cases x <;> decide) hmemory hconfig hmse hratio

/-! ## The commands keep the invariants -/

theorem stepOf_eq {l : Nat} (hl : 1 ≤ l) : stepOf l = 255 / l + 1 :=
  Nat.add_div_right 255 hl

/-- STEPOF is at most 256, so the 9 bits of CFG_STEP hold it (R22, R141). -/
theorem toNat_ofNat_stepOf {l : Nat} (hl : 1 ≤ l) : (BitVec.ofNat 9 (stepOf l)).toNat = stepOf l := by
  have hdiv : 255 / l ≤ 255 := Nat.div_le_self 255 l
  have hle : stepOf l ≤ 256 := by rw [stepOf_eq hl]; omega
  exact Nat.mod_eq_of_lt (by omega)

theorem ConfigInv.latchConfig (s : State) (m : PredictorMode) {l : BitVec 32} (hl : 0 < l.toInt) :
    ConfigInv (s.latchConfig true m (BitVec.ofInt 32 l.toInt) (BitVec.ofNat 9 (stepOf l.toInt.toNat))) := by
  have hcond := BitVec.toInt_eq_toNat_cond l
  have hlt := l.isLt
  have hnat : l.toInt.toNat = l.toNat := by omega
  rw [BitVec.ofInt_toInt, hnat]
  exact ⟨hl, toNat_ofNat_stepOf (by omega)⟩

theorem Inv.execCfg {s t : State} (h : Inv s) (e : execCfg s = .next t) : Inv t := by
  rcases execCfg_cases e with ⟨_, rfl⟩ | ⟨m, _, hl, rfl⟩
  · exact .raise _ h.memory ⟨rfl, rfl, rfl⟩ h.mse h.ratio
  · exact .complete (by decide) h.memory (.latchConfig _ m hl) h.mse h.ratio

/-- The start of a pass (R181, R201, R221): the cursor is at cell (0, 0), and nothing is summed yet. -/
theorem PassInv.startPass {s : State} (hh : 0 < s.passH) (hw : 0 < s.passW)
    (hop : ((s.status.lastop = Instr.enc.opcode ∨ s.status.lastop = Instr.dec.opcode) ∧ s.status.cfgValid = true) ∨
      (s.status.lastop = Instr.mse.opcode ∧ s.reconH = s.origH ∧ s.reconW = s.origW ∧ s.status.mseValid = false ∧
        s.sse = 0#64)) :
    PassInv s.startPass :=
  fun _ => ⟨hh, hw, hop.imp_right fun ⟨hl, hrh, hrw, hv, hsse⟩ =>
    ⟨hl, hrh, hrw, hv, (congrArg BitVec.toNat hsse).trans_le (Nat.zero_le _)⟩⟩

theorem pos_of_emptyGrid_eq_false {h w : Dim} (hgrid : emptyGrid h w = false) : 0 < h.toNat ∧ 0 < w.toNat := by
  rw [← Bool.not_eq_true, emptyGrid_iff] at hgrid
  omega

theorem Inv.execEnc {s t : State} (h : Inv s) (e : execEnc s = .next t) : Inv t := by
  rcases execEnc_cases e with ⟨_, rfl⟩ | ⟨_, _, rfl⟩ | ⟨hvalid, hgrid, rfl⟩
  · exact .raise _ h.memory h.config h.mse h.ratio
  · exact .raise _ h.memory h.config h.mse h.ratio
  · obtain ⟨hh, hw⟩ := pos_of_emptyGrid_eq_false hgrid
    exact ⟨h.memory, h.config, .startPass hh hw (.inl ⟨.inl rfl, hvalid⟩), h.outcome, h.mse, h.ratio⟩

theorem Inv.execDec {s t : State} (h : Inv s) (e : execDec s = .next t) : Inv t := by
  rcases execDec_cases e with ⟨_, rfl⟩ | ⟨_, _, rfl⟩ | ⟨hvalid, hgrid, rfl⟩
  · exact .raise _ h.memory h.config h.mse h.ratio
  · exact .raise _ h.memory h.config h.mse h.ratio
  · obtain ⟨hh, hw⟩ := pos_of_emptyGrid_eq_false hgrid
    exact ⟨h.memory, h.config, .startPass hh hw (.inl ⟨.inr rfl, hvalid⟩), h.outcome, h.mse, h.ratio⟩

theorem MseInv.of_not_valid {s : State} (h : s.status.mseValid = false) : MseInv s :=
  fun hvalid => absurd (h.symm.trans hvalid) Bool.false_ne_true

theorem Inv.execMse {s t : State} (h : Inv s) (e : execMse s = .next t) : Inv t := by
  rcases execMse_cases e with ⟨_, rfl⟩ | ⟨_, _, _, rfl⟩ | ⟨hH, hW, hgrid, rfl⟩
  · exact .raise _ h.memory h.config (.of_not_valid rfl) h.ratio
  · exact .raise _ h.memory h.config (.of_not_valid rfl) h.ratio
  · obtain ⟨hh, hw⟩ := pos_of_emptyGrid_eq_false hgrid
    exact ⟨h.memory, h.config, .startPass hh hw (.inr ⟨rfl, hH.symm, hW.symm, rfl, rfl⟩), h.outcome, .of_not_valid rfl,
      h.ratio⟩

theorem RatioInv.clearRatioFlags (s : State) : RatioInv s.clearRatioFlags :=
  ⟨⟨fun hdiv => absurd hdiv Bool.false_ne_true, fun ⟨hvalid, _⟩ => absurd hvalid Bool.false_ne_true⟩,
    fun hvalid => absurd hvalid Bool.false_ne_true⟩

/-- The bit counts of a valid RATIO are exact in their registers (R236), so they stand in the ratio 8 : CLOG2(L). -/
theorem RatioInv.ratioDone {s : State} (hvalid : s.status.cfgValid = true) (hconfig : ConfigInv s)
    (hgrid : emptyGrid s.origH s.origW = false) : RatioInv s.ratioDone := by
  obtain ⟨hh, hw⟩ := pos_of_emptyGrid_eq_false hgrid
  have hcells : 0 < s.origW.toNat * s.origH.toNat := Nat.mul_pos hw hh
  have hbits : clog2 s.cfgLevels.toNat ≤ 31 := clog2_cfgLevels_le hvalid hconfig
  have hnum : s.ratioDone.ratioNum.toNat = s.origW.toNat * s.origH.toNat * 8 :=
    toNat_ofNat_cells_mul _ _ (by decide)
  have hden : s.ratioDone.ratioDen.toNat = s.origW.toNat * s.origH.toNat * clog2 s.cfgLevels.toNat :=
    toNat_ofNat_cells_mul _ _ hbits
  have hbpr : s.ratioDone.ratioBpr.toNat = clog2 s.cfgLevels.toNat := Nat.mod_eq_of_lt (by omega)
  have hdiv0 : s.ratioDone.ratioDen = 0#64 ↔ clog2 s.cfgLevels.toNat = 0 := by
    rw [← BitVec.toNat_inj, hden, BitVec.toNat_ofNat, Nat.zero_mod, Nat.mul_eq_zero, or_iff_right hcells.ne']
  refine ⟨?_, fun _ => ⟨by omega, ?_, ?_⟩⟩
  · rw [hdiv0]
    exact ⟨fun h => ⟨rfl, of_decide_eq_true h⟩, fun ⟨_, h⟩ => decide_eq_true h⟩
  · rw [hnum, hden, hbpr]; ring
  · rw [hnum, hden]; rfl

theorem Inv.execRatio {s t : State} (h : Inv s) (e : execRatio s = .next t) : Inv t := by
  rcases execRatio_cases e with ⟨_, rfl⟩ | ⟨_, _, rfl⟩ | ⟨hvalid, hgrid, rfl⟩
  · exact .raise _ h.memory h.config h.mse (.clearRatioFlags _)
  · exact .raise _ h.memory h.config h.mse (.clearRatioFlags _)
  · exact ⟨h.memory, h.config, .of_idle rfl, .of_success rfl, h.mse,
      .ratioDone hvalid h.config hgrid⟩

theorem Inv.exec {i : Instr} {s t : State} (h : Inv s) (e : exec i s = .next t) : Inv t := by
  cases i with
  | cfg => exact h.execCfg e
  | enc => exact h.execEnc e
  | dec => exact h.execDec e
  | mse => exact h.execMse e
  | ratio => exact h.execRatio e
  | clrerr => cases e; exact .complete (by decide) h.memory h.config h.mse h.ratio
  | srst => cases e; exact .resetRegisters h.memory

theorem Inv.acceptWord {w : CommandWord} {s t : State} (h : Inv s) (e : acceptWord w s = .next t) : Inv t := by
  rcases acceptWord_cases e with ⟨i, _, hi⟩ | rfl
  · exact h.exec hi
  · exact .raise _ h.memory h.config h.mse h.ratio

/-! ## The engine's turn keeps the invariants -/

theorem State.passH_lt (s : State) : s.passH < 65536 := by
  unfold State.passH
  split <;> exact BitVec.isLt _

theorem State.passW_lt (s : State) : s.passW < 65536 := by
  unfold State.passW
  split <;> exact BitVec.isLt _

/-- ENC and MSE scan ORIG (R182, R222). -/
theorem State.pass_orig {s : State} (h : s.status.lastop = Instr.enc.opcode ∨ s.status.lastop = Instr.mse.opcode) :
    s.passH = s.origH.toNat ∧ s.passW = s.origW.toNat := by
  have hdec : s.status.lastop ≠ Instr.dec.opcode := by
    rcases h with h | h <;> rw [h] <;> decide
  exact ⟨if_neg hdec, if_neg hdec⟩

/-- DEC scans RESID (R202). -/
theorem State.pass_resid {s : State} (h : s.status.lastop = Instr.dec.opcode) :
    s.passH = s.residH.toNat ∧ s.passW = s.residW.toNat :=
  ⟨if_pos h, if_pos h⟩

/-- An ENC or DEC pass has a valid configuration (R256). -/
theorem PassInv.cfgValid {s : State} (h : PassInv s) (hbusy : s.status.busy = true)
    (hop : s.status.lastop = Instr.enc.opcode ∨ s.status.lastop = Instr.dec.opcode) : s.status.cfgValid = true := by
  obtain ⟨_, _, ⟨_, hvalid⟩ | ⟨hmse, _⟩⟩ := h hbusy
  · exact hvalid
  · rw [hmse] at hop
    exact absurd hop (by decide)

/-- An MSE pass has equal dimensions and MSE_VALID clear (R256, R27). -/
theorem PassInv.mse_frame {s : State} (h : PassInv s) (hbusy : s.status.busy = true)
    (hop : s.status.lastop = Instr.mse.opcode) :
    s.reconH = s.origH ∧ s.reconW = s.origW ∧ s.status.mseValid = false := by
  obtain ⟨_, _, ⟨hencdec, _⟩ | ⟨_, hrh, hrw, hvalid, _⟩⟩ := h hbusy
  · rw [hop] at hencdec
    exact absurd hencdec (by decide)
  · exact ⟨hrh, hrw, hvalid⟩

/-- The cell after the one visited meets the pass invariant (R256), if the sum does. -/
theorem PassInv.setCursor {s : State} {i j : Nat} (hi : i < s.passH) (hj : j < s.passW)
    (hop : ((s.status.lastop = Instr.enc.opcode ∨ s.status.lastop = Instr.dec.opcode) ∧ s.status.cfgValid = true) ∨
      (s.status.lastop = Instr.mse.opcode ∧ s.reconH = s.origH ∧ s.reconW = s.origW ∧ s.status.mseValid = false ∧
        s.sse.toNat ≤ 65025 * addr i j s.passW)) :
    PassInv (s.setCursor (i, j)) := by
  have hI : (s.setCursor (i, j)).curI.toNat = i := Nat.mod_eq_of_lt (hi.trans s.passH_lt)
  have hJ : (s.setCursor (i, j)).curJ.toNat = j := Nat.mod_eq_of_lt (hj.trans s.passW_lt)
  intro _
  rw [State.passAddr, hI, hJ]
  exact ⟨hi, hj, hop⟩

/-- One ENC cell step (R182, R183). -/
theorem Inv.encStep {s t : State} (h : Inv s) (hbusy : s.status.busy = true) (hop : s.status.lastop = Instr.enc.opcode)
    (e : s.visit s.origH.toNat s.origW.toNat State.encWrite State.encFinish = .next t) : Inv t := by
  obtain ⟨horig, hresid, hrecon⟩ := h.memory
  have hmemory : MemoryInv s.encWrite := ⟨horig, State.encWrite_wf hresid, hrecon⟩
  obtain ⟨hH, hW⟩ := s.encWrite.pass_orig (.inl hop)
  rcases State.visit_cases e with ⟨_, rfl⟩ | ⟨i, j, hi, hj, _, rfl⟩
  · exact ⟨hmemory, h.config, .of_idle rfl, .of_success rfl, h.mse, h.ratio⟩
  · exact ⟨hmemory, h.config, .setCursor (hH ▸ hi) (hW ▸ hj) (.inl ⟨.inl hop, h.pass.cfgValid hbusy (.inl hop)⟩),
      h.outcome, h.mse, h.ratio⟩

/-- One DEC cell step (R202, R204). -/
theorem Inv.decStep {s t : State} (h : Inv s) (hbusy : s.status.busy = true) (hop : s.status.lastop = Instr.dec.opcode)
    (e : s.visit s.residH.toNat s.residW.toNat State.decWrite State.decFinish = .next t) : Inv t := by
  obtain ⟨horig, hresid, hrecon⟩ := h.memory
  have hmemory : MemoryInv s.decWrite := ⟨horig, hresid, State.decWrite_wf hrecon⟩
  obtain ⟨hH, hW⟩ := s.decWrite.pass_resid hop
  rcases State.visit_cases e with ⟨_, rfl⟩ | ⟨i, j, hi, hj, _, rfl⟩
  · exact ⟨hmemory, h.config, .of_idle rfl, .of_success rfl, h.mse, h.ratio⟩
  · exact ⟨hmemory, h.config, .setCursor (hH ▸ hi) (hW ▸ hj) (.inl ⟨.inr hop, h.pass.cfgValid hbusy (.inr hop)⟩),
      h.outcome, h.mse, h.ratio⟩

/-- A visited cell adds at most 65025 to the sum (R222). -/
theorem State.mseAdd_sse_le {s : State} (hi : s.curI.toNat < s.origH.toNat) (hj : s.curJ.toNat < s.origW.toNat)
    (hsse : s.sse.toNat ≤ 65025 * addr s.curI.toNat s.curJ.toNat s.origW.toNat) :
    s.mseAdd.sse.toNat ≤ 65025 * (addr s.curI.toNat s.curJ.toNat s.origW.toNat + 1) := by
  have hsum := State.toNat_mseAdd_sse hi hj hsse
  obtain ⟨_, hsq⟩ := s.cellDiff_sq_range (addr s.curI.toNat s.curJ.toNat s.origW.toNat)
  rw [← pow_two] at hsq
  omega

/-- The result that MSE's completion declares valid (R223, R224). -/
theorem MseInv.mseFinish {s : State} (hcells : 1 ≤ s.origH.toNat * s.origW.toNat)
    (hsse : s.sse.toNat ≤ 65025 * (s.origH.toNat * s.origW.toNat)) : MseInv s.mseFinish := by
  have hle := cells_le s.origH s.origW
  have hnpix : s.mseFinish.npix.toNat = s.origH.toNat * s.origW.toNat := Nat.mod_eq_of_lt (by omega)
  intro _
  rw [hnpix]
  exact ⟨hcells, hsse, rfl⟩

/-- One MSE cell step (R222, R223). -/
theorem Inv.mseStep {s t : State} (h : Inv s) (hbusy : s.status.busy = true) (hop : s.status.lastop = Instr.mse.opcode)
    (e : s.visit s.origH.toNat s.origW.toNat State.mseAdd State.mseFinish = .next t) : Inv t := by
  obtain ⟨hci, hcj, hsse⟩ := h.pass.of_mse hbusy hop
  obtain ⟨hrh, hrw, hvalid⟩ := h.pass.mse_frame hbusy hop
  obtain ⟨hH, hW⟩ := s.mseAdd.pass_orig (.inr hop)
  have hsum := State.mseAdd_sse_le hci hcj hsse
  rcases State.visit_cases e with ⟨hlast, rfl⟩ | ⟨i, j, hi, hj, hnext, rfl⟩
  · have hmse : MseInv s.mseAdd.mseFinish := .mseFinish (hlast ▸ Nat.le_add_left 1 _) (hlast ▸ hsum)
    exact ⟨h.memory, h.config, .of_idle rfl, .of_success rfl, hmse, h.ratio⟩
  · refine ⟨h.memory, h.config, .setCursor (hH ▸ hi) (hW ▸ hj) (.inr ⟨hop, hrh, hrw, hvalid, ?_⟩), h.outcome,
      .of_not_valid hvalid, h.ratio⟩
    rw [hW, State.mseAdd_origW, hnext]
    exact hsum

theorem Inv.engineTurn {s t : State} (h : Inv s) (e : engineTurn s = .next t) : Inv t := by
  cases hbusy : s.status.busy with
  | false =>
    rw [engineTurn_idle hbusy] at e
    cases e
    exact h
  | true =>
    rw [engineTurn_busy hbusy] at e
    rcases engineStep_cases e with ⟨hop, _, hv⟩ | ⟨hop, hv⟩ | ⟨hop, hv⟩
    · exact h.encStep hbusy hop hv
    · exact h.decStep hbusy hop hv
    · exact h.mseStep hbusy hop hv

theorem Inv.effect {e : Event} {s t : State} (h : Inv s) (heff : Effect e s t) : Inv t := by
  cases heff with
  | host script readings ht => exact ht ▸ h.withHost script readings
  | reset _ ht => exact ht ▸ .resetRegisters h.memory
  | turn _ ht => exact h.engineTurn ht
  | register idle r v ht => exact ht ▸ h.writeReg idle r v
  | cell idle sp a v _ ht => exact ht ▸ h.writeCell idle sp a v
  | command _ v _ ht => exact h.acceptWord ht

/-! ## No step stops -/

/-- Every command answers a next state (R250). -/
theorem exists_exec_eq_next (i : Instr) (s : State) : ∃ t, exec i s = .next t := by
  cases i with
  | cfg => exact exists_execCfg_eq_next s
  | enc => simp only [exec_enc, execEnc]; split_ifs <;> exact ⟨_, rfl⟩
  | dec => simp only [exec_dec, execDec]; split_ifs <;> exact ⟨_, rfl⟩
  | mse => simp only [exec_mse, execMse]; split_ifs <;> exact ⟨_, rfl⟩
  | ratio => exact exists_execRatio_eq_next s
  | clrerr => exact ⟨_, rfl⟩
  | srst => exact ⟨_, rfl⟩

theorem exists_acceptWord_eq_next (w : CommandWord) (s : State) : ∃ t, acceptWord w s = .next t := by
  cases hw : decode w with
  | ok i => simp only [acceptWord, hw]; exact exists_exec_eq_next i s
  | error e => exact ⟨_, acceptWord_of_decode_error hw s⟩

/-- Every transaction answers a next state (R90 to R93). -/
theorem exists_transact_eq_next (tr : Transaction) (s : State) : ∃ t, transact tr s = .next t := by
  cases tr with
  | rd n => exact ⟨_, rfl⟩
  | rm sp a => exact ⟨_, rfl⟩
  | wm sp a v => exact ⟨_, rfl⟩
  | wr n v =>
    cases hbusy : s.status.busy with
    | true => exact ⟨_, transact_wr_busy hbusy n v⟩
    | false =>
      by_cases hn : n = 0#16
      · rw [hn, transact_command hbusy]
        exact exists_acceptWord_eq_next _ s
      · rcases ofNumber_cases n.toNat with ⟨r, _, hr⟩ | ⟨hnone, _⟩
        · exact ⟨_, transact_wr_reg hbusy hr hn v⟩
        · exact ⟨_, transact_wr_none hbusy hnone v⟩

/-- The engine's turn in a pass visits the cell at the cursor of the grid scanned (R256): none of the three faults can
occur. -/
theorem Inv.engineTurn_eq_visit {s : State} (h : Inv s) (hbusy : s.status.busy = true) :
    ∃ cell finish, Machine.engineTurn s = s.visit s.passH s.passW cell finish ∧
      ((cell = State.encWrite ∧ finish = State.encFinish) ∨ (cell = State.decWrite ∧ finish = State.decFinish) ∨
        (cell = State.mseAdd ∧ finish = State.mseFinish)) := by
  rw [engineTurn_busy hbusy]
  obtain ⟨_, _, ⟨henc | hdec, hvalid⟩ | ⟨hmse, _⟩⟩ := h.pass hbusy
  · obtain ⟨hH, hW⟩ := s.pass_orig (.inl henc)
    refine ⟨_, _, ?_, .inl ⟨rfl, rfl⟩⟩
    rw [engineStep_enc henc, encCell, if_neg (cfgStep_ne_zero hvalid h.config), hH, hW]
  · obtain ⟨hH, hW⟩ := s.pass_resid hdec
    refine ⟨_, _, ?_, .inr (.inl ⟨rfl, rfl⟩)⟩
    rw [engineStep_dec hdec, decCell, hH, hW]
  · obtain ⟨hH, hW⟩ := s.pass_orig (.inr hmse)
    refine ⟨_, _, ?_, .inr (.inr ⟨rfl, rfl⟩)⟩
    rw [engineStep_mse hmse, mseCell, hH, hW]

theorem Inv.exists_engineTurn_eq_next {s : State} (h : Inv s) : ∃ t, Machine.engineTurn s = .next t := by
  cases hbusy : s.status.busy with
  | false => exact ⟨s, engineTurn_idle hbusy⟩
  | true =>
    obtain ⟨hi, hj, _⟩ := h.pass hbusy
    obtain ⟨cell, finish, hvisit, _⟩ := h.engineTurn_eq_visit hbusy
    exact ⟨_, hvisit.trans (State.visit_of_lt hi hj)⟩

theorem Inv.exists_perform_eq_next {s : State} (h : Inv s) (e : Event) : ∃ t, perform e s = .next t := by
  cases e with
  | host tr => exact exists_transact_eq_next tr s
  | check c => exact ⟨_, rfl⟩
  | wait => exact ⟨_, rfl⟩
  | engine => exact h.exists_engineTurn_eq_next
  | reset => exact ⟨_, rfl⟩

end Machine

namespace Proofs

open Machine

/-- Settles O43: the effect of each event keeps the invariants, for they do not speak of the host's side. -/
theorem everyStepKeepsInvariants : Obligations.EveryStepKeepsInvariants := by
  intro s t h e
  rcases step_cases e with ⟨_, hturn⟩ | ⟨_, rest, _, heffect⟩
  · exact h.engineTurn hturn
  · exact (h.withHost rest s.readings).effect heffect

/-- Settles O42: resetting the registers of an empty machine gives back the reset state. -/
theorem resetMeetsInvariants : Obligations.ResetMeetsInvariants :=
  Inv.resetRegisters (s := State.reset) State.reset_wf

/-- Settles O44: only the engine's turn could stop, and the pass invariant rules out its three faults. -/
theorem noStepStops : Obligations.NoStepStops := by
  intro s h
  cases hs : s.script with
  | nil => rw [step_nil hs]; exact h.exists_engineTurn_eq_next
  | cons e rest => rw [step_cons hs]; exact (h.withHost rest s.readings).exists_perform_eq_next e

end Proofs

end Sys2Proof
end

section
/-! SUPPORT and proofs about command words, reads and the STATUS word (30_encoding.md, 10_state.md): decoder and encoder
(R95, R96), what a read returns (R90, R92, R106), and the layout of STATUS (R24). -/

namespace Sys2Proof

/-! ## Decoder and encoder -/

theorem decode_encode (i : Instr) : decode (encode i) = .ok i := by
  cases i <;> rfl

/-- The two fields of a command word make up the word (R94). -/
theorem commandWord_eq_append (w : CommandWord) : w = zeroField w ++ opField w := by
  refine BitVec.eq_of_getLsbD_eq fun k hk => ?_
  simp only [zeroField, opField, BitVec.getLsbD_append, BitVec.getLsbD_extractLsb']
  by_cases h8 : k < 8
  · simp [h8]
  · simp [h8, show k - 8 < 24 by omega, show 8 + (k - 8) = k by omega]

theorem decode_eq_ok_iff_eq_encode {w : CommandWord} {i : Instr} : decode w = .ok i ↔ w = encode i := by
  constructor
  · intro h
    obtain ⟨hzero, hop⟩ := decode_eq_ok_iff.1 h
    rw [commandWord_eq_append w, hzero, hop, encode]
  · rintro rfl
    exact decode_encode i

namespace Machine

theorem acceptWord_of_decode_ok {w : CommandWord} {i : Instr} (h : decode w = .ok i) (s : State) :
    acceptWord w s = exec i s := by
  simp only [acceptWord, h]

/-! ## The STATUS word -/

/-- A concatenation as a number: the high part counts units of the low part's size. -/
theorem toNat_append_eq_add {m n : Nat} (x : BitVec m) (y : BitVec n) :
    (x ++ y).toNat = x.toNat * 2 ^ n + y.toNat := by
  rw [BitVec.toNat_append, ← Nat.shiftLeft_add_eq_or_of_lt y.isLt, Nat.shiftLeft_eq]

theorem toNat_flagBit (b : Bool) : (flagBit b).toNat = b.toNat := by
  cases b <;> rfl

/-- The layout of R24 as a sum. -/
theorem Status.toNat_word (t : Status) :
    t.word.toNat =
      t.busy.toNat + 2 * t.cfgValid.toNat + 4 * t.mseValid.toNat + 8 * t.ratioValid.toNat + 16 * t.ratioDiv0.toNat +
        2 ^ 8 * t.result.toNat + 2 ^ 12 * t.errs.toNat + 2 ^ 16 * t.lastop.toNat := by
  simp only [Status.word, toNat_append_eq_add, toNat_flagBit, BitVec.toNat_ofNat]
  omega

/-- The value a STATUS field has in the state. -/
def Status.field (t : Status) : StatusField → Nat
  | .busy => t.busy.toNat
  | .cfgValid => t.cfgValid.toNat
  | .mseValid => t.mseValid.toNat
  | .ratioValid => t.ratioValid.toNat
  | .ratioDiv0 => t.ratioDiv0.toNat
  | .result => t.result.toNat
  | .errs => t.errs.toNat
  | .lastop => t.lastop.toNat

/-- A field cut out of the STATUS word as a host read returned it is the field's value (R24, R106). -/
theorem statusField_word (t : Status) (f : StatusField) : statusField f (t.word.setWidth 64) = t.field f := by
  have hbusy := t.busy.toNat_lt
  have hcfg := t.cfgValid.toNat_lt
  have hmse := t.mseValid.toNat_lt
  have hratio := t.ratioValid.toNat_lt
  have hdiv0 := t.ratioDiv0.toNat_lt
  have hresult := t.result.isLt
  have herrs := t.errs.isLt
  have hlastop := t.lastop.isLt
  rw [statusField, BitVec.toNat_setWidth_of_le (by decide), Status.toNat_word]
  cases f <;> simp only [fieldRange, Status.field] <;> omega

/-! ## What a read returns -/

/-- The value of a register as a number (R22, R90). -/
def State.regNat (s : State) : Reg → Nat
  | .cmd => 0
  | .status => s.status.word.toNat
  | .modeReq => s.modeReq.toNat
  | .levelsReq => s.levelsReq.toNat
  | .origH => s.origH.toNat
  | .origW => s.origW.toNat
  | .residH => s.residH.toNat
  | .residW => s.residW.toNat
  | .reconH => s.reconH.toNat
  | .reconW => s.reconW.toNat
  | .cfgMode => s.cfgMode.code.toNat
  | .cfgLevels => s.cfgLevels.toNat
  | .cfgStep => s.cfgStep.toNat
  | .curI => s.curI.toNat
  | .curJ => s.curJ.toNat
  | .sse => s.sse.toNat
  | .npix => s.npix.toNat
  | .mseQ => s.mseQ.toNat
  | .ratioNum => s.ratioNum.toNat
  | .ratioDen => s.ratioDen.toNat
  | .ratioBpr => s.ratioBpr.toNat
  | .ratioQ => s.ratioQ.toNat

/-- Zero extension keeps the number (R21). -/
theorem State.toNat_readReg (s : State) (r : Reg) : (s.readReg r).toNat = s.regNat r := by
  cases r <;> rfl

/-- The value a cell has as a number, its pattern read unsigned (R92). -/
theorem State.toNat_readCell (s : State) (sp : Space) (a : CellAddr) :
    (s.readCell sp a).toNat = match sp with
      | .orig => (s.readOrig a.toNat).toNat
      | .resid => (s.readResid a.toNat).toNat
      | .recon => (s.readRecon a.toNat).toNat := by
  cases sp <;> exact BitVec.toNat_setWidth_of_le (by decide)

/-- A RESID cell after sign extension (R106). -/
theorem State.toInt_readCell_resid (s : State) (a : CellAddr) :
    ((s.readCell .resid a).setWidth 16).toInt = s.residInt a.toNat := by
  rw [State.residInt, State.readCell, BitVec.setWidth_setWidth_of_le _ (by decide), BitVec.setWidth_eq]

end Machine

namespace Proofs

open Machine

/-- Settles O2: the two fields make up the word. -/
theorem decodeAndEncodeAgree : Obligations.DecodeAndEncodeAgree :=
  fun _ _ _ => decode_eq_ok_iff_eq_encode

/-- Settles O3: eleven evaluations of the decoder. -/
theorem writtenWordsDecode : Obligations.WrittenWordsDecode :=
  ⟨rfl, rfl, rfl, rfl, rfl, rfl, rfl, rfl, rfl, rfl, rfl⟩

/-- Settles O4: an idle write to CMD is the acceptance of its low 32 bits, which is the command they decode to. -/
theorem stepRunsDecodedCommand : Obligations.StepRunsDecodedCommand := by
  intro s rest v i hscript hidle _ hdecode
  rw [step_cons hscript, perform_host, transact_command (s := { s with script := rest }) hidle, setWidth_commandWord,
    acceptWord_of_decode_ok hdecode]

/-- Settles O9: the number read is that of the register `n` names, and 0 where it names none. -/
theorem registerReadTransaction : Obligations.RegisterReadTransaction := by
  intro s rest n hscript
  refine ⟨s.readNumber n, ?_, ?_⟩
  · rw [step_cons hscript, perform_host, transact, State.readNumber_script, State.record]
  · rcases ofNumber_cases n.toNat with ⟨r, _, hr⟩ | ⟨hnone, hgt⟩
    · rw [State.readNumber_of_number hr, State.toNat_readReg, ← hr]
      cases r <;> rfl
    · rw [State.readNumber_of_none hnone]
      split
      case h_22 => rfl
      all_goals omega

/-- Settles O10: the number read is that of the addressed cell. -/
theorem cellReadTransaction : Obligations.CellReadTransaction := by
  intro s rest sp a hscript
  refine ⟨s.readCell sp a, ?_, s.toNat_readCell sp a⟩
  rw [step_cons hscript, perform_host, transact, State.readCell_script, State.record]

/-- Settles O11: the word is a concatenation, and a concatenation is a sum. -/
theorem statusWordLayout : Obligations.StatusWordLayout :=
  Status.toNat_word

/-- Settles O12: `engineTurn` in both places where the engine has a turn. -/
theorem engineMovesOnlyWhenBusy : Obligations.EngineMovesOnlyWhenBusy := by
  intro s rest
  refine ⟨fun hscript => ?_, fun hscript => ?_⟩
  · rw [step_nil hscript, engineTurn]
  · rw [step_cons hscript, perform_engine, engineTurn]

/-- Settles O58: a comparing read is recorded with its comparison; a field is cut out of the STATUS word, a residual is
sign extended. -/
theorem comparingReadsCompare : Obligations.ComparingReadsCompare := by
  intro s rest c hscript
  refine ⟨s.checkRead c, checkMeets c (s.checkRead c), ?_, ?_⟩
  · have hread : ({ s with script := rest } : State).checkRead c = s.checkRead c := by cases c <;> rfl
    rw [step_cons hscript, perform_check, hread, State.record]
  · cases c with
    | reg n v => exact decide_eq_true_iff
    | field f v =>
      rw [State.checkRead, State.readReg, checkMeets, statusField_word, decide_eq_true_iff]
      cases f <;> rfl
    | cell sp a v =>
      cases sp with
      | orig => exact decide_eq_true_iff
      | recon => exact decide_eq_true_iff
      | resid => rw [State.checkRead, checkMeets, State.toInt_readCell_resid, decide_eq_true_iff]

/-- Settles O59: both sides are one list. -/
theorem pipelineLineExpansion : Obligations.PipelineLineExpansion :=
  fun _ _ => rfl

end Proofs

end Sys2Proof
end

section
/-! SUPPORT and proofs about reset, errors and what each event leaves alone (60_exceptions.md, 70_reset_and_hazards.md,
10_state.md, 20_memory.md). -/

namespace Sys2Proof

namespace Machine

/-! ## Reset -/

theorem State.readReg_resetRegisters (s : State) (r : Reg) : s.resetRegisters.readReg r = 0#64 := by
  cases r
  case status => exact (by decide : Status.reset.word.setWidth 64 = 0#64)
  all_goals rfl

theorem State.readNumber_resetRegisters (s : State) (n : RegNo) : s.resetRegisters.readNumber n = 0#64 := by
  rcases ofNumber_cases n.toNat with ⟨r, _, hr⟩ | ⟨hnone, _⟩
  · rw [State.readNumber_of_number hr, State.readReg_resetRegisters]
  · rw [State.readNumber_of_none hnone]

theorem SameCells.of_memories {s t : State} (horig : t.orig = s.orig) (hresid : t.resid = s.resid)
    (hrecon : t.recon = s.recon) : SameCells s t :=
  ⟨State.readOrig_congr horig, State.readResid_congr hresid, State.readRecon_congr hrecon⟩

/-! ## A command that ends in an error -/

/-- A command that ends in an error has written STATUS, where it cleared no sticky bit, and at most the latched
configuration (R287). -/
theorem exec_error_frame {i : Instr} {s t : State} (e : exec i s = .next t) (hidle : t.status.busy = false)
    (herror : t.status.result ≠ 0#4) :
    ∃ (status : Status) (m : PredictorMode) (l : BitVec 32) (p : BitVec 9) (x : Cause),
      t = { s with status := status, cfgMode := m, cfgLevels := l, cfgStep := p } ∧
        status.errs = s.status.errs ||| errBit x.code := by
  cases i with
  | cfg =>
    rcases execCfg_cases e with ⟨_, rfl⟩ | ⟨m, _, _, rfl⟩
    · exact ⟨_, _, _, _, .configError, rfl, rfl⟩
    · exact absurd rfl herror
  | enc =>
    rcases execEnc_cases e with ⟨_, rfl⟩ | ⟨_, _, rfl⟩ | ⟨_, _, rfl⟩
    · exact ⟨_, _, _, _, .configError, rfl, rfl⟩
    · exact ⟨_, _, _, _, .inputError, rfl, rfl⟩
    · cases hidle
  | dec =>
    rcases execDec_cases e with ⟨_, rfl⟩ | ⟨_, _, rfl⟩ | ⟨_, _, rfl⟩
    · exact ⟨_, _, _, _, .configError, rfl, rfl⟩
    · exact ⟨_, _, _, _, .inputError, rfl, rfl⟩
    · cases hidle
  | mse =>
    rcases execMse_cases e with ⟨_, rfl⟩ | ⟨_, _, _, rfl⟩ | ⟨_, _, _, rfl⟩
    · exact ⟨_, _, _, _, .dimensionMismatchError, rfl, rfl⟩
    · exact ⟨_, _, _, _, .inputError, rfl, rfl⟩
    · cases hidle
  | ratio =>
    rcases execRatio_cases e with ⟨_, rfl⟩ | ⟨_, _, rfl⟩ | ⟨_, _, rfl⟩
    · exact ⟨_, _, _, _, .configError, rfl, rfl⟩
    · exact ⟨_, _, _, _, .inputError, rfl, rfl⟩
    · exact absurd rfl herror
  | clrerr => cases e; exact absurd rfl herror
  | srst => cases e; exact absurd rfl herror

/-! ## What a command leaves alone -/

/-- No command's acceptance writes a cell; every write is an engine step's (R182, R202). -/
theorem exec_memories {i : Instr} {s t : State} (e : exec i s = .next t) :
    t.orig = s.orig ∧ t.resid = s.resid ∧ t.recon = s.recon := by
  cases i with
  | cfg => rcases execCfg_cases e with ⟨_, rfl⟩ | ⟨m, _, _, rfl⟩ <;> exact ⟨rfl, rfl, rfl⟩
  | enc => rcases execEnc_cases e with ⟨_, rfl⟩ | ⟨_, _, rfl⟩ | ⟨_, _, rfl⟩ <;> exact ⟨rfl, rfl, rfl⟩
  | dec => rcases execDec_cases e with ⟨_, rfl⟩ | ⟨_, _, rfl⟩ | ⟨_, _, rfl⟩ <;> exact ⟨rfl, rfl, rfl⟩
  | mse => rcases execMse_cases e with ⟨_, rfl⟩ | ⟨_, _, _, rfl⟩ | ⟨_, _, _, rfl⟩ <;> exact ⟨rfl, rfl, rfl⟩
  | ratio => rcases execRatio_cases e with ⟨_, rfl⟩ | ⟨_, _, rfl⟩ | ⟨_, _, rfl⟩ <;> exact ⟨rfl, rfl, rfl⟩
  | clrerr => cases e; exact ⟨rfl, rfl, rfl⟩
  | srst => cases e; exact ⟨rfl, rfl, rfl⟩

theorem acceptWord_memories {w : CommandWord} {s t : State} (e : acceptWord w s = .next t) :
    t.orig = s.orig ∧ t.resid = s.resid ∧ t.recon = s.recon := by
  rcases acceptWord_cases e with ⟨i, _, hi⟩ | rfl
  · exact exec_memories hi
  · exact ⟨rfl, rfl, rfl⟩

/-- CFG_VALID and registers 10 to 12 are the same in both states. -/
def SameConfig (s t : State) : Prop :=
  t.cfgMode = s.cfgMode ∧ t.cfgLevels = s.cfgLevels ∧ t.cfgStep = s.cfgStep ∧ t.status.cfgValid = s.status.cfgValid

theorem SameConfig.refl (s : State) : SameConfig s s := ⟨rfl, rfl, rfl, rfl⟩

/-- Only CFG and SRST write the latched configuration (R26). -/
theorem exec_sameConfig {i : Instr} {s t : State} (e : exec i s = .next t) :
    SameConfig s t ∨ i = .cfg ∨ i = .srst := by
  cases i with
  | cfg => exact .inr (.inl rfl)
  | srst => exact .inr (.inr rfl)
  | enc => left; rcases execEnc_cases e with ⟨_, rfl⟩ | ⟨_, _, rfl⟩ | ⟨_, _, rfl⟩ <;> exact .refl s
  | dec => left; rcases execDec_cases e with ⟨_, rfl⟩ | ⟨_, _, rfl⟩ | ⟨_, _, rfl⟩ <;> exact .refl s
  | mse => left; rcases execMse_cases e with ⟨_, rfl⟩ | ⟨_, _, _, rfl⟩ | ⟨_, _, _, rfl⟩ <;> exact .refl s
  | ratio => left; rcases execRatio_cases e with ⟨_, rfl⟩ | ⟨_, _, rfl⟩ | ⟨_, _, rfl⟩ <;> exact .refl s
  | clrerr => left; cases e; exact .refl s

/-- Of the words accepted only 1 and 7, CFG's and SRST's, write the latched configuration (R26, R96). -/
theorem acceptWord_sameConfig {v : HostValue} {s t : State} (e : acceptWord (v.setWidth 32) s = .next t) :
    SameConfig s t ∨ v.toNat % 2 ^ 32 = 1 ∨ v.toNat % 2 ^ 32 = 7 := by
  rcases acceptWord_cases e with ⟨i, hdecode, hi⟩ | rfl
  · have hword : v.toNat % 2 ^ 32 = (encode i).toNat := by
      rw [← decode_eq_ok_iff_eq_encode.1 hdecode, BitVec.toNat_setWidth]
    rcases exec_sameConfig hi with h | rfl | rfl
    · exact .inl h
    · exact .inr (.inl hword)
    · exact .inr (.inr hword)
  · exact .inl (.refl s)

theorem engineTurn_sameConfig {s t : State} (e : engineTurn s = .next t) : SameConfig s t := by
  obtain ⟨_, hmode, hlevels, hstep, hvalid, _⟩ := engineTurn_frame e
  exact ⟨hmode, hlevels, hstep, hvalid⟩

/-- An event that changes the latched configuration is a reset or a write of CFG's or SRST's word while idle. -/
theorem Effect.sameConfig {e : Event} {s t : State} (h : Effect e s t) :
    SameConfig s t ∨ e = .reset ∨
      (s.status.busy = false ∧ ∃ v : HostValue, e = .host (.wr 0#16 v) ∧
        (v.toNat % 2 ^ 32 = 1 ∨ v.toNat % 2 ^ 32 = 7)) := by
  cases h with
  | host script readings ht => subst ht; exact .inl (.refl s)
  | reset he _ => exact .inr (.inl he)
  | turn _ ht => exact .inl (engineTurn_sameConfig ht)
  | register _ r v ht => subst ht; left; cases r <;> exact .refl s
  | cell _ sp a v _ ht => subst ht; left; cases sp <;> exact .refl s
  | command idle v he ht => exact (acceptWord_sameConfig ht).imp_right fun hv => .inr ⟨idle, v, he, hv⟩

/-- Who writes each space (R60): the host, and RESID also ENC, RECON also DEC. -/
def HasWriters (e : Event) (s t : State) : Prop :=
  (t.orig = s.orig ∨ ∃ a v, e = .host (.wm .orig a v)) ∧
  (t.resid = s.resid ∨ (∃ a v, e = .host (.wm .resid a v)) ∨
    (s.status.busy = true ∧ s.status.lastop = Instr.enc.opcode)) ∧
  (t.recon = s.recon ∨ (∃ a v, e = .host (.wm .recon a v)) ∨
    (s.status.busy = true ∧ s.status.lastop = Instr.dec.opcode))

theorem HasWriters.of_memories {e : Event} {s t : State} (h : t.orig = s.orig ∧ t.resid = s.resid ∧ t.recon = s.recon) :
    HasWriters e s t :=
  ⟨.inl h.1, .inl h.2.1, .inl h.2.2⟩

theorem HasWriters.of_engineTurn {e : Event} {s t : State} (h : engineTurn s = .next t) : HasWriters e s t := by
  obtain ⟨horig, _, _, _, _, hresid, hrecon⟩ := engineTurn_frame h
  exact ⟨.inl horig, hresid.imp_right .inr, hrecon.imp_right .inr⟩

theorem Effect.hasWriters {e : Event} {s t : State} (h : Effect e s t) : HasWriters e s t := by
  cases h with
  | host script readings ht => subst ht; exact .of_memories ⟨rfl, rfl, rfl⟩
  | reset _ ht => subst ht; exact .of_memories ⟨rfl, rfl, rfl⟩
  | turn _ ht => exact .of_engineTurn ht
  | register _ r v ht => subst ht; cases r <;> exact .of_memories ⟨rfl, rfl, rfl⟩
  | command _ v _ ht => exact .of_memories (acceptWord_memories ht)
  | cell _ sp a v he ht =>
    subst ht
    cases sp with
    | orig => exact ⟨.inr ⟨a, v, he⟩, .inl rfl, .inl rfl⟩
    | resid => exact ⟨.inl rfl, .inr (.inl ⟨a, v, he⟩), .inl rfl⟩
    | recon => exact ⟨.inl rfl, .inl rfl, .inr (.inl ⟨a, v, he⟩)⟩

end Machine

namespace Proofs

open Machine

/-- Settles O14: raising is Complete with the cause's code, whose one sticky bit `getLsbD_errBit` names. -/
theorem raiseRecordsCause : Obligations.RaiseRecordsCause := by
  intro s x
  refine ⟨x.code.toNat, by cases x <;> rfl, s.status.errs ||| errBit x.code, ?_, fun k hk => ?_⟩
  · rw [State.raise_eq, BitVec.ofNat_toNat, BitVec.setWidth_eq]
  · rw [BitVec.getLsbD_or, getLsbD_errBit _ hk]

/-- Settles O15: the reset state is the register reset of itself. -/
theorem resetRegistersAreZero : Obligations.ResetRegistersAreZero :=
  ⟨State.readNumber_resetRegisters State.reset, rfl⟩

/-- Settles O16: the reset event is `State.resetRegisters`, which keeps the memories and the host's side. -/
theorem resetWorksInEveryState : Obligations.ResetWorksInEveryState := by
  intro s rest hscript
  rw [step_cons hscript, perform_reset]
  exact ⟨_, rfl, State.readNumber_resetRegisters _, rfl, .of_memories rfl rfl rfl, rfl, rfl⟩

/-- Settles O17: SRST is the register reset, LASTOP included. -/
theorem srstRestoresResetRegisters : Obligations.SrstRestoresResetRegisters := by
  have hdecode : decode 0x00000007#32 = .ok .srst := rfl
  refine ⟨hdecode, fun s => ⟨?_, fun hbusy => transact_wr_busy hbusy _ _, fun hidle => ?_⟩⟩
  · exact ⟨_, rfl, State.readNumber_resetRegisters _, rfl, .of_memories rfl rfl rfl, rfl, rfl, rfl⟩
  · rw [transact_command hidle]
    exact acceptWord_of_decode_ok hdecode s

/-- Settles O19: of the fields named an error writes only ERRS, and there it sets a bit. -/
theorem errorsLeaveNoTrace : Obligations.ErrorsLeaveNoTrace := by
  intro i s t _ e hidle herror
  obtain ⟨status, m, l, p, x, rfl, herrs⟩ := exec_error_frame e hidle herror
  refine ⟨.of_memories rfl rfl rfl, rfl, rfl, rfl, rfl, rfl, rfl, rfl, rfl, rfl, rfl, rfl, rfl, rfl, rfl, rfl, rfl, rfl,
    rfl, rfl, ?_⟩
  change s.status.errs &&& status.errs = s.status.errs
  rw [herrs]
  refine BitVec.eq_of_getLsbD_eq fun k _ => ?_
  rw [BitVec.getLsbD_and, BitVec.getLsbD_or]
  cases s.status.errs.getLsbD k <;> rfl

/-- Settles O21, by the effects of a step. -/
theorem onlyCfgAndResetChangeConfiguration : Obligations.OnlyCfgAndResetChangeConfiguration := by
  intro s t e
  rcases step_cases e with ⟨_, hturn⟩ | ⟨ev, rest, hscript, heffect⟩
  · exact .inl (engineTurn_sameConfig hturn)
  · rcases heffect.sameConfig with h | rfl | ⟨hidle, v, rfl, hv⟩
    · exact .inl h
    · exact .inr (.inl ⟨rest, hscript⟩)
    · exact .inr (.inr ⟨v, rest, hscript, hidle, hv⟩)

/-- Settles O45, by the effects of a step: a cell changes only with its memory. -/
theorem spacesHaveTheirWriters : Obligations.SpacesHaveTheirWriters := by
  intro s t a e
  rcases step_cases e with ⟨_, hturn⟩ | ⟨ev, rest, hscript, heffect⟩
  · obtain ⟨horig, _, _, _, _, hresid, hrecon⟩ := engineTurn_frame hturn
    exact ⟨fun hne => absurd (State.readOrig_congr horig a) hne,
      fun hne => .inr (hresid.resolve_left fun h => hne (State.readResid_congr h a)),
      fun hne => .inr (hrecon.resolve_left fun h => hne (State.readRecon_congr h a))⟩
  · obtain ⟨horig, hresid, hrecon⟩ := heffect.hasWriters
    refine ⟨fun hne => ?_, fun hne => ?_, fun hne => ?_⟩
    · obtain ⟨c, v, rfl⟩ := horig.resolve_left fun h => hne (State.readOrig_congr h a)
      exact ⟨c, v, rest, hscript⟩
    · refine (hresid.resolve_left fun h => hne (State.readResid_congr h a)).imp_left ?_
      rintro ⟨c, v, rfl⟩
      exact ⟨c, v, rest, hscript⟩
    · refine (hrecon.resolve_left fun h => hne (State.readRecon_congr h a)).imp_left ?_
      rintro ⟨c, v, rfl⟩
      exact ⟨c, v, rest, hscript⟩

end Proofs

end Sys2Proof
end

section
/-! SUPPORT and proofs about the datapath (40_predictor.md, 41_quantizer.md, 43_encoder.md): the neighbours and the
prediction (R65, R120 to R130), QUANT (R142 to R145), and the size of a residual (R185). -/

namespace Sys2Proof

namespace Machine

/-! ## The prediction -/

theorem left_zero (cell : Nat → Int) (i w : Nat) : left cell i 0 w = 0 := rfl

theorem left_of_pos (cell : Nat → Int) {i j w : Nat} (hj : 0 < j) : left cell i j w = cell (addr i (j - 1) w) :=
  if_pos hj

theorem top_zero (cell : Nat → Int) (j w : Nat) : top cell 0 j w = 0 := rfl

theorem top_of_pos (cell : Nat → Int) {i j w : Nat} (hi : 0 < i) : top cell i j w = cell (addr (i - 1) j w) :=
  if_pos hi

theorem topLeft_zero_row (cell : Nat → Int) (j w : Nat) : topLeft cell 0 j w = 0 :=
  if_neg fun h => Nat.lt_irrefl 0 h.1

theorem topLeft_zero_col (cell : Nat → Int) (i w : Nat) : topLeft cell i 0 w = 0 :=
  if_neg fun h => Nat.lt_irrefl 0 h.2

theorem topLeft_of_pos (cell : Nat → Int) {i j w : Nat} (hi : 0 < i) (hj : 0 < j) :
    topLeft cell i j w = cell (addr (i - 1) (j - 1) w) :=
  if_pos ⟨hi, hj⟩

/-- A neighbour is a cell or the constant 0 (R65), so it is in the range of the cells. -/
theorem neighbours_range {cell : Nat → Int} (hcell : ∀ a, 0 ≤ cell a ∧ cell a ≤ 255) (i j w : Nat) :
    (0 ≤ left cell i j w ∧ left cell i j w ≤ 255) ∧ (0 ≤ top cell i j w ∧ top cell i j w ≤ 255) ∧
      (0 ≤ topLeft cell i j w ∧ topLeft cell i j w ≤ 255) := by
  refine ⟨?_, ?_, ?_⟩
  · unfold left; split_ifs; exacts [hcell _, by decide]
  · unfold top; split_ifs; exacts [hcell _, by decide]
  · unfold topLeft; split_ifs; exacts [hcell _, by decide]

/-- The result ranges of 40_predictor.md section 2, for each mode. -/
theorem predict_range {cell : Nat → Int} (hcell : ∀ a, 0 ≤ cell a ∧ cell a ≤ 255) (i j w : Nat) :
    (0 ≤ predict cell i j w .order1 ∧ predict cell i j w .order1 ≤ 255) ∧
      (-255 ≤ predict cell i j w .order2 ∧ predict cell i j w .order2 ≤ 510) ∧
      (0 ≤ predict cell i j w .adaptive ∧ predict cell i j w .adaptive ≤ 255) := by
  obtain ⟨hleft, htop, htopLeft⟩ := neighbours_range hcell i j w
  simp only [predict]
  omega

/-- R130: the three neighbours stand at smaller addresses. -/
theorem predict_congr {f g : Nat → Int} {i j w : Nat} (hj : j < w) (h : ∀ a, a < addr i j w → f a = g a)
    (m : PredictorMode) : predict f i j w m = predict g i j w m := by
  have hrow : ∀ k, 0 < i → k ≤ j → addr (i - 1) k w < addr i j w := by
    intro k hi hk
    obtain ⟨i, rfl⟩ := Nat.exists_eq_add_of_le' hi
    simp only [addr, Nat.add_sub_cancel, Nat.succ_mul]
    omega
  have hleft : left f i j w = left g i j w :=
    ite_congr rfl (fun hj0 => h _ (by simp only [addr]; omega)) fun _ => rfl
  have htop : top f i j w = top g i j w :=
    ite_congr rfl (fun hi => h _ (hrow j hi le_rfl)) fun _ => rfl
  have htopLeft : topLeft f i j w = topLeft g i j w :=
    ite_congr rfl (fun ⟨hi, _⟩ => h _ (hrow (j - 1) hi (Nat.sub_le j 1))) fun _ => rfl
  cases m <;> simp only [predict, hleft, htop, htopLeft]

/-! ## QUANT -/

theorem quant_eq_of_roundsHalfUp {e q : Int} {s : Nat} (hs : 1 ≤ s) (h : RoundsHalfUp e s q) : quant e s = q :=
  ((roundsHalfUp_iff_eq_quant hs).1 h).symm

theorem roundsHalfUp_quant (e : Int) {s : Nat} (hs : 1 ≤ s) : RoundsHalfUp e s (quant e s) :=
  (roundsHalfUp_iff_eq_quant hs).2 rfl

/-- Away from ties rounding half up is rounding to nearest, which is odd. -/
theorem quant_neg_of_not_tie {e : Int} {s : Nat} (hs : 1 ≤ s) (htie : ¬ ∃ k : Int, 2 * e = (2 * k + 1) * s) :
    quant (-e) s = -quant e s := by
  obtain ⟨hlow, hhigh⟩ := roundsHalfUp_quant e hs
  have hne : 2 * e ≠ 2 * (quant e s * s) - s := fun heq => htie ⟨quant e s - 1, by rw [heq]; ring⟩
  refine quant_eq_of_roundsHalfUp hs ⟨?_, ?_⟩ <;> rw [Int.neg_mul] <;> omega

theorem quant_neg_of_tie {e k : Int} {s : Nat} (hs : 1 ≤ s) (htie : 2 * e = (2 * k + 1) * s) :
    quant (-e) s = -quant e s + 1 := by
  have hneg : 2 * -e = (2 * (-k - 1) + 1) * s := by linear_combination -htie
  rw [quant_of_tie hs htie, quant_of_tie hs hneg]
  ring

theorem quant_one (e : Int) : quant e 1 = e := by
  simp only [quant]
  omega

theorem quant_mono {e e' : Int} {s : Nat} (hs : 1 ≤ s) (h : e ≤ e') : quant e s ≤ quant e' s :=
  Int.ediv_le_ediv (by omega) (by omega)

theorem quant_eq_zero_iff {e : Int} {s : Nat} (hs : 1 ≤ s) : quant e s = 0 ↔ -(s : Int) ≤ 2 * e ∧ 2 * e < s := by
  rw [eq_comm, ← roundsHalfUp_iff_eq_quant hs, RoundsHalfUp]
  simp

/-- A step of at least 1 does not enlarge: an integer beyond ±b is more than half a step away from every error in −b..b
(R185). -/
theorem natAbs_quant_le {e : Int} {s b : Nat} (hs : 1 ≤ s) (he : e.natAbs ≤ b) : (quant e s).natAbs ≤ b := by
  obtain ⟨hlow, hhigh⟩ := roundsHalfUp_quant e hs
  have hbs : (b : Int) ≤ b * s := by exact_mod_cast Nat.le_mul_of_pos_right b hs
  by_contra hgt
  rcases le_total 0 (quant e s) with hpos | hneg
  · have hmul : ((b : Int) + 1) * s ≤ quant e s * s := Int.mul_le_mul_of_nonneg_right (by omega) (by omega)
    rw [add_mul] at hmul
    omega
  · have hmul : quant e s * s ≤ -((b : Int) + 1) * s := Int.mul_le_mul_of_nonneg_right (by omega) (by omega)
    rw [neg_mul, add_mul] at hmul
    omega

/-! ## The size of a residual -/

theorem State.natAbs_predictionError_le (s : State) (a i j w : Nat) (m : PredictorMode) :
    (s.origInt a - predict s.origInt i j w m).natAbs ≤ 510 ∧
      (m ≠ .order2 → (s.origInt a - predict s.origInt i j w m).natAbs ≤ 255) := by
  have horig := s.origInt_range a
  obtain ⟨h1, h2, h3⟩ := predict_range s.origInt_range i j w
  cases m with
  | order1 => omega
  | order2 => exact ⟨by omega, fun h => absurd rfl h⟩
  | adaptive => omega

/-- A residual fits its 16-bit cell (R185). -/
theorem toInt_ofInt_residual {q : Int} (h : q.natAbs ≤ 510) : (BitVec.ofInt 16 q).toInt = q :=
  BitVec.toInt_ofInt_eq_self (by decide) (by omega) (by omega)

theorem State.natAbs_encResidual_le (s : State) (i j : Nat) (hstep : 1 ≤ s.cfgStep.toNat) :
    (s.encResidual i j).natAbs ≤ 510 :=
  natAbs_quant_le hstep (s.natAbs_predictionError_le _ i j _ _).1

end Machine

namespace Proofs

open Machine

/-- Settles O26: the prediction error is that small, and quantizing does not enlarge it. -/
theorem storedResidualReadsBack : Obligations.StoredResidualReadsBack := by
  intro s i j hstep
  have hle := s.natAbs_encResidual_le i j hstep
  exact ⟨hle, fun hmode => natAbs_quant_le hstep ((s.natAbs_predictionError_le _ i j _ _).2 hmode),
    toInt_ofInt_residual hle⟩

/-- Settles O46: STEPOF(L) − 1 is 255 / L rounded down. -/
theorem stepOfIsTheCeiling : Obligations.StepOfIsTheCeiling := by
  intro l hl
  have hdivmod := Nat.div_add_mod 255 l
  have hmod := Nat.mod_lt 255 hl
  have hcomm : 255 / l * l = l * (255 / l) := Nat.mul_comm _ _
  have hone : 255 / l = 0 ↔ 256 ≤ l := by rw [Nat.div_eq_zero_iff]; omega
  rw [stepOf_eq hl, Nat.add_sub_cancel, Nat.add_mul, Nat.one_mul]
  refine ⟨by omega, by omega, Nat.le_add_left 1 _, Nat.succ_le_succ (Nat.div_le_self 255 l), by omega, fun l' hle => ?_⟩
  rw [stepOf_eq (hl.trans hle)]
  exact Nat.succ_le_succ (Nat.div_le_div_left hle hl)

/-- Settles O47: the error bound is the floor division of R142. -/
theorem quantErrorIsHalfAStep : Obligations.QuantErrorIsHalfAStep :=
  fun _ _ _ => roundsHalfUp_iff_eq_quant

/-- Settles O49, one law of QUANT for each clause. -/
theorem quantSigns : Obligations.QuantSigns := by
  intro e e' s hs
  exact ⟨(quant_eq_zero_iff hs).2 (by omega), fun ⟨_, htie⟩ => quant_neg_of_tie hs htie, quant_neg_of_not_tie hs,
    quant_one e, quant_mono hs, quant_eq_zero_iff hs⟩

/-- Settles O51: at each position the neighbours outside the grid are the constant 0 (R65). -/
theorem predictionOfSeedCells : Obligations.PredictionOfSeedCells := by
  intro cell i j w hi hj
  have hfloor : ∀ v : Int, ⌊(v : ℚ) / 2⌋ = v / 2 := fun v => by exact_mod_cast Rat.floor_intCast_div_natCast v 2
  have hsum : ∀ v u : Int, ⌊((v : ℚ) + u) / 2⌋ = (v + u) / 2 := fun v u => by rw [← Int.cast_add, hfloor]
  refine ⟨⟨rfl, rfl, rfl⟩, ⟨?_, ?_, ?_⟩, ⟨rfl, ?_, ?_⟩, ⟨?_, ?_, ?_⟩⟩
  · simp only [predict, left_of_pos cell hj, addr, Nat.zero_mul, Nat.zero_add]
  · simp only [predict, left_of_pos cell hj, top_zero, topLeft_zero_row, addr, Nat.zero_mul, Nat.zero_add, Int.add_zero,
      Int.sub_zero]
  · simp only [predict, left_of_pos cell hj, top_zero, addr, Nat.zero_mul, Nat.zero_add, Int.add_zero, hfloor]
  · simp only [predict, left_zero, top_of_pos cell hi, topLeft_zero_col, addr, Nat.add_zero, Int.zero_add, Int.sub_zero]
  · simp only [predict, left_zero, top_of_pos cell hi, addr, Nat.add_zero, Int.zero_add, hfloor]
  · simp only [predict, left_of_pos cell hj, addr]
  · simp only [predict, left_of_pos cell hj, top_of_pos cell hi, topLeft_of_pos cell hi hj, addr]
  · simp only [predict, left_of_pos cell hj, top_of_pos cell hi, addr, hsum]

/-- Settles O52: the ranges, and a grid for each bound. -/
theorem predictionRanges : Obligations.PredictionRanges := by
  have h255 : (0 : Int) ≤ 255 := by decide
  refine ⟨fun cell i j w hcell => predict_range hcell i j w, ⟨fun a => if a = 0 then 255 else 0, fun a => ?_, rfl⟩,
    ⟨fun a => if a = 0 then 0 else 255, fun a => ?_, rfl⟩, ⟨fun _ => 0, fun _ => ⟨le_rfl, h255⟩, rfl, rfl⟩,
    ⟨fun _ => 255, fun _ => ⟨h255, le_rfl⟩, rfl, rfl⟩⟩ <;>
  · simp only
    split_ifs <;> decide

/-- Settles O53: every neighbour stands at a smaller address. -/
theorem predictionIsCausal : Obligations.PredictionIsCausal :=
  fun _ _ _ _ _ m hj h => predict_congr hj h m

end Proofs

end Sys2Proof
end

section
/-! SUPPORT and proofs about the two agents (46_control.md, 30_encoding.md): how far a pass comes with each engine step
(R260), that a host cannot disturb it (R267), and `wait` (R105). -/

namespace Sys2Proof

namespace Machine

/-! ## Progress -/

/-- The last cell step of a pass (R257): idle with RESULT 0, the cursor at (H, 0). -/
def EndsPass (s t : State) : Prop :=
  s.passAddr + 1 = s.passH * s.passW ∧ t.status.busy = false ∧ t.status.result = 0#4 ∧ t.curI.toNat = s.passH ∧
    t.curJ.toNat = 0

/-- A cell step before the last one: the same pass, one cell further (R31). -/
def ContinuesPass (s t : State) : Prop :=
  t.status.busy = true ∧ t.passH = s.passH ∧ t.passW = s.passW ∧ t.passAddr = s.passAddr + 1

/-- The work of each of the three passes on a cell changes neither STATUS nor the grid scanned. -/
theorem pass_frame {cell finish : State → State}
    (hpass : (cell = State.encWrite ∧ finish = State.encFinish) ∨ (cell = State.decWrite ∧ finish = State.decFinish) ∨
      (cell = State.mseAdd ∧ finish = State.mseFinish)) (s : State) :
    ((cell s).status = s.status ∧ (cell s).passH = s.passH ∧ (cell s).passW = s.passW) ∧
      (finish (cell s)).status.busy = false ∧ (finish (cell s)).status.result = 0#4 := by
  rcases hpass with ⟨rfl, rfl⟩ | ⟨rfl, rfl⟩ | ⟨rfl, rfl⟩ <;> exact ⟨⟨rfl, rfl, rfl⟩, rfl, rfl⟩

/-- Every engine step of a pass ends it or continues it (R253, R257). -/
theorem Inv.engineTurn_progress {s : State} (h : Inv s) (hbusy : s.status.busy = true) :
    ∃ t, Machine.engineTurn s = .next t ∧ (EndsPass s t ∨ ContinuesPass s t) := by
  obtain ⟨cell, finish, hvisit, hpass⟩ := h.engineTurn_eq_visit hbusy
  obtain ⟨⟨hstatus, hH, hW⟩, hidle, hresult⟩ := pass_frame hpass s
  obtain ⟨t, ht⟩ := h.exists_engineTurn_eq_next
  refine ⟨t, ht, ?_⟩
  rw [hvisit] at ht
  rcases State.visit_cases ht with ⟨hlast, rfl⟩ | ⟨i, j, hi, hj, hnext, rfl⟩
  · exact .inl ⟨hlast, hidle, hresult, Nat.mod_eq_of_lt s.passH_lt, rfl⟩
  · have hI : ((cell s).setCursor (i, j)).curI.toNat = i := Nat.mod_eq_of_lt (hi.trans s.passH_lt)
    have hJ : ((cell s).setCursor (i, j)).curJ.toNat = j := Nat.mod_eq_of_lt (hj.trans s.passW_lt)
    have hW' : ((cell s).setCursor (i, j)).passW = s.passW := hW
    refine .inr ⟨?_, hH, hW, ?_⟩
    · rw [State.setCursor_status, hstatus, hbusy]
    · rw [State.passAddr, hI, hJ, hW', hnext, State.passAddr]

theorem PassInv.passAddr_lt {s : State} (h : PassInv s) (hbusy : s.status.busy = true) :
    s.passAddr < s.passH * s.passW := by
  obtain ⟨hi, hj, _⟩ := h hbusy
  exact addr_lt hi hj

theorem State.cellsLeft_busy {s : State} (hbusy : s.status.busy = true) :
    s.cellsLeft = s.passH * s.passW - s.passAddr :=
  if_pos hbusy

theorem State.cellsLeft_idle {s : State} (hidle : s.status.busy = false) : s.cellsLeft = 0 := by
  rw [State.cellsLeft, hidle]
  rfl

/-- A pass has one cell fewer left after each engine step (R260). -/
theorem Inv.cellsLeft_engineTurn {s t : State} (h : Inv s) (hbusy : s.status.busy = true)
    (ht : Machine.engineTurn s = .next t) : t.cellsLeft + 1 = s.cellsLeft := by
  obtain ⟨t', ht', hprogress⟩ := h.engineTurn_progress hbusy
  cases ht.symm.trans ht'
  have hlt := h.pass.passAddr_lt hbusy
  rw [State.cellsLeft_busy hbusy]
  rcases hprogress with ⟨hlast, hidle, _⟩ | ⟨hbusy', hH, hW, haddr⟩
  · rw [State.cellsLeft_idle hidle]
    omega
  · have hlt' := (h.engineTurn ht).pass.passAddr_lt hbusy'
    rw [State.cellsLeft_busy hbusy', hH, hW, haddr]
    rw [hH, hW, haddr] at hlt'
    omega

/-- Before the cells left are visited the pass is under way, one cell further for each engine step (R260). -/
theorem Inv.engineSteps_of_lt_cellsLeft {s : State} (h : Inv s) (hbusy : s.status.busy = true) {k : Nat}
    (hk : k < s.cellsLeft) :
    ∃ t, engineSteps k s = .next t ∧ Inv t ∧ t.status.busy = true ∧ t.passH = s.passH ∧ t.passW = s.passW ∧
      t.passAddr = s.passAddr + k := by
  induction k with
  | zero => exact ⟨s, rfl, h, hbusy, rfl, rfl, rfl⟩
  | succ k ih =>
    obtain ⟨t, ht, hinv, hbusyt, hH, hW, haddr⟩ := ih (Nat.lt_of_succ_lt hk)
    obtain ⟨u, hu, ⟨hlast, _⟩ | ⟨hbusyu, hHu, hWu, haddru⟩⟩ := hinv.engineTurn_progress hbusyt
    · rw [haddr, hH, hW] at hlast
      rw [State.cellsLeft_busy hbusy] at hk
      omega
    · exact ⟨u, by rw [engineSteps_succ ht, hu], hinv.engineTurn hu, hbusyu, hHu.trans hH, hWu.trans hW,
        by rw [haddru, haddr, Nat.add_assoc]⟩

/-! ## Runs -/

theorem steps_add {m n : Nat} {s t : State} (h : steps m s = .next t) : steps (m + n) s = steps n t := by
  induction m generalizing s with
  | zero => cases h; rw [Nat.zero_add]
  | succ m ih =>
    rw [Nat.succ_add, steps]
    rw [steps] at h
    cases hs : step s with
    | next s' => rw [hs] at h; exact ih h
    | fault r => rw [hs] at h; cases h
    | refused r => rw [hs] at h; cases h

theorem steps_one (s : State) : steps 1 s = step s := by
  rw [steps]
  cases step s <;> rfl

theorem steps_succ_of_step {n : Nat} {s t : State} (h : step s = .next t) : steps (n + 1) s = steps n t := by
  rw [steps, h]

theorem engineSteps_succ_of_turn {n : Nat} {s t : State} (h : engineTurn s = .next t) :
    engineSteps (n + 1) s = engineSteps n t := by
  rw [engineSteps, h]

theorem engineSteps_succ_eq_next {n : Nat} {s u : State} (h : engineSteps (n + 1) s = .next u) :
    ∃ t, engineTurn s = .next t ∧ engineSteps n t = .next u := by
  rw [engineSteps] at h
  cases ht : engineTurn s with
  | next t => rw [ht] at h; exact ⟨t, rfl, h⟩
  | fault r => rw [ht] at h; cases h
  | refused r => rw [ht] at h; cases h

/-- An idle engine stays as it is (R255). -/
theorem engineSteps_idle {s : State} (h : s.status.busy = false) (n : Nat) : engineSteps n s = .next s := by
  induction n with
  | zero => rfl
  | succ n ih => rw [engineSteps_succ_of_turn (engineTurn_idle h), ih]

/-- Only a busy engine is busy later. -/
theorem busy_of_engineSteps {n : Nat} {s u : State} (h : engineSteps n s = .next u) (hu : u.status.busy = true) :
    s.status.busy = true := by
  cases hs : s.status.busy with
  | true => rfl
  | false =>
    rw [engineSteps_idle hs] at h
    cases h
    exact hs.symm.trans hu

/-! ## The host's actions while a pass runs -/

/-- A transaction with a busy engine reads at most (R74, R251). -/
theorem transact_busy {s : State} (h : s.status.busy = true) (tr : Transaction) :
    ∃ readings, transact tr s = .next (s.withHost s.script readings) := by
  cases tr with
  | rd n => exact ⟨_, rfl⟩
  | rm sp a => exact ⟨_, rfl⟩
  | wr n v => exact ⟨s.readings, transact_wr_busy h n v⟩
  | wm sp a v => exact ⟨s.readings, transact_wm_busy h sp a v⟩

theorem step_withHost_cons (v : State) (e : Event) (rest : List Event) (readings : List Reading) :
    step (v.withHost (e :: rest) readings) = perform e (v.withHost rest readings) := rfl

/-- A host action in a pass, as a step: the engine stays as it is. -/
theorem step_hostAction_busy {v : State} (hbusy : v.status.busy = true) {e : Event}
    (he : turnOrTransaction e = true) (hturn : e ≠ .engine) (rest : List Event) (readings : List Reading) :
    ∃ readings', step (v.withHost (e :: rest) readings) = .next (v.withHost rest readings') := by
  rw [step_withHost_cons]
  cases e with
  | host tr => exact transact_busy (s := v.withHost rest readings) hbusy tr
  | check c => exact ⟨_, rfl⟩
  | wait => cases he
  | engine => exact absurd rfl hturn
  | reset => cases he

theorem step_engine_withHost {v u : State} (h : engineTurn v = .next u) (rest : List Event) (readings : List Reading) :
    step (v.withHost (.engine :: rest) readings) = .next (u.withHost rest readings) := by
  rw [step_withHost_cons, perform_engine]
  exact (engineTurn_host h rest readings).1

/-- Reads, writes and turns: the engine makes the turns and nothing else, as long as the pass runs (R267). -/
theorem steps_turnsAndTransactions {es : List Event} {v u : State} (rest : List Event) (readings : List Reading)
    (hes : es.all turnOrTransaction = true) (hu : engineSteps (engineTurns es) v = .next u)
    (hbusy : u.status.busy = true) :
    ∃ readings', steps es.length (v.withHost (es ++ rest) readings) = .next (u.withHost rest readings') := by
  induction es generalizing v readings with
  | nil => cases hu; exact ⟨readings, rfl⟩
  | cons e es ih =>
    rw [List.all_cons, Bool.and_eq_true] at hes
    obtain ⟨he, hes⟩ := hes
    by_cases hturn : e = .engine
    · subst hturn
      have hcount : engineTurns (.engine :: es) = engineTurns es + 1 := List.countP_cons_of_pos rfl
      rw [hcount] at hu
      obtain ⟨t, ht, hu⟩ := engineSteps_succ_eq_next hu
      obtain ⟨readings', hsteps⟩ := ih readings hes hu
      exact ⟨readings', (steps_succ_of_step (step_engine_withHost ht (es ++ rest) readings)).trans hsteps⟩
    · have hcount : engineTurns (e :: es) = engineTurns es := List.countP_cons_of_neg (by simpa using hturn)
      rw [hcount] at hu
      obtain ⟨readings₁, hstep⟩ :=
        step_hostAction_busy (busy_of_engineSteps hu hbusy) he hturn (es ++ rest) readings
      obtain ⟨readings', hsteps⟩ := ih readings₁ hes hu
      exact ⟨readings', (steps_succ_of_step hstep).trans hsteps⟩

/-! ## wait -/

theorem waitEvent_idle {s : State} (h : s.status.busy = false) :
    waitEvent s = s.withHost s.script (⟨s.readReg .status, true⟩ :: s.readings) := by
  simp only [waitEvent, h, Bool.false_eq_true, if_false]
  rfl

theorem waitEvent_busy {s : State} (h : s.status.busy = true) :
    waitEvent s = s.withHost (.engine :: .wait :: s.script) (⟨s.readReg .status, true⟩ :: s.readings) := by
  simp only [waitEvent, h, if_true]
  rfl

theorem step_wait_idle {v : State} (h : v.status.busy = false) (rest : List Event) (readings : List Reading) :
    ∃ readings', step (v.withHost (.wait :: rest) readings) = .next (v.withHost rest readings') :=
  ⟨_, congrArg Host.Outcome.next (waitEvent_idle (s := v.withHost rest readings) h)⟩

theorem step_wait_busy {v : State} (h : v.status.busy = true) (rest : List Event) (readings : List Reading) :
    ∃ readings', step (v.withHost (.wait :: rest) readings) =
      .next (v.withHost (.engine :: .wait :: rest) readings') :=
  ⟨_, congrArg Host.Outcome.next (waitEvent_busy (s := v.withHost rest readings) h)⟩

/-- A poll and a turn for each cell left, and a last poll (R105). -/
theorem Inv.steps_wait {v : State} (h : Inv v) (rest : List Event) (readings : List Reading) :
    ∃ u readings', engineSteps v.cellsLeft v = .next u ∧ u.status.busy = false ∧
      steps (2 * v.cellsLeft + 1) (v.withHost (.wait :: rest) readings) = .next (u.withHost rest readings') := by
  induction hn : v.cellsLeft generalizing v readings with
  | zero =>
    have hidle : v.status.busy = false := by
      rw [← Bool.not_eq_true]
      intro hbusy
      have hlt := h.pass.passAddr_lt hbusy
      rw [State.cellsLeft_busy hbusy] at hn
      omega
    obtain ⟨readings', hstep⟩ := step_wait_idle hidle rest readings
    exact ⟨v, readings', rfl, hidle, (steps_one _).trans hstep⟩
  | succ n ih =>
    have hbusy : v.status.busy = true := by
      rw [← Bool.not_eq_false]
      intro hidle
      rw [State.cellsLeft_idle hidle] at hn
      cases hn
    obtain ⟨t, ht⟩ := h.exists_engineTurn_eq_next
    have hleft : t.cellsLeft = n := by
      have := h.cellsLeft_engineTurn hbusy ht
      omega
    obtain ⟨readings₁, hpoll⟩ := step_wait_busy hbusy rest readings
    obtain ⟨u, readings', hu, hidle, hsteps⟩ := ih (h.engineTurn ht) readings₁ hleft
    refine ⟨u, readings', (engineSteps_succ_of_turn ht).trans hu, hidle, ?_⟩
    calc steps (2 * (n + 1) + 1) (v.withHost (.wait :: rest) readings)
        = steps (2 * n + 1 + 1) (v.withHost (.engine :: .wait :: rest) readings₁) := steps_succ_of_step hpoll
      _ = steps (2 * n + 1) (t.withHost (.wait :: rest) readings₁) :=
        steps_succ_of_step (step_engine_withHost ht (.wait :: rest) readings₁)
      _ = .next (u.withHost rest readings') := hsteps

end Machine

namespace Proofs

open Machine

/-- Settles O38: every step before the last one continues the pass, and the last one ends it. -/
theorem passTakesOneStepPerCell : Obligations.PassTakesOneStepPerCell := by
  intro s h hbusy
  have hlt := h.pass.passAddr_lt hbusy
  have hleft := State.cellsLeft_busy hbusy
  refine ⟨hlt, fun k hk => ?_, ?_⟩
  · obtain ⟨t, ht, _, hbusyt, _, _, haddr⟩ := h.engineSteps_of_lt_cellsLeft hbusy hk
    exact ⟨t, ht, hbusyt, haddr⟩
  · obtain ⟨n, hn⟩ : ∃ n, s.cellsLeft = n + 1 := Nat.exists_eq_add_of_le' (by omega)
    obtain ⟨t, ht, hinv, hbusyt, hH, hW, haddr⟩ :=
      h.engineSteps_of_lt_cellsLeft hbusy (k := n) (hn ▸ Nat.lt_succ_self n)
    rw [hn, engineSteps_succ ht]
    obtain ⟨u, hu, ⟨_, hidle, hresult, hI, hJ⟩ | ⟨hbusyu, hHu, hWu, haddru⟩⟩ := hinv.engineTurn_progress hbusyt
    · exact ⟨u, hu, hidle, hresult, hI.trans hH, hJ⟩
    · have hltu := (hinv.engineTurn hu).pass.passAddr_lt hbusyu
      rw [haddru, haddr, hHu, hWu, hH, hW] at hltu
      omega

/-- Settles O40: the events before the last turn leave the engine where their turns alone would have. -/
theorem hostCannotDisturbAPass : Obligations.HostCannotDisturbAPass := by
  intro s u u' es rest _ hscript hes hu hbusy hu'
  obtain ⟨readings, hsteps⟩ := steps_turnsAndTransactions (.engine :: rest) s.readings hes hu hbusy
  rw [← hscript] at hsteps
  rw [engineSteps_succ hu] at hu'
  refine ⟨u'.withHost rest readings, ?_, rfl, rfl⟩
  calc steps (es.length + 1) s = steps 1 (u.withHost (.engine :: rest) readings) := steps_add hsteps
    _ = step (u.withHost (.engine :: rest) readings) := steps_one _
    _ = .next (u'.withHost rest readings) := step_engine_withHost hu' rest readings

/-- Settles O41, by the cells left. -/
theorem waitEndsWhenThePassDoes : Obligations.WaitEndsWhenThePassDoes := by
  intro s rest h hscript
  obtain ⟨u, readings, hu, hidle, hsteps⟩ := h.steps_wait rest s.readings
  rw [← hscript] at hsteps
  exact ⟨u.withHost rest readings, u, hsteps, hidle, rfl, hu, rfl⟩

end Proofs

end Sys2Proof
end

section
/-! SUPPORT and proofs about the ENC and DEC passes in closed form (43_encoder.md, 44_decoder.md): the state after k
cells (R75), the whole pass (R186, R207), and encode then decode (R210, R213). -/

namespace Sys2Proof

namespace Machine

/-! ## The k-th cell -/

/-- The row of a cell from its address (R31, R63). -/
theorem addr_div {i j w : Nat} (hj : j < w) : addr i j w / w = i := by
  have hdivmod : addr (addr i j w / w) (addr i j w % w) w = addr i j w := addr_div_mod _ _
  exact (addr_inj (Nat.mod_lt _ (Nat.zero_lt_of_lt hj)) hj hdivmod).1

theorem addr_mod {i j w : Nat} (hj : j < w) : addr i j w % w = j := by
  have hdivmod : addr (addr i j w / w) (addr i j w % w) w = addr i j w := addr_div_mod _ _
  exact (addr_inj (Nat.mod_lt _ (Nat.zero_lt_of_lt hj)) hj hdivmod).2

/-- The cursor registers hold the row and the column of any cell of a grid (R22, R33). -/
theorem toNat_setCursor_cell (s : State) {k : Nat} {h w : Dim} (hk : k < h.toNat * w.toNat) :
    (s.setCursor (k / w.toNat, k % w.toNat)).curI.toNat = k / w.toNat ∧
      (s.setCursor (k / w.toNat, k % w.toNat)).curJ.toNat = k % w.toNat := by
  have hpos : 0 < w.toNat := Nat.pos_of_mul_pos_left (Nat.zero_lt_of_lt hk)
  have hrow := div_lt_of_cell hk
  have hcol := Nat.mod_lt k hpos
  exact ⟨Nat.mod_eq_of_lt (by omega), Nat.mod_eq_of_lt (by omega)⟩

/-- A pixel is the integer it is read as (R12). -/
theorem pixel_eq_of_int_eq {p q : Pixel} (h : (p.toNat : Int) = q.toNat) : p = q :=
  BitVec.eq_of_toNat_eq (Int.ofNat_inj.1 h)

theorem commandAndTurns_of_exec {i : Instr} {s t : State} (h : exec i s = .next t) (n : Nat) :
    commandAndTurns i n s = engineSteps n t := by
  rw [commandAndTurns, h]

/-! ## ENC after k cells -/

/-- In an ENC pass at its k-th cell, with `resid` in RESID (R181, R182). -/
def State.encAt (s : State) (k : Nat) (resid : Memory 16) : State :=
  { s with resid := resid, status := { s.status with busy := true, lastop := 0x02#8 } }.setCursor
    (k / s.origW.toNat, k % s.origW.toNat)

/-- At the end of an ENC pass (R183, R186). -/
def State.encDone (s : State) (resid : Memory 16) : State :=
  { s with
    resid := resid, residH := s.origH, residW := s.origW, curI := s.origH, curJ := 0#16
    status := { s.status with busy := false, result := 0#4, lastop := 0x02#8 } }

/-- The state k engine steps after the acceptance of ENC in `s`: the cells of RESID below k hold the residuals (R75). -/
structure EncAfter (s : State) (k : Nat) (v : State) : Prop where
  running : k < s.origH.toNat * s.origW.toNat → v = s.encAt k v.resid
  done : k = s.origH.toNat * s.origW.toNat → v = s.encDone v.resid
  resid : ∀ a, v.readResid a =
    if a < k then BitVec.ofInt 16 (s.encResidual (a / s.origW.toNat) (a % s.origW.toNat)) else s.readResid a

/-- RESID after the write at the k-th cell (R182). -/
theorem readResid_encWrite_encAt {s : State} {k : Nat} (hk : k < s.origH.toNat * s.origW.toNat) (resid : Memory 16)
    (a : Nat) :
    (s.encAt k resid).encWrite.readResid a =
      if a = k then BitVec.ofInt 16 (s.encResidual (k / s.origW.toNat) (k % s.origW.toNat))
      else (s.encAt k resid).readResid a := by
  obtain ⟨hI, hJ⟩ := toNat_setCursor_cell
    { s with resid := resid, status := { s.status with busy := true, lastop := 0x02#8 } } hk
  have haddr : addr (s.encAt k resid).curI.toNat (s.encAt k resid).curJ.toNat (s.encAt k resid).origW.toNat = k := by
    rw [State.encAt, hI, hJ]
    exact addr_div_mod k _
  rw [State.encWrite, State.readResid_writeResid, haddr, State.encAt, hI, hJ]
  rfl

theorem EncAfter.visit {s v t : State} {k : Nat} (hk : k < s.origH.toNat * s.origW.toNat) (h : EncAfter s k v)
    (ht : t.resid = v.encWrite.resid) (a : Nat) :
    t.readResid a =
      if a < k + 1 then BitVec.ofInt 16 (s.encResidual (a / s.origW.toNat) (a % s.origW.toNat))
      else s.readResid a := by
  have hresid := h.resid a
  rw [State.readResid_congr ht, h.running hk, readResid_encWrite_encAt hk, ← h.running hk, hresid]
  rcases lt_trichotomy a k with hlt | rfl | hgt
  · rw [if_neg hlt.ne, if_pos hlt, if_pos (Nat.lt_succ_of_lt hlt)]
  · rw [if_pos rfl, if_pos (Nat.lt_succ_self a)]
  · rw [if_neg hgt.ne', if_neg hgt.not_gt, if_neg (by omega)]

theorem State.setCursor_done (s : State) (h : Dim) : s.setCursor (h.toNat, 0) = { s with curI := h, curJ := 0#16 } := by
  rw [State.setCursor, BitVec.ofNat_toNat, BitVec.setWidth_eq]

theorem encFinish_encWrite_encAt (s : State) (k : Nat) (resid : Memory 16) :
    (s.encAt k resid).encWrite.encFinish.setCursor (s.origH.toNat, 0) =
      s.encDone ((s.encAt k resid).encWrite.encFinish.setCursor (s.origH.toNat, 0)).resid := by
  rw [State.setCursor_done, State.encFinish_eq]
  rfl

/-- The ENC pass, cell by cell (R253, R256). -/
theorem encPass {s : State} (hidle : s.status.busy = false) (hvalid : s.status.cfgValid = true)
    (hstep : s.cfgStep ≠ 0#9) (hh : 1 ≤ s.origH.toNat) (hw : 1 ≤ s.origW.toNat) {k : Nat}
    (hk : k ≤ s.origH.toNat * s.origW.toNat) :
    ∃ v, commandAndTurns .enc k s = .next v ∧ EncAfter s k v := by
  obtain ⟨_, _, haccept⟩ := Proofs.encAcceptance s hidle
  rw [commandAndTurns_of_exec (haccept hvalid hh hw)]
  refine pass_induction (cell := State.encWrite) (fin := State.encFinish) (I := EncAfter s) s.origH.isLt s.origW.isLt hw
    ?_ ?_ ?_ ?_ k hk
  · refine ⟨fun _ => ?_, fun h0 => ?_, fun _ => rfl⟩
    · rw [State.encAt, Nat.zero_div, Nat.zero_mod]; rfl
    · have := Nat.mul_pos hh hw
      omega
  · intro k v hk h
    rw [h.running hk]
    exact ⟨rfl, rfl, by
      rw [engineTurn_busy rfl, engineStep_enc rfl, encCell, if_neg (show (s.encAt k v.resid).cfgStep ≠ 0#9 from hstep)]
      rfl⟩
  · intro k v hk h
    refine ⟨fun _ => ?_, fun hend => absurd hend hk.ne, h.visit (Nat.lt_of_succ_lt hk) rfl⟩
    obtain ⟨r, rfl⟩ : ∃ r, v = s.encAt k r := ⟨_, h.running (Nat.lt_of_succ_lt hk)⟩
    rfl
  · intro k v hk h
    refine ⟨fun hlt => absurd hk hlt.ne, fun _ => ?_, h.visit (hk ▸ Nat.lt_succ_self k) rfl⟩
    obtain ⟨r, rfl⟩ : ∃ r, v = s.encAt k r := ⟨_, h.running (hk ▸ Nat.lt_succ_self k)⟩
    exact encFinish_encWrite_encAt s k r

/-- The whole ENC pass ends in `State.encDone`, and a residual reads back as it was computed (R185, R186). -/
theorem EncAfter.residInt {s v : State} (hstep : 1 ≤ s.cfgStep.toNat)
    (h : EncAfter s (s.origH.toNat * s.origW.toNat) v) {i j : Nat} (hi : i < s.origH.toNat) (hj : j < s.origW.toNat) :
    v.residInt (addr i j s.origW.toNat) = s.encResidual i j := by
  rw [State.residInt, h.resid, if_pos (addr_lt hi hj), addr_div hj, addr_mod hj,
    toInt_ofInt_residual (s.natAbs_encResidual_le i j hstep)]

/-! ## DEC after k cells -/

/-- The decoding recursion (R202, R207) on the cells below k: each is the clamp of its prediction from `f` itself plus
the dequantized residual. -/
def DecodesTo (s : State) (k : Nat) (f : Nat → Int) : Prop :=
  ∀ a, a < k → f a = clamp (predict f (a / s.residW.toNat) (a % s.residW.toNat) s.residW.toNat s.cfgMode +
    dequant (s.residInt a) s.cfgStep.toNat)

/-- By causality (R130) the recursion has one solution below k. -/
theorem DecodesTo.unique {s s' : State} {k : Nat} {f g : Nat → Int} (hw : 1 ≤ s.residW.toNat)
    (hwidth : s'.residW = s.residW) (hmode : s'.cfgMode = s.cfgMode) (hstep : s'.cfgStep = s.cfgStep)
    (hresid : ∀ a, a < k → s'.residInt a = s.residInt a) (hf : DecodesTo s k f) (hg : DecodesTo s' k g) :
    ∀ a, a < k → f a = g a := by
  intro a
  induction a using Nat.strong_induction_on with
  | h a ih =>
    intro ha
    have hpredict := predict_congr (f := f) (g := g) (i := a / s.residW.toNat) (Nat.mod_lt a hw)
      (fun b hb => by
        rw [addr_div_mod] at hb
        exact ih b hb (hb.trans ha)) s.cfgMode
    rw [hf a ha, hg a ha, hwidth, hmode, hstep, hresid a ha, hpredict]

/-- In a DEC pass at its k-th cell, with `recon` in RECON (R201, R202). -/
def State.decAt (s : State) (k : Nat) (recon : Memory 8) : State :=
  { s with recon := recon, status := { s.status with busy := true, lastop := 0x03#8 } }.setCursor
    (k / s.residW.toNat, k % s.residW.toNat)

/-- At the end of a DEC pass (R204, R207). -/
def State.decDone (s : State) (recon : Memory 8) : State :=
  { s with
    recon := recon, reconH := s.residH, reconW := s.residW, curI := s.residH, curJ := 0#16
    status := { s.status with busy := false, result := 0#4, lastop := 0x03#8 } }

/-- The state k engine steps after the acceptance of DEC in `s`: the cells of RECON below k are decoded (R75). -/
structure DecAfter (s : State) (k : Nat) (v : State) : Prop where
  running : k < s.residH.toNat * s.residW.toNat → v = s.decAt k v.recon
  done : k = s.residH.toNat * s.residW.toNat → v = s.decDone v.recon
  below : DecodesTo s k v.reconInt
  above : ∀ a, k ≤ a → v.readRecon a = s.readRecon a

/-- RECON after the write at the k-th cell (R202). -/
theorem reconInt_decWrite_decAt {s : State} {k : Nat} (hk : k < s.residH.toNat * s.residW.toNat) (recon : Memory 8)
    (a : Nat) :
    (s.decAt k recon).decWrite.reconInt a =
      if a = k then clamp (predict (s.decAt k recon).reconInt (k / s.residW.toNat) (k % s.residW.toNat) s.residW.toNat
        s.cfgMode + dequant (s.residInt k) s.cfgStep.toNat)
      else (s.decAt k recon).reconInt a := by
  obtain ⟨hI, hJ⟩ := toNat_setCursor_cell
    { s with recon := recon, status := { s.status with busy := true, lastop := 0x03#8 } } hk
  have haddr : addr (s.decAt k recon).curI.toNat (s.decAt k recon).curJ.toNat (s.decAt k recon).residW.toNat = k := by
    rw [State.decAt, hI, hJ]
    exact addr_div_mod k _
  have hpixel : (s.decAt k recon).decPixel (s.decAt k recon).curI.toNat (s.decAt k recon).curJ.toNat =
      clamp (predict (s.decAt k recon).reconInt (k / s.residW.toNat) (k % s.residW.toNat) s.residW.toNat
        s.cfgMode + dequant (s.residInt k) s.cfgStep.toNat) := by
    rw [State.decPixel, haddr]
    rw [State.decAt, hI, hJ]
    rfl
  by_cases ha : a = k
  · rw [if_pos ha, ha, ← hpixel]
    have hcursor := (s.decAt k recon).reconInt_decWrite_cursor
    rwa [haddr] at hcursor
  · rw [if_neg ha, State.reconInt, State.readRecon_decWrite, haddr, if_neg ha, State.reconInt]

/-- One more cell is decoded: the cells below it keep their values, and with them every prediction (R130). -/
theorem DecodesTo.visit {s v t : State} {k : Nat} (hk : k < s.residH.toNat * s.residW.toNat)
    (hv : v = s.decAt k v.recon) (h : DecodesTo s k v.reconInt) (ht : t.recon = v.decWrite.recon) :
    DecodesTo s (k + 1) t.reconInt := by
  have hpos : 0 < s.residW.toNat := Nat.pos_of_mul_pos_left (Nat.zero_lt_of_lt hk)
  have hread : ∀ a, t.reconInt a = if a = k then clamp (predict v.reconInt (k / s.residW.toNat) (k % s.residW.toNat)
      s.residW.toNat s.cfgMode + dequant (s.residInt k) s.cfgStep.toNat) else v.reconInt a := by
    intro a
    have hwrite := reconInt_decWrite_decAt hk v.recon a
    rw [← hv] at hwrite
    rw [State.reconInt, State.readRecon_congr ht, ← hwrite, State.reconInt]
  have hpredict : ∀ a, a ≤ k → predict t.reconInt (a / s.residW.toNat) (a % s.residW.toNat) s.residW.toNat s.cfgMode =
      predict v.reconInt (a / s.residW.toNat) (a % s.residW.toNat) s.residW.toNat s.cfgMode := by
    intro a ha
    refine predict_congr (Nat.mod_lt a hpos) (fun b hb => ?_) s.cfgMode
    rw [addr_div_mod] at hb
    rw [hread, if_neg (by omega)]
  intro a ha
  rw [hpredict a (Nat.le_of_lt_succ ha), hread]
  by_cases hak : a = k
  · rw [if_pos hak, hak]
  · rw [if_neg hak]
    exact h a (by omega)

theorem DecAfter.above_visit {s v t : State} {k : Nat} (hk : k < s.residH.toNat * s.residW.toNat) (h : DecAfter s k v)
    (ht : t.recon = v.decWrite.recon) : ∀ a, k + 1 ≤ a → t.readRecon a = s.readRecon a := by
  intro a ha
  have hwrite := reconInt_decWrite_decAt hk v.recon a
  rw [if_neg (by omega), ← h.running hk] at hwrite
  rw [State.readRecon_congr ht, ← h.above a (by omega)]
  exact pixel_eq_of_int_eq hwrite

theorem decFinish_decWrite_decAt (s : State) (k : Nat) (recon : Memory 8) :
    (s.decAt k recon).decWrite.decFinish.setCursor (s.residH.toNat, 0) =
      s.decDone ((s.decAt k recon).decWrite.decFinish.setCursor (s.residH.toNat, 0)).recon := by
  rw [State.setCursor_done, State.decFinish_eq]
  rfl

/-- The DEC pass, cell by cell (R253, R256). -/
theorem decPass {s : State} (hidle : s.status.busy = false) (hvalid : s.status.cfgValid = true)
    (hh : 1 ≤ s.residH.toNat) (hw : 1 ≤ s.residW.toNat) {k : Nat} (hk : k ≤ s.residH.toNat * s.residW.toNat) :
    ∃ v, commandAndTurns .dec k s = .next v ∧ DecAfter s k v := by
  obtain ⟨_, _, haccept⟩ := Proofs.decAcceptance s hidle
  rw [commandAndTurns_of_exec (haccept hvalid hh hw)]
  refine pass_induction (cell := State.decWrite) (fin := State.decFinish) (I := DecAfter s) s.residH.isLt s.residW.isLt
    hw ?_ ?_ ?_ ?_ k hk
  · refine ⟨fun _ => ?_, fun h0 => ?_, fun a ha => absurd ha (Nat.not_lt_zero a), fun _ _ => rfl⟩
    · rw [State.decAt, Nat.zero_div, Nat.zero_mod]; rfl
    · have := Nat.mul_pos hh hw
      omega
  · intro k v hk h
    rw [h.running hk]
    exact ⟨rfl, rfl, by rw [engineTurn_busy rfl, engineStep_dec rfl, decCell]; rfl⟩
  · intro k v hk h
    have hlt := Nat.lt_of_succ_lt hk
    refine ⟨fun _ => ?_, fun hend => absurd hend hk.ne, h.below.visit hlt (h.running hlt) rfl, h.above_visit hlt rfl⟩
    obtain ⟨r, rfl⟩ : ∃ r, v = s.decAt k r := ⟨_, h.running hlt⟩
    rfl
  · intro k v hk h
    have hlt : k < s.residH.toNat * s.residW.toNat := hk ▸ Nat.lt_succ_self k
    refine ⟨fun hlt' => absurd hk hlt'.ne, fun _ => ?_, h.below.visit hlt (h.running hlt) rfl, h.above_visit hlt rfl⟩
    obtain ⟨r, rfl⟩ : ∃ r, v = s.decAt k r := ⟨_, h.running hlt⟩
    exact decFinish_decWrite_decAt s k r

/-! ## Encode then decode -/

/-- An encode pass and a decode pass after it: DEC scans the grid that ENC left, under the same configuration. -/
theorem encDecPass {s : State} (hidle : s.status.busy = false) (hvalid : s.status.cfgValid = true)
    (hstep : s.cfgStep ≠ 0#9) (hh : 1 ≤ s.origH.toNat) (hw : 1 ≤ s.origW.toNat) :
    ∃ e d, commandAndTurns .enc (s.origH.toNat * s.origW.toNat) s = .next e ∧
      commandAndTurns .dec (s.origH.toNat * s.origW.toNat) e = .next d ∧
      EncAfter s (s.origH.toNat * s.origW.toNat) e ∧ e = s.encDone e.resid ∧
      DecAfter e (s.origH.toNat * s.origW.toNat) d ∧ d = e.decDone d.recon := by
  obtain ⟨e, he, henc⟩ := encPass hidle hvalid hstep hh hw le_rfl
  obtain ⟨r, rfl⟩ : ∃ r, e = s.encDone r := ⟨_, henc.done rfl⟩
  obtain ⟨d, hd, hdec⟩ := decPass (s := s.encDone r) rfl hvalid hh hw le_rfl
  exact ⟨_, d, he, hd, henc, rfl, hdec, hdec.done rfl⟩

/-- A residual is a function of ORIG, its width and the configuration (R205, R130). -/
theorem encResidual_congr {s s' : State} (hmode : s'.cfgMode = s.cfgMode) (hstep : s'.cfgStep = s.cfgStep)
    (hwidth : s'.origW = s.origW) {h i j : Nat} (hi : i < h) (hj : j < s.origW.toNat)
    (horig : ∀ a, a < h * s.origW.toNat → s'.readOrig a = s.readOrig a) : s'.encResidual i j = s.encResidual i j := by
  have hcell : ∀ a, a < h * s.origW.toNat → s'.origInt a = s.origInt a := fun a ha => by
    rw [State.origInt, horig a ha, State.origInt]
  have hlt := addr_lt hi hj
  rw [State.encResidual, hmode, hstep, hwidth, hcell _ hlt,
    predict_congr hj (fun a ha => hcell a (ha.trans hlt)), State.encResidual]

/-- Every cell below H·W has a row and a column (R31). -/
theorem exists_addr_eq {a h w : Nat} (ha : a < h * w) : ∃ i j, i < h ∧ j < w ∧ a = addr i j w :=
  ⟨a / w, a % w, div_lt_of_cell ha, Nat.mod_lt a (Nat.pos_of_mul_pos_left (Nat.zero_lt_of_lt ha)),
    (addr_div_mod a w).symm⟩

/-- A grid that meets the recursion on the residuals of `s`, cell by cell, is the grid that encode then decode leaves
(R207). -/
theorem reconInt_eq_of_recursion {s e d : State} (hstep : 1 ≤ s.cfgStep.toNat) (hw : 1 ≤ s.origW.toNat)
    (henc : EncAfter s (s.origH.toNat * s.origW.toNat) e) (hdec : DecAfter e (s.origH.toNat * s.origW.toNat) d)
    {f : Nat → Int}
    (hf : ∀ i j, i < s.origH.toNat → j < s.origW.toNat → f (addr i j s.origW.toNat) =
      clamp (predict f i j s.origW.toNat s.cfgMode + dequant (s.encResidual i j) s.cfgStep.toNat)) :
    ∀ a, a < s.origH.toNat * s.origW.toNat → d.reconInt a = f a := by
  have hdone := henc.done rfl
  have hwidth : e.residW = s.origW := by rw [hdone]; rfl
  have hmode : e.cfgMode = s.cfgMode := by rw [hdone]; rfl
  have hcfg : e.cfgStep = s.cfgStep := by rw [hdone]; rfl
  refine DecodesTo.unique (hwidth ▸ hw) rfl rfl rfl (fun _ _ => rfl) hdec.below fun a ha => ?_
  obtain ⟨i, j, hi, hj, rfl⟩ := exists_addr_eq ha
  rw [hwidth, hmode, hcfg, addr_div hj, addr_mod hj, henc.residInt hstep hi hj]
  exact hf i j hi hj

/-- The Order1 residuals of a constant grid (R188): the value itself quantized in column 0, and nothing to correct after
it. -/
theorem encResidual_constant {s : State} {c : Pixel} {q : Int} (hstep : 1 ≤ s.cfgStep.toNat)
    (hmode : s.cfgMode = .order1) (hgrid : ∀ a, a < s.origH.toNat * s.origW.toNat → s.readOrig a = c)
    (hq : RoundsHalfUp c.toNat s.cfgStep.toNat q) {i j : Nat} (hi : i < s.origH.toNat) (hj : j < s.origW.toNat) :
    s.encResidual i j = if j = 0 then q else 0 := by
  have hcell : ∀ k, k ≤ j → s.origInt (addr i k s.origW.toNat) = c.toNat := fun k hk => by
    rw [State.origInt, hgrid _ (addr_lt hi (hk.trans_lt hj))]
  rw [State.encResidual, hmode, predict, left, hcell j le_rfl]
  by_cases hj0 : j = 0
  · rw [if_neg (by omega), if_pos hj0, Int.sub_zero, quant_eq_of_roundsHalfUp hstep hq]
  · rw [if_pos (by omega), if_neg hj0, hcell _ (Nat.sub_le j 1), Int.sub_self, (quant_eq_zero_iff hstep).2 (by omega)]

theorem clamp_clamp (v : Int) : clamp (clamp v) = clamp v := by
  simp only [clamp_eq_max_min]
  omega

end Machine

namespace Proofs

open Machine

/-- Settles O25: the state at the end of the pass, whose residuals read back as they were computed. -/
theorem encPassComputesResiduals : Obligations.EncPassComputesResiduals := by
  intro s hidle hvalid hcfg hh hw
  have hstep := one_le_cfgStep hvalid hcfg
  obtain ⟨t, ht, henc⟩ := encPass hidle hvalid (cfgStep_ne_zero hvalid hcfg) hh hw le_rfl
  have hdone := henc.done rfl
  refine ⟨t, ht, fun i j hi hj => ?_, fun a ha => ?_, fun a => ?_, fun a => ?_, hdone⟩
  · rw [roundsHalfUp_iff_eq_quant hstep]
    exact henc.residInt hstep hi hj
  · rw [henc.resid, if_neg ha.not_gt]
  · rw [hdone]; rfl
  · rw [hdone]; rfl

/-- Settles O29: the state at the end of the pass, whose RECON meets the recursion. -/
theorem decPassRebuildsGrid : Obligations.DecPassRebuildsGrid := by
  intro s hidle hvalid hh hw
  obtain ⟨t, ht, hdec⟩ := decPass hidle hvalid hh hw le_rfl
  have hdone := hdec.done rfl
  refine ⟨t, ht, fun i j hi hj => ?_, hdec.above, fun a => ?_, fun a => ?_, hdone⟩
  · have hcell := hdec.below _ (addr_lt hi hj)
    rwa [addr_div hj, addr_mod hj, clamp_eq_max_min] at hcell
  · rw [hdone]; rfl
  · rw [hdone]; rfl

/-- Settles O39: both states are the pass after k and after H·W cells, and a decoded cell has one value. -/
theorem partialGridIsVisible : Obligations.PartialGridIsVisible := by
  intro s v t k hidle hvalid hcfg
  refine ⟨fun hh hw hk hv ht => ?_, fun hh hw hk hv ht => ?_⟩
  · obtain ⟨v', hv', hencv⟩ := encPass hidle hvalid (cfgStep_ne_zero hvalid hcfg) hh hw hk
    obtain ⟨t', ht', henct⟩ := encPass hidle hvalid (cfgStep_ne_zero hvalid hcfg) hh hw le_rfl
    cases hv.symm.trans hv'
    cases ht.symm.trans ht'
    refine ⟨fun a ha => ?_, fun a ha => ?_⟩
    · rw [hencv.resid, henct.resid, if_pos ha, if_pos (ha.trans_le hk)]
    · rw [hencv.resid, if_neg ha.not_gt]
  · obtain ⟨v', hv', hdecv⟩ := decPass hidle hvalid hh hw hk
    obtain ⟨t', ht', hdect⟩ := decPass hidle hvalid hh hw le_rfl
    cases hv.symm.trans hv'
    cases ht.symm.trans ht'
    refine ⟨fun a ha => ?_, hdecv.above⟩
    have hcell := hdecv.below.unique hw rfl rfl rfl (fun _ _ => rfl) (fun a ha => hdect.below a (ha.trans_le hk)) a ha
    exact pixel_eq_of_int_eq hcell

/-- Settles O30: equal residuals, and by causality one decoded grid. -/
theorem encodeThenDecodeIsDeterministic : Obligations.EncodeThenDecodeIsDeterministic := by
  intro s s' hidle hidle' hvalid hvalid' hcfg hcfg' hmode hstep hheight hwidth hh hw horig
  obtain ⟨e, d, he, hd, henc, hedone, hdec, hddone⟩ := encDecPass hidle hvalid (cfgStep_ne_zero hvalid hcfg) hh hw
  obtain ⟨e', d', he', hd', henc', hedone', hdec', hddone'⟩ :=
    encDecPass hidle' hvalid' (cfgStep_ne_zero hvalid' hcfg') (hheight ▸ hh) (hwidth ▸ hw)
  rw [hheight, hwidth] at he' hd' henc' hdec'
  have hresid : ∀ a, a < s.origH.toNat * s.origW.toNat → e'.readResid a = e.readResid a := by
    intro a ha
    obtain ⟨i, j, hi, hj, rfl⟩ := exists_addr_eq ha
    rw [henc'.resid, henc.resid, if_pos ha, if_pos ha, hwidth, addr_div hj, addr_mod hj,
      encResidual_congr hmode hstep hwidth hi hj horig]
  refine ⟨e, d, e', d', he, hd, he', hd', fun a ha => ⟨?_, ?_⟩⟩
  · have hd : d.resid = e.resid := by rw [hddone]; rfl
    have hd' : d'.resid = e'.resid := by rw [hddone']; rfl
    rw [State.readResid_congr hd', State.readResid_congr hd, hresid a ha]
  · have hrecon := hdec.below.unique (s' := e') (g := d'.reconInt) (by rw [hedone]; exact hw)
      (by rw [hedone, hedone']; exact hwidth) (by rw [hedone, hedone']; exact hmode)
      (by rw [hedone, hedone']; exact hstep) (fun a ha => by rw [State.residInt, hresid a ha, State.residInt])
      hdec'.below a ha
    exact (pixel_eq_of_int_eq hrecon).symm

/-- Settles O31: with step 1 the original grid itself meets the recursion. -/
theorem stepOneIsLossless : Obligations.StepOneIsLossless := by
  intro s hidle hvalid hone hh hw
  have hstep : s.cfgStep.toNat = 1 := by rw [hone]; rfl
  obtain ⟨e, d, he, hd, henc, hedone, hdec, hddone⟩ := encDecPass hidle hvalid (by rw [hone]; decide) hh hw
  have hgrid := reconInt_eq_of_recursion (f := s.origInt) hstep.ge hw henc hdec fun i j _ _ => by
    obtain ⟨h0, h255⟩ := s.origInt_range (addr i j s.origW.toNat)
    rw [State.encResidual, dequant, hstep, quant_one, Nat.cast_one, mul_one, add_sub_cancel, clamp_of_mem h0 h255]
  refine ⟨e, d, he, hd, by rw [hddone, hedone]; rfl, by rw [hddone, hedone]; rfl, fun a ha => ?_⟩
  exact pixel_eq_of_int_eq (hgrid a ha)

/-- Settles O32: the constant CLAMP(q·s) meets the recursion, in column 0 from the prediction 0 and after it from
itself. -/
theorem constantGridDecodesToOneValue : Obligations.ConstantGridDecodesToOneValue := by
  intro s c q hidle hvalid hcfg hmode hh hw hgrid hq
  have hstep := one_le_cfgStep hvalid hcfg
  obtain ⟨e, d, he, hd, henc, _, hdec, _⟩ := encDecPass hidle hvalid (cfgStep_ne_zero hvalid hcfg) hh hw
  refine ⟨e, d, he, hd, fun i j hi hj => ?_, ?_⟩
  · exact (henc.residInt hstep hi hj).trans (encResidual_constant hstep hmode hgrid hq hi hj)
  · rw [← clamp_eq_max_min]
    refine reconInt_eq_of_recursion (f := fun _ => clamp (q * s.cfgStep.toNat)) hstep hw henc hdec fun i j hi hj => ?_
    rw [encResidual_constant hstep hmode hgrid hq hi hj, hmode, predict, left, dequant]
    by_cases hj0 : j = 0
    · rw [if_neg (by omega), if_pos hj0, Int.zero_add]
    · rw [if_pos (by omega), if_neg hj0, Int.zero_mul, Int.add_zero, clamp_clamp]

end Proofs

end Sys2Proof
end

section
/-! SUPPORT and proofs about the MSE pass in closed form (45_statistics.md): the sum after k cells (R222) and the whole
pass (R226). -/

namespace Sys2Proof

namespace Machine

/-- A sum over a grid row by row is the sum over its cells in order of address (R31, R63). -/
theorem sum_grid (f : Nat → Int) (h w : Nat) :
    ∑ i ∈ Finset.range h, ∑ j ∈ Finset.range w, f (addr i j w) = ∑ a ∈ Finset.range (h * w), f a := by
  induction h with
  | zero => rw [Nat.zero_mul]; rfl
  | succ h ih => rw [Finset.sum_range_succ, ih, Nat.succ_mul, Finset.sum_range_add]; rfl

/-- In an MSE pass at its k-th cell, with `sse` summed so far (R221, R222). -/
def State.mseAt (s : State) (k : Nat) (sse : BitVec 64) : State :=
  { s with sse := sse, status := { s.status with mseValid := false, busy := true, lastop := 0x04#8 } }.setCursor
    (k / s.origW.toNat, k % s.origW.toNat)

/-- At the end of an MSE pass with the sum `sse` (R223, R226). -/
def State.mseDone (s : State) (sse : BitVec 64) : State :=
  { s with
    sse := sse, npix := BitVec.ofNat 32 (s.origH.toNat * s.origW.toNat)
    mseQ := fquot sse.toNat (s.origH.toNat * s.origW.toNat), curI := s.origH, curJ := 0#16
    status := { s.status with busy := false, mseValid := true, result := 0#4, lastop := 0x04#8 } }

/-- The state k engine steps after the acceptance of MSE in `s`: SSE is the sum over the cells below k (R222), which
stays below what 64 bits hold. -/
structure MseAfter (s : State) (k : Nat) (v : State) : Prop where
  running : k < s.origH.toNat * s.origW.toNat → v = s.mseAt k v.sse
  done : k = s.origH.toNat * s.origW.toNat → v = s.mseDone v.sse
  sum : (v.sse.toNat : Int) = ∑ a ∈ Finset.range k, s.cellDiff a ^ 2
  bound : v.sse.toNat ≤ 65025 * k

theorem MseAfter.visit {s v t : State} {k : Nat} (hk : k < s.origH.toNat * s.origW.toNat) (h : MseAfter s k v)
    (ht : t.sse = v.mseAdd.sse) :
    (t.sse.toNat : Int) = ∑ a ∈ Finset.range (k + 1), s.cellDiff a ^ 2 ∧ t.sse.toNat ≤ 65025 * (k + 1) := by
  obtain ⟨sse, rfl⟩ : ∃ sse, v = s.mseAt k sse := ⟨_, h.running hk⟩
  have hpos : 0 < s.origW.toNat := Nat.pos_of_mul_pos_left (Nat.zero_lt_of_lt hk)
  obtain ⟨hI, hJ⟩ : (s.mseAt k sse).curI.toNat = k / s.origW.toNat ∧ (s.mseAt k sse).curJ.toNat = k % s.origW.toNat :=
    toNat_setCursor_cell _ hk
  have haddr : addr (s.mseAt k sse).curI.toNat (s.mseAt k sse).curJ.toNat (s.mseAt k sse).origW.toNat = k := by
    rw [hI, hJ]
    exact addr_div_mod k _
  have hi : (s.mseAt k sse).curI.toNat < (s.mseAt k sse).origH.toNat := hI ▸ div_lt_of_cell hk
  have hj : (s.mseAt k sse).curJ.toNat < (s.mseAt k sse).origW.toNat := hJ ▸ Nat.mod_lt k hpos
  have hbound : (s.mseAt k sse).sse.toNat ≤ 65025 * addr (s.mseAt k sse).curI.toNat (s.mseAt k sse).curJ.toNat
      (s.mseAt k sse).origW.toNat := h.bound.trans_eq (congrArg (65025 * ·) haddr.symm)
  have hsum := State.toNat_mseAdd_sse hi hj hbound
  have hle := State.mseAdd_sse_le hi hj hbound
  rw [haddr] at hsum hle
  rw [ht]
  refine ⟨?_, hle⟩
  rw [hsum, Finset.sum_range_succ, ← h.sum]
  rfl

theorem mseFinish_mseAdd_mseAt (s : State) (k : Nat) (sse : BitVec 64) :
    (s.mseAt k sse).mseAdd.mseFinish.setCursor (s.origH.toNat, 0) =
      s.mseDone ((s.mseAt k sse).mseAdd.mseFinish.setCursor (s.origH.toNat, 0)).sse := by
  rw [State.setCursor_done, State.mseFinish_eq]
  rfl

/-- The MSE pass, cell by cell (R253, R256). -/
theorem msePass {s : State} (hidle : s.status.busy = false) (hH : s.origH = s.reconH) (hW : s.origW = s.reconW)
    (hh : 1 ≤ s.origH.toNat) (hw : 1 ≤ s.origW.toNat) {k : Nat} (hk : k ≤ s.origH.toNat * s.origW.toNat) :
    ∃ v, commandAndTurns .mse k s = .next v ∧ MseAfter s k v := by
  obtain ⟨_, _, haccept⟩ := Proofs.mseAcceptance s hidle
  rw [commandAndTurns_of_exec (haccept hH hW hh hw)]
  refine pass_induction (cell := State.mseAdd) (fin := State.mseFinish) (I := MseAfter s) s.origH.isLt s.origW.isLt hw
    ?_ ?_ ?_ ?_ k hk
  · refine ⟨fun _ => ?_, fun h0 => ?_, rfl, Nat.zero_le _⟩
    · rw [State.mseAt, Nat.zero_div, Nat.zero_mod]; rfl
    · have := Nat.mul_pos hh hw
      omega
  · intro k v hk h
    rw [h.running hk]
    exact ⟨rfl, rfl, by rw [engineTurn_busy rfl, engineStep_mse rfl, mseCell]; rfl⟩
  · intro k v hk h
    have hlt := Nat.lt_of_succ_lt hk
    obtain ⟨hsum, hbound⟩ :=
      h.visit (t := v.mseAdd.setCursor ((k + 1) / s.origW.toNat, (k + 1) % s.origW.toNat)) hlt rfl
    refine ⟨fun _ => ?_, fun hend => absurd hend hk.ne, hsum, hbound⟩
    obtain ⟨sse, rfl⟩ : ∃ sse, v = s.mseAt k sse := ⟨_, h.running hlt⟩
    rfl
  · intro k v hk h
    have hlt : k < s.origH.toNat * s.origW.toNat := hk ▸ Nat.lt_succ_self k
    obtain ⟨hsum, hbound⟩ := h.visit (t := v.mseAdd.mseFinish.setCursor (s.origH.toNat, 0)) hlt rfl
    refine ⟨fun hlt' => absurd hk hlt'.ne, fun _ => ?_, hsum, hbound⟩
    obtain ⟨sse, rfl⟩ : ∃ sse, v = s.mseAt k sse := ⟨_, h.running hlt⟩
    exact mseFinish_mseAdd_mseAt s k sse

end Machine

namespace Proofs

open Machine

/-- Settles O35: the state at the end of the pass, whose sum is over all cells in order of address. -/
theorem msePassSumsSquares : Obligations.MsePassSumsSquares := by
  intro s hidle hH hW hh hw
  obtain ⟨t, ht, hmse⟩ := msePass hidle hH hW hh hw le_rfl
  have hdone := hmse.done rfl
  have hle := cells_le s.origH s.origW
  have hnpix : (BitVec.ofNat 32 (s.origH.toNat * s.origW.toNat)).toNat = s.origH.toNat * s.origW.toNat :=
    Nat.mod_eq_of_lt (by omega)
  refine ⟨t, ht, ?_, ?_, ?_, ?_, ?_⟩
  · exact hmse.sum.trans (sum_grid (fun a => s.cellDiff a ^ 2) _ _).symm
  · rw [hdone]; exact hnpix
  · rw [hdone]; rfl
  · rw [hdone]; exact .of_memories rfl rfl rfl
  · rw [hdone]; rfl

end Proofs

end Sys2Proof
end

section
/-! SUPPORT and proofs about the script lines `configure` and `loadgrid` (30_encoding.md R107, R108; 42_configure.md
R166): the steps of a list of host writes from an idle state. -/

namespace Sys2Proof

namespace Machine

/-! ## Steps of host writes -/

theorem toNat_regNo (r : Reg) : r.no.toNat = r.number := by
  cases r <;> rfl

theorem regNo_ne_zero {r : Reg} (h : r ≠ .cmd) : r.no ≠ 0#16 := by
  cases r <;> first | exact absurd rfl h | decide

theorem State.eq_withHost {s : State} {es : List Event} (h : s.script = es) : s = s.withHost es s.readings := by
  rw [← h]
  rfl

/-- A write to a register other than CMD, as a step of an idle machine (R91). -/
theorem step_writeReg {v : State} (hidle : v.status.busy = false) {r : Reg} (hr : r ≠ .cmd) (val : HostValue)
    (rest : List Event) (readings : List Reading) :
    step (v.withHost (.host (.wr r.no val) :: rest) readings) = .next ((v.writeReg r val).withHost rest readings) := by
  have hwrite : (v.withHost rest readings).writeReg r val = (v.writeReg r val).withHost rest readings := by
    cases r <;> rfl
  rw [step_withHost_cons, perform_host, ← hwrite]
  exact transact_wr_reg (s := v.withHost rest readings) hidle (toNat_regNo r).symm (regNo_ne_zero hr) val

/-- A command word, as a step of an idle machine (R250). -/
theorem step_command {v : State} (hidle : v.status.busy = false) (i : Instr) (rest : List Event)
    (readings : List Reading) :
    step (v.withHost (commandEvent (encode i) :: rest) readings) = exec i (v.withHost rest readings) := by
  have hword : ((encode i).setWidth 64).setWidth 32 = encode i := by cases i <;> rfl
  calc step (v.withHost (commandEvent (encode i) :: rest) readings)
      = transact (.wr 0#16 ((encode i).setWidth 64)) (v.withHost rest readings) := rfl
    _ = acceptWord (((encode i).setWidth 64).setWidth 32) (v.withHost rest readings) := transact_command hidle
    _ = exec i (v.withHost rest readings) := by rw [hword, acceptWord_of_decode_ok (decode_encode i)]

/-! ## The line `configure` with an unknown name -/

/-- What R166 says of each state `t` after the failed CFG of a run from `s`: no configuration, ConfigError, and no cell,
cursor or dimension changed. -/
structure Blocked (s : State) (op : BitVec 8) (t : State) : Prop where
  cfgValid : t.status.cfgValid = false
  result : t.status.result = 1#4
  idle : t.status.busy = false
  lastop : t.status.lastop = op
  errs : t.status.errs = s.status.errs ||| 1#4
  cells : SameCells s t
  cursor : t.curI = s.curI ∧ t.curJ = s.curJ
  dims : t.origH = s.origH ∧ t.origW = s.origW ∧ t.residH = s.residH ∧ t.residW = s.residW ∧ t.reconH = s.reconH ∧
    t.reconW = s.reconW

/-- ENC, DEC and RATIO without a configuration write STATUS alone: ConfigError (R181, R201, R235). -/
theorem exec_unconfigured {i : Instr} {s : State} (hi : i = .enc ∨ i = .dec ∨ i = .ratio)
    (hidle : s.status.busy = false) (hcfg : s.status.cfgValid = false) :
    ∃ ratioValid ratioDiv0, exec i s = .next { s with status := { s.status with
      ratioValid := ratioValid, ratioDiv0 := ratioDiv0, result := 1#4, errs := s.status.errs ||| 1#4,
      lastop := i.opcode } } := by
  rcases hi with rfl | rfl | rfl
  · exact ⟨_, _, (Proofs.encAcceptance s hidle).1 hcfg⟩
  · exact ⟨_, _, (Proofs.decAcceptance s hidle).1 hcfg⟩
  · exact ⟨_, _, (Proofs.ratioComputesBitCounts.2 s hidle).1 hcfg⟩

theorem Blocked.step_command {s t : State} {op : BitVec 8} (h : Blocked s op t) {i : Instr}
    (hi : i = .enc ∨ i = .dec ∨ i = .ratio) {rest : List Event} (hscript : t.script = commandEvent (encode i) :: rest) :
    ∃ u, step t = .next u ∧ Blocked s i.opcode u ∧ u.script = rest := by
  obtain ⟨hcfg, _, hidle, _, herrs, hcells, hcursor, hdims⟩ := h
  obtain ⟨_, _, hexec⟩ := exec_unconfigured (s := t.withHost rest t.readings) hi hidle hcfg
  rw [State.eq_withHost hscript, Machine.step_command hidle, hexec]
  refine ⟨_, rfl, ⟨hcfg, rfl, hidle, rfl, ?_, hcells, hcursor, hdims⟩, rfl⟩
  change t.status.errs ||| 1#4 = s.status.errs ||| 1#4
  rw [herrs, BitVec.or_assoc, BitVec.or_self]

/-- The state in which the CFG of `configure` is accepted (R107). -/
def State.configuring (s : State) (mode levels : HostValue) : State :=
  (s.writeReg .modeReq mode).writeReg .levelsReq levels

theorem steps_configure {s : State} {name : List Char} {levels : Int} {rest : List Event}
    (hidle : s.status.busy = false) (hscript : s.script = lineEvents (.configure name levels) ++ rest) :
    steps 3 s =
      exec .cfg ((s.configuring ((modeCode name).setWidth 64) (BitVec.ofInt 64 levels)).withHost rest s.readings) := by
  have hmode := step_writeReg hidle (r := .modeReq) (by decide) ((modeCode name).setWidth 64)
    (writeEvent Reg.levelsReq.no levels :: commandEvent (encode .cfg) :: rest) s.readings
  have hlevels := step_writeReg (v := s.writeReg .modeReq ((modeCode name).setWidth 64)) hidle (r := .levelsReq)
    (by decide) (BitVec.ofInt 64 levels) (commandEvent (encode .cfg) :: rest) s.readings
  calc steps 3 s = steps 3 (s.withHost (lineEvents (.configure name levels) ++ rest) s.readings) := by
        rw [← State.eq_withHost hscript]
    _ = steps 2 ((s.writeReg .modeReq ((modeCode name).setWidth 64)).withHost
          (writeEvent Reg.levelsReq.no levels :: commandEvent (encode .cfg) :: rest) s.readings) :=
        steps_succ_of_step hmode
    _ = steps 1 ((s.configuring ((modeCode name).setWidth 64) (BitVec.ofInt 64 levels)).withHost
          (commandEvent (encode .cfg) :: rest) s.readings) := steps_succ_of_step hlevels
    _ = exec .cfg ((s.configuring ((modeCode name).setWidth 64) (BitVec.ofInt 64 levels)).withHost rest
          s.readings) := by
        rw [steps_one, step_command]
        exact hidle

/-- `configure` with an unknown name: a CFG that raises ConfigError (R163, R107). -/
theorem steps_configure_unknown {s : State} {name : List Char} {levels : Int} {rest : List Event}
    (hidle : s.status.busy = false)
    (hname : name.map Char.toLower ∉ ["order1".toList, "order2".toList, "adaptive".toList])
    (hscript : s.script = lineEvents (.configure name levels) ++ rest) :
    ∃ t, steps 3 s = .next t ∧ Blocked s Instr.cfg.opcode t ∧ t.script = rest := by
  have hmode : 2 < (((0xFFFFFFFF#32).setWidth 64).setWidth 32).toNat := by decide
  have hsteps := steps_configure hidle hscript
  rw [modeCode_unknown hname] at hsteps
  have hdrop := (Proofs.cfgLatchesOrDrops ((s.configuring ((0xFFFFFFFF#32).setWidth 64)
    (BitVec.ofInt 64 levels)).withHost rest s.readings) hidle).2 (.inl hmode)
  refine ⟨_, hsteps.trans hdrop, ?_, rfl⟩
  exact ⟨rfl, rfl, hidle, rfl, rfl, .of_memories rfl rfl rfl, ⟨rfl, rfl⟩, ⟨rfl, rfl, rfl, rfl, rfl, rfl⟩⟩

/-! ## The line `loadgrid` -/

/-- The values of a list of cells written to a space in order, each the low bits of its value (R93, R103). -/
def State.writeCells (s : State) (sp : Space) (cs : List (CellAddr × Int)) : State :=
  cs.foldl (fun t c => t.writeCell sp c.1 (BitVec.ofInt 64 c.2)) s

theorem State.writeCells_frame (s : State) (sp : Space) (cs : List (CellAddr × Int)) :
    s.writeCells sp cs = { s with
      orig := (s.writeCells sp cs).orig, resid := (s.writeCells sp cs).resid,
      recon := (s.writeCells sp cs).recon } := by
  induction cs generalizing s with
  | nil => rfl
  | cons c cs ih =>
    have hcons : s.writeCells sp (c :: cs) = (s.writeCell sp c.1 (BitVec.ofInt 64 c.2)).writeCells sp cs := rfl
    rw [hcons, ih, State.writeCell_frame]

theorem step_writeCell {v : State} (hidle : v.status.busy = false) (sp : Space) (a : CellAddr) (val : HostValue)
    (rest : List Event) (readings : List Reading) :
    step (v.withHost (.host (.wm sp a val) :: rest) readings) =
      .next ((v.writeCell sp a val).withHost rest readings) := by
  have hwrite : (v.withHost rest readings).writeCell sp a val = (v.writeCell sp a val).withHost rest readings := by
    cases sp <;> rfl
  rw [step_withHost_cons, perform_host, ← hwrite]
  exact transact_wm_idle (s := v.withHost rest readings) hidle sp a val

theorem steps_writeCells {v : State} (hidle : v.status.busy = false) (sp : Space) (cs : List (CellAddr × Int))
    (rest : List Event) (readings : List Reading) :
    steps cs.length (v.withHost (cs.map (fun c => .host (.wm sp c.1 (BitVec.ofInt 64 c.2))) ++ rest) readings) =
      .next ((v.writeCells sp cs).withHost rest readings) := by
  induction cs generalizing v with
  | nil => rfl
  | cons c cs ih =>
    have hidle' : (v.writeCell sp c.1 (BitVec.ofInt 64 c.2)).status.busy = false := by
      rw [State.writeCell_frame]
      exact hidle
    exact (steps_succ_of_step (step_writeCell hidle sp c.1 (BitVec.ofInt 64 c.2) _ readings)).trans (ih hidle')

/-- Values and the consecutive addresses from `n` on they are written to. -/
def cellsFrom (n : Nat) (xs : List Int) : List (CellAddr × Int) :=
  (xs.zipIdx n).map fun c => (BitVec.ofNat 32 c.2, c.1)

theorem gridShape_iff {h w : Nat} {rows : List (List Int)} :
    gridShape h w rows = true ↔ rows.length = h ∧ ∀ row ∈ rows, row.length = w := by
  simp [gridShape]

/-- The rows from number `n` on, each at its own addresses, are their values at consecutive addresses (R63). -/
theorem flatMap_rows_eq {w n : Nat} {rows : List (List Int)} (hrows : ∀ row ∈ rows, row.length = w) :
    ((rows.zipIdx n).flatMap fun row => row.1.zipIdx.map fun c => (BitVec.ofNat 32 (addr row.2 c.2 w), c.1)) =
      cellsFrom (n * w) rows.flatten := by
  induction rows generalizing n with
  | nil => rfl
  | cons row rows ih =>
    have hrow : row.length = w := hrows row List.mem_cons_self
    have hnext : n * w + row.length = (n + 1) * w := by rw [hrow, Nat.succ_mul]
    rw [List.zipIdx_cons, List.flatMap_cons, List.flatten_cons, cellsFrom, List.zipIdx_append, List.map_append, hnext,
      ih fun r hr => hrows r (List.mem_cons_of_mem _ hr), List.zipIdx_eq_map_add (i := n * w), List.map_map]
    rfl

/-- A listed grid in row-major order is its values at the addresses 0, 1, 2, … (R63, R108). -/
theorem gridCells_eq {h w : Nat} {rows : List (List Int)} (hshape : gridShape h w rows = true) :
    gridCells w rows = cellsFrom 0 rows.flatten := by
  have hflat := flatMap_rows_eq (n := 0) (gridShape_iff.1 hshape).2
  rwa [Nat.zero_mul] at hflat

theorem length_flatten_of_rows {w : Nat} {rows : List (List Int)} (hrows : ∀ row ∈ rows, row.length = w) :
    rows.flatten.length = rows.length * w := by
  rw [List.length_flatten, List.map_congr_left hrows, List.map_const', List.sum_replicate, smul_eq_mul]

/-- The value in row i and column j stands at place i·W + j (R63). -/
theorem getElem?_flatten_addr {w i j : Nat} {rows : List (List Int)} {row : List Int} {v : Int}
    (hrows : ∀ row ∈ rows, row.length = w) (hrow : rows[i]? = some row) (hv : row[j]? = some v) :
    rows.flatten[i * w + j]? = some v := by
  induction rows generalizing i with
  | nil => cases hrow
  | cons r rows ih =>
    have hr : r.length = w := hrows r List.mem_cons_self
    cases i with
    | zero =>
      cases hrow
      obtain ⟨hj, _⟩ := List.getElem?_eq_some_iff.1 hv
      rw [List.flatten_cons, Nat.zero_mul, Nat.zero_add, List.getElem?_append_left hj, hv]
    | succ i =>
      rw [List.getElem?_cons_succ] at hrow
      rw [List.flatten_cons, Nat.succ_mul, List.getElem?_append_right (by omega), hr,
        show i * w + w + j - w = i * w + j by omega]
      exact ih (fun r hr => hrows r (List.mem_cons_of_mem _ hr)) hrow

theorem State.writeCells_cellsFrom_cons (s : State) (sp : Space) (n : Nat) (x : Int) (xs : List Int) :
    s.writeCells sp (cellsFrom n (x :: xs)) =
      (s.writeCell sp (BitVec.ofNat 32 n) (BitVec.ofInt 64 x)).writeCells sp (cellsFrom (n + 1) xs) := rfl

/-- A cell whose address none of the values was written to (R69). -/
theorem State.readCell_writeCells_of_outside (s : State) (sp : Space) {n : Nat} {xs : List Int}
    (hn : n + xs.length ≤ 2 ^ 32) {b : CellAddr} (hb : b.toNat < n ∨ n + xs.length ≤ b.toNat) :
    (s.writeCells sp (cellsFrom n xs)).readCell sp b = s.readCell sp b := by
  induction xs generalizing s n with
  | nil => rfl
  | cons x xs ih =>
    rw [List.length_cons] at hn hb
    have hne : b ≠ BitVec.ofNat 32 n := by
      rw [Ne, ← BitVec.toNat_inj, BitVec.toNat_ofNat, Nat.mod_eq_of_lt (by omega)]
      omega
    rw [State.writeCells_cellsFrom_cons, ih _ (by omega) (by omega)]
    exact BitVec.eq_of_toNat_eq (by rw [State.toNat_readCell_writeCell_self, if_neg hne])

/-- The k-th value stands at the k-th address from `n` on (R93): no later write touches it. -/
theorem State.toNat_readCell_writeCells (s : State) (sp : Space) {n k : Nat} {xs : List Int} {v : Int}
    (hn : n + xs.length ≤ 2 ^ 32) (hk : xs[k]? = some v) :
    ((s.writeCells sp (cellsFrom n xs)).readCell sp (BitVec.ofNat 32 (n + k))).toNat =
      (BitVec.ofInt 64 v).toNat % 2 ^ (if sp = .resid then 16 else 8) := by
  induction xs generalizing s n k with
  | nil => cases hk
  | cons x xs ih =>
    rw [List.length_cons] at hn
    rw [State.writeCells_cellsFrom_cons]
    cases k with
    | zero =>
      cases hk
      have hlt : (BitVec.ofNat 32 n).toNat < n + 1 := by
        rw [BitVec.toNat_ofNat]
        omega
      have hkept := (s.writeCell sp (BitVec.ofNat 32 n) (BitVec.ofInt 64 v)).readCell_writeCells_of_outside sp
        (n := n + 1) (xs := xs) (by omega) (.inl hlt)
      exact (congrArg BitVec.toNat hkept).trans (by rw [State.toNat_readCell_writeCell_self, if_pos rfl])
    | succ k =>
      rw [List.getElem?_cons_succ] at hk
      rw [Nat.add_comm k 1, ← Nat.add_assoc]
      exact ih _ (by omega) hk

theorem State.readCell_writeCells_of_ne (s : State) {sp sp' : Space} (h : sp' ≠ sp) (cs : List (CellAddr × Int))
    (b : CellAddr) : (s.writeCells sp cs).readCell sp' b = s.readCell sp' b := by
  induction cs generalizing s with
  | nil => rfl
  | cons c cs ih => exact (ih _).trans (s.readCell_writeCell_of_ne h c.1 b _)

/-- The engine after `loadgrid SPACE, H, W, [[...]]` (R108). -/
def State.gridLoaded (s : State) (sp : Space) (h w : Nat) (rows : List (List Int)) : State :=
  ((s.writeReg sp.heightReg (BitVec.ofInt 64 h)).writeReg sp.widthReg (BitVec.ofInt 64 w)).writeCells sp
    (gridCells w rows)

theorem State.writeReg_status (s : State) (r : Reg) (v : HostValue) : (s.writeReg r v).status = s.status := by
  cases r <;> rfl

theorem State.readCell_writeReg (s : State) (r : Reg) (v : HostValue) (sp : Space) (a : CellAddr) :
    (s.writeReg r v).readCell sp a = s.readCell sp a := by
  obtain ⟨⟨horig, hresid, hrecon⟩, _⟩ := s.writeReg_frame r v
  simp only [State.readCell, horig, hresid, hrecon]

theorem State.readNumber_writeCells (s : State) (sp : Space) (cs : List (CellAddr × Int)) (n : RegNo) :
    (s.writeCells sp cs).readNumber n = s.readNumber n := by
  have hreg : ∀ r, (s.writeCells sp cs).readReg r = s.readReg r := fun r => by
    rw [State.writeCells_frame]
    cases r <;> rfl
  simp only [State.readNumber, hreg]

theorem State.readNumber_withHost (s : State) (script : List Event) (readings : List Reading) (n : RegNo) :
    (s.withHost script readings).readNumber n = s.readNumber n := by
  have hreg : ∀ r, (s.withHost script readings).readReg r = s.readReg r := fun r => by
    cases r <;> rfl
  simp only [State.readNumber, hreg]

theorem State.readCell_withHost (s : State) (script : List Event) (readings : List Reading) (sp : Space)
    (a : CellAddr) : (s.withHost script readings).readCell sp a = s.readCell sp a := by
  cases sp <;> rfl

/-- The dimension registers of a space are two of the registers 4 to 9 (R22, R35). -/
theorem dimRegister_numbers (sp : Space) :
    (sp.heightReg ≠ .cmd ∧ 4 ≤ sp.heightReg.number ∧ sp.heightReg.number ≤ 9) ∧
      (sp.widthReg ≠ .cmd ∧ 4 ≤ sp.widthReg.number ∧ sp.widthReg.number ≤ 9) ∧ sp.heightReg.no ≠ sp.widthReg.no := by
  cases sp <;> decide

/-- The whole register file after a dimension below 2^16 is written (R91). -/
theorem State.toNat_readNumber_writeDim (s : State) {r : Reg} (h4 : 4 ≤ r.number) (h9 : r.number ≤ 9) {d : Nat}
    (hd : d < 65536) (k : RegNo) :
    ((s.writeReg r (BitVec.ofInt 64 d)).readNumber k).toNat = if k = r.no then d else (s.readNumber k).toNat := by
  have hlow : (BitVec.ofInt 64 (d : Int)).toNat % 2 ^ 16 = d := by
    rw [BitVec.ofInt_natCast, BitVec.toNat_ofNat]
    omega
  rw [State.toNat_readNumber_writeReg s (toNat_regNo r).symm, toNat_regNo, if_neg (show ¬ r.number ≤ 3 by omega), hlow]
  exact if_congr (and_iff_left ⟨by omega, h9⟩) rfl rfl

theorem steps_loadgrid {s : State} {sp : Space} {h w : Nat} {rows : List (List Int)} {rest : List Event}
    (hidle : s.status.busy = false) (hscript : s.script = lineEvents (.loadgrid sp h w rows) ++ rest) :
    steps ((gridCells w rows).length + 2) s = .next ((s.gridLoaded sp h w rows).withHost rest s.readings) := by
  obtain ⟨⟨hheight, _⟩, ⟨hwidth, _⟩, _⟩ := dimRegister_numbers sp
  have hidle₁ : (s.writeReg sp.heightReg (BitVec.ofInt 64 h)).status.busy = false := by
    rw [State.writeReg_status, hidle]
  have hidle₂ : ((s.writeReg sp.heightReg (BitVec.ofInt 64 h)).writeReg sp.widthReg (BitVec.ofInt 64 w)).status.busy =
      false := by
    rw [State.writeReg_status, hidle₁]
  have hload := (steps_succ_of_step (step_writeReg hidle hheight _ _ s.readings)).trans
    ((steps_succ_of_step (step_writeReg hidle₁ hwidth _ _ s.readings)).trans
      (steps_writeCells hidle₂ sp (gridCells w rows) rest s.readings))
  exact (congrArg (steps _) (State.eq_withHost hscript)).trans hload

/-- The low bits of `trunc_64(v)` are those of v (R103). -/
theorem int_toNat_ofInt_mod (v : Int) (sp : Space) :
    (((BitVec.ofInt 64 v).toNat % 2 ^ (if sp = .resid then 16 else 8) : Nat) : Int) =
      v % 2 ^ (if sp = .resid then 16 else 8) := by
  rw [BitVec.toNat_ofInt]
  split_ifs <;> omega

end Machine

namespace Proofs

open Machine

/-- Settles O22: the failed CFG blocks ENC, DEC and RATIO in turn. -/
theorem unknownNameBlocksThePipeline : Obligations.UnknownNameBlocksThePipeline := by
  intro s name levels rest hidle h1 h2 h3 hscript n op later hn
  have hname : name.map Char.toLower ∉ ["order1".toList, "order2".toList, "adaptive".toList] := by
    simp only [List.mem_cons, List.not_mem_nil, or_false, not_or]
    exact ⟨h1, h2, h3⟩
  rw [List.append_assoc] at hscript
  obtain ⟨t3, hsteps3, hcfg, hscript3⟩ := steps_configure_unknown hidle hname hscript
  obtain ⟨t4, hstep4, henc, hscript4⟩ := hcfg.step_command (i := .enc) (by decide) hscript3
  obtain ⟨t5, hstep5, hdec, hscript5⟩ := henc.step_command (i := .dec) (by decide) hscript4
  obtain ⟨t6, hstep6, hratio, hscript6⟩ := hdec.step_command (i := .ratio) (by decide) hscript5
  have hsteps4 : steps 4 s = .next t4 := (steps_add hsteps3).trans ((steps_one _).trans hstep4)
  have hsteps5 : steps 5 s = .next t5 := (steps_add hsteps4).trans ((steps_one _).trans hstep5)
  have hsteps6 : steps 6 s = .next t6 := (steps_add hsteps5).trans ((steps_one _).trans hstep6)
  have hblocked : ∃ t, steps n s = .next t ∧ Blocked s op t ∧ t.script = later := by
    rcases hn with ⟨rfl, rfl, rfl⟩ | ⟨rfl, rfl, rfl⟩ | ⟨rfl, rfl, rfl⟩ | ⟨rfl, rfl, rfl⟩
    · exact ⟨t3, hsteps3, hcfg, hscript3⟩
    · exact ⟨t4, hsteps4, henc, hscript4⟩
    · exact ⟨t5, hsteps5, hdec, hscript5⟩
    · exact ⟨t6, hsteps6, hratio, hscript6⟩
  obtain ⟨t, hsteps, ⟨hvalid, hresult, hidle, hop, herrs, hcells, ⟨hI, hJ⟩, hdims⟩, hlater⟩ := hblocked
  obtain ⟨hoh, how, hrh, hrw, hch, hcw⟩ := hdims
  exact ⟨t, hsteps, hvalid, hresult, hidle, hop, herrs, hcells, hI, hJ, hoh, how, hrh, hrw, hch, hcw, hlater⟩

/-- Settles O57: two register writes, then the listed values at the addresses 0 to H·W − 1. -/
theorem loadgridPlacesTheGrid : Obligations.LoadgridPlacesTheGrid := by
  intro s sp h w rows rest hidle hh hw hshape hscript
  obtain ⟨hlen, hrows⟩ := gridShape_iff.1 hshape
  obtain ⟨⟨_, hheight4, hheight9⟩, ⟨_, hwidth4, hwidth9⟩, hne⟩ := dimRegister_numbers sp
  have hcells : gridCells w rows = cellsFrom 0 rows.flatten := gridCells_eq hshape
  have hflat : rows.flatten.length = h * w := by rw [length_flatten_of_rows hrows, hlen]
  have hcount : (gridCells w rows).length = h * w := by
    rw [hcells, cellsFrom, List.length_map, List.length_zipIdx, hflat]
  have hroom : 0 + rows.flatten.length ≤ 2 ^ 32 := by
    have := Nat.mul_le_mul (show h ≤ 65535 by omega) (show w ≤ 65535 by omega)
    omega
  have hsteps := steps_loadgrid hidle hscript
  rw [hcount, Nat.add_comm] at hsteps
  have hread : ∀ k : RegNo, (((s.gridLoaded sp h w rows).withHost rest s.readings).readNumber k).toNat =
      if k = sp.widthReg.no then w else if k = sp.heightReg.no then h else (s.readNumber k).toNat := fun k => by
    rw [State.readNumber_withHost, State.gridLoaded, State.readNumber_writeCells,
      State.toNat_readNumber_writeDim _ hwidth4 hwidth9 hw, State.toNat_readNumber_writeDim _ hheight4 hheight9 hh]
  refine ⟨_, hsteps, rfl, rfl, ?_, ?_, fun n hn1 hn2 => ?_, fun i j row v hrow hv => ?_, fun sp' b hb => ?_⟩
  · rw [hread, if_neg hne, if_pos rfl]
  · rw [hread, if_pos rfl]
  · exact BitVec.eq_of_toNat_eq (by rw [hread, if_neg hn2, if_neg hn1])
  · have hplace := getElem?_flatten_addr hrows hrow hv
    have hcell := State.toNat_readCell_writeCells ((s.writeReg sp.heightReg (BitVec.ofInt 64 h)).writeReg sp.widthReg
      (BitVec.ofInt 64 w)) sp hroom hplace
    rw [Nat.zero_add] at hcell
    rw [State.readCell_withHost, State.gridLoaded, hcells, hcell, int_toNat_ofInt_mod]
  · rw [State.readCell_withHost, State.gridLoaded]
    by_cases hsp : sp' = sp
    · subst hsp
      have hout : h * w ≤ b.toNat := hb.resolve_left fun hn => hn rfl
      rw [hcells, State.readCell_writeCells_of_outside _ sp' hroom (.inr (by omega)), State.readCell_writeReg,
        State.readCell_writeReg]
    · rw [State.readCell_writeCells_of_ne _ hsp, State.readCell_writeReg, State.readCell_writeReg]

end Proofs

end Sys2Proof
end

section
/-! SUPPORT and proof about FQUOT (45_statistics.md R232): rounding to nearest with ties to even, the exponent of a
quotient, and the values of the binary64 patterns (log entry 12). -/

namespace Sys2Proof

namespace Machine

/-! ## Rounding to nearest -/

/-- The rounded quotient is the integer below a / b or the one above it, whichever is nearer; at a tie it is even. -/
theorem roundHalfEven_cases (a b : Nat) :
    (roundHalfEven a b = a / b ∧ 2 * (a % b) ≤ b ∧ (2 * (a % b) = b → a / b % 2 = 0)) ∨
      (roundHalfEven a b = a / b + 1 ∧ b ≤ 2 * (a % b) ∧ (2 * (a % b) = b → (a / b + 1) % 2 = 0)) := by
  unfold roundHalfEven
  split_ifs with hbelow habove heven
  · exact .inl ⟨rfl, by omega, by omega⟩
  · exact .inr ⟨rfl, by omega, by omega⟩
  · exact .inl ⟨rfl, by omega, fun _ => heven⟩
  · exact .inr ⟨rfl, by omega, by omega⟩

/-- How far the integers are from a / b, as numerators over b: the two around it, and all others. -/
theorem natAbs_mul_sub (a : Nat) {b : Nat} (hb : 0 < b) :
    (((a / b : Nat) : Int) * b - a).natAbs = a % b ∧ (((a / b + 1 : Nat) : Int) * b - a).natAbs = b - a % b ∧
      ∀ k : Int, k ≠ (a / b : Nat) → k ≠ (a / b + 1 : Nat) → b ≤ (k * b - a).natAbs := by
  have hdivmod : ((a / b : Nat) : Int) * b + (a % b : Nat) = a := by exact_mod_cast Nat.div_add_mod' a b
  have hmod : a % b < b := Nat.mod_lt a hb
  refine ⟨by omega, by rw [Nat.cast_add, add_mul]; omega, fun k hk hk' => ?_⟩
  rcases lt_or_gt_of_ne hk with hlt | hgt
  · have hmul : (k + 1) * b ≤ (a / b : Nat) * b := Int.mul_le_mul_of_nonneg_right hlt (by omega)
    rw [add_mul] at hmul
    omega
  · have hmul : ((a / b : Nat) + 2 : Int) * b ≤ k * b := Int.mul_le_mul_of_nonneg_right (by omega) (by omega)
    rw [add_mul] at hmul
    omega

/-- No integer is nearer to a / b, and one as near leaves an even result. -/
theorem roundHalfEven_nearest (a : Nat) {b : Nat} (hb : 0 < b) (k : Int) :
    |(roundHalfEven a b : Int) * b - a| ≤ |k * b - a| ∧
      (|(roundHalfEven a b : Int) * b - a| = |k * b - a| → k = roundHalfEven a b ∨ roundHalfEven a b % 2 = 0) := by
  have hmod : a % b < b := Nat.mod_lt a hb
  obtain ⟨hbelow, habove, hother⟩ := natAbs_mul_sub a hb
  have hk : (k = (a / b : Nat) ∧ (k * b - a).natAbs = a % b) ∨
      (k = (a / b + 1 : Nat) ∧ (k * b - a).natAbs = b - a % b) ∨ b ≤ (k * b - a).natAbs := by
    by_cases h : k = (a / b : Nat)
    · exact .inl ⟨h, h ▸ hbelow⟩
    · by_cases h' : k = (a / b + 1 : Nat)
      · exact .inr (.inl ⟨h', h' ▸ habove⟩)
      · exact .inr (.inr (hother k h h'))
  simp only [Int.abs_eq_natAbs]
  rcases roundHalfEven_cases a b with ⟨hr, hle, heven⟩ | ⟨hr, hle, heven⟩
  · rw [hr, hbelow]
    omega
  · rw [hr, habove]
    omega

/-! ## The exponent of a quotient -/

/-- A power of two with an integer exponent as a fraction of naturals. -/
theorem two_zpow_eq_div (z : Int) : (2 : ℚ) ^ z = 2 ^ z.toNat / 2 ^ (-z).toNat := by
  rw [← zpow_natCast, ← zpow_natCast, ← zpow_sub₀ two_ne_zero]
  congr 1
  omega

theorem two_zpow_le_div_iff {n d : Nat} (hd : 0 < d) (z : Int) :
    (2 : ℚ) ^ z ≤ n / d ↔ d * 2 ^ z.toNat ≤ n * 2 ^ (-z).toNat := by
  have hd' : (0 : ℚ) < d := by exact_mod_cast hd
  rw [two_zpow_eq_div, div_le_div_iff₀ (by positivity) hd', mul_comm (2 ^ z.toNat : ℚ)]
  exact_mod_cast Iff.rfl

/-- The exponent is that of the leading bit (R232). -/
theorem quotientExponent_spec {n d : Nat} (hn : 0 < n) (hd : 0 < d) :
    (2 : ℚ) ^ quotientExponent n d ≤ n / d ∧ (n : ℚ) / d < 2 ^ (quotientExponent n d + 1) := by
  have hd' : (0 : ℚ) < d := by exact_mod_cast hd
  have hnlow : (2 : ℚ) ^ (n.log2 : Int) ≤ n := by exact_mod_cast Nat.log2_self_le hn.ne'
  have hnhigh : (n : ℚ) < 2 ^ ((n.log2 : Int) + 1) := by exact_mod_cast Nat.lt_log2_self
  have hdlow : (2 : ℚ) ^ (d.log2 : Int) ≤ d := by exact_mod_cast Nat.log2_self_le hd.ne'
  have hdhigh : (d : ℚ) ≤ 2 ^ ((d.log2 : Int) + 1) := by exact_mod_cast Nat.lt_log2_self.le
  have hhigh : (n : ℚ) / d < 2 ^ ((n.log2 : Int) - d.log2 + 1) := by
    rw [div_lt_iff₀ hd']
    calc (n : ℚ) < 2 ^ ((n.log2 : Int) + 1) := hnhigh
      _ = 2 ^ ((n.log2 : Int) - d.log2 + 1) * 2 ^ (d.log2 : Int) := by rw [← zpow_add₀ two_ne_zero]; congr 1; ring
      _ ≤ _ := by gcongr
  have hlow : (2 : ℚ) ^ ((n.log2 : Int) - d.log2 - 1) ≤ n / d := by
    rw [le_div_iff₀ hd']
    calc (2 : ℚ) ^ ((n.log2 : Int) - d.log2 - 1) * d
        ≤ 2 ^ ((n.log2 : Int) - d.log2 - 1) * 2 ^ ((d.log2 : Int) + 1) := by gcongr
      _ = 2 ^ (n.log2 : Int) := by rw [← zpow_add₀ two_ne_zero]; congr 1; ring
      _ ≤ n := hnlow
  unfold quotientExponent
  dsimp only
  split_ifs with hcond
  · exact ⟨(two_zpow_le_div_iff hd _).2 hcond, hhigh⟩
  · rw [← two_zpow_le_div_iff hd, not_le] at hcond
    exact ⟨hlow, by rwa [Int.sub_add_cancel]⟩

theorem log2_lt_of_lt {n : Nat} (hn : n < 2 ^ 64) : n.log2 < 64 := by
  rcases Nat.eq_zero_or_pos n with rfl | hpos
  · decide
  · exact (Nat.log2_lt hpos.ne').2 hn

theorem quotientExponent_range {n d : Nat} (hn : n < 2 ^ 64) (hd : d < 2 ^ 64) :
    -64 ≤ quotientExponent n d ∧ quotientExponent n d ≤ 63 := by
  have hlogn : n.log2 < 64 := log2_lt_of_lt hn
  have hlogd : d.log2 < 64 := log2_lt_of_lt hd
  unfold quotientExponent
  dsimp only
  split_ifs <;> omega

/-! ## The values of the patterns -/

/-- The distance of the patterns with exponent field E + 1 (R232). -/
def binary64Unit (E : Nat) : ℚ := 2 ^ ((E : Int) - 1074)

theorem binary64Unit_pos (E : Nat) : 0 < binary64Unit E := by
  unfold binary64Unit
  positivity

theorem binary64Unit_add (E k : Nat) : binary64Unit (E + k) = 2 ^ k * binary64Unit E := by
  rw [binary64Unit, binary64Unit, ← zpow_natCast, ← zpow_add₀ two_ne_zero]
  congr 1
  push_cast
  ring

theorem binary64Unit_mono {E F : Nat} (h : E ≤ F) : binary64Unit E ≤ binary64Unit F :=
  zpow_le_zpow_right₀ one_le_two (by omega)

/-- A normal pattern by its fields. -/
theorem binary64Value_normal {x : FloatBits} {F f : Nat} (hf : f < 2 ^ 52) (hx : x.toNat = F * 2 ^ 52 + (2 ^ 52 + f)) :
    binary64Value x = (2 ^ 52 + f : Nat) * binary64Unit F := by
  have hdiv : x.toNat / 2 ^ 52 = F + 1 := by omega
  have hmod : x.toNat % 2 ^ 52 = f := by omega
  rw [binary64Value, hdiv, hmod, if_neg (Nat.succ_ne_zero F), binary64Unit]
  congr 2
  push_cast
  ring

/-- A subnormal pattern. -/
theorem binary64Value_subnormal {x : FloatBits} (hx : x.toNat < 2 ^ 52) :
    binary64Value x = (x.toNat : Nat) * binary64Unit 0 := by
  rw [binary64Value, if_pos (by omega), Nat.mod_eq_of_lt hx, binary64Unit]
  rfl

/-- The patterns from E + 1 units of exponent on count units; a round-up into the next exponent is carried (R232). -/
theorem binary64Value_of_toNat {x : FloatBits} {E m : Nat} (hlow : 2 ^ 52 ≤ m) (hhigh : m ≤ 2 ^ 53)
    (hx : x.toNat = E * 2 ^ 52 + m) : binary64Value x = m * binary64Unit E := by
  rcases hhigh.lt_or_eq with hlt | rfl
  · have hvalue := binary64Value_normal (x := x) (F := E) (f := m - 2 ^ 52) (by omega) (by omega)
    rwa [Nat.add_sub_cancel' hlow] at hvalue
  · have hcarry : x.toNat = (E + 1) * 2 ^ 52 + (2 ^ 52 + 0) := by rw [hx, Nat.succ_mul]; omega
    rw [binary64Value_normal (f := 0) (by norm_num) hcarry, binary64Unit_add]
    push_cast
    ring

/-- A number of units that stays in its binade or just reaches the next one is its place in the order of the
patterns. -/
theorem place_of_units {E k f B : Nat} (hB : 0 < B) (hle : (B + f) * 2 ^ k ≤ 2 * B) :
    (E + k) * B + (B + f) = E * B + (B + f) * 2 ^ k := by
  match k with
  | 0 => rw [Nat.add_zero, Nat.pow_zero, Nat.mul_one]
  | 1 => rw [Nat.succ_mul]; omega
  | k + 2 =>
    have hfour : (B + f) * 4 ≤ (B + f) * 2 ^ (k + 2) :=
      Nat.mul_le_mul_left _ (by rw [Nat.pow_add]; exact Nat.le_mul_of_pos_left _ (by positivity))
    omega

/-- Every pattern is below the binade of exponent field E + 1, or a whole number of its units, and within that binade
the number is its place. -/
theorem binary64Value_cases (y : FloatBits) (E : Nat) :
    binary64Value y < 2 ^ 52 * binary64Unit E ∨
      ∃ k : Nat, binary64Value y = k * binary64Unit E ∧ (k ≤ 2 ^ 53 → y.toNat = E * 2 ^ 52 + k) := by
  have hunit := binary64Unit_pos
  rcases lt_or_ge y.toNat (2 ^ 52) with hsub | hnormal
  · left
    rw [binary64Value_subnormal hsub]
    have hmono : binary64Unit 0 ≤ binary64Unit E := binary64Unit_mono (Nat.zero_le E)
    have hlt : (y.toNat : ℚ) < 2 ^ 52 := by exact_mod_cast hsub
    nlinarith [hunit 0, hunit E]
  · obtain ⟨F, f, hf, hy⟩ : ∃ F f, f < 2 ^ 52 ∧ y.toNat = F * 2 ^ 52 + (2 ^ 52 + f) :=
      ⟨y.toNat / 2 ^ 52 - 1, y.toNat % 2 ^ 52, Nat.mod_lt _ (by norm_num), by omega⟩
    rw [binary64Value_normal hf hy]
    rcases lt_or_ge F E with hFE | hFE
    · left
      have hmono : binary64Unit (F + 1) ≤ binary64Unit E := binary64Unit_mono hFE
      have hlt : ((2 ^ 52 + f : Nat) : ℚ) < 2 ^ 52 * 2 ^ 1 := by exact_mod_cast Nat.add_lt_add_left hf (2 ^ 52)
      calc ((2 ^ 52 + f : Nat) : ℚ) * binary64Unit F < 2 ^ 52 * 2 ^ 1 * binary64Unit F :=
            mul_lt_mul_of_pos_right hlt (hunit F)
        _ = 2 ^ 52 * binary64Unit (F + 1) := by rw [binary64Unit_add, mul_assoc]
        _ ≤ 2 ^ 52 * binary64Unit E := by gcongr
    · right
      obtain ⟨k, rfl⟩ := Nat.exists_eq_add_of_le hFE
      refine ⟨(2 ^ 52 + f) * 2 ^ k, ?_, fun hle => ?_⟩
      · rw [binary64Unit_add]
        push_cast
        ring
      · rw [hy]
        exact place_of_units (by norm_num) (hle.trans_eq (by norm_num))

/-! ## FQUOT -/

theorem roundHalfEven_range {a b l h : Nat} (hb : 0 < b) (hlow : l * b ≤ a) (hhigh : a < h * b) :
    l ≤ roundHalfEven a b ∧ roundHalfEven a b ≤ h := by
  have hl : l ≤ a / b := (Nat.le_div_iff_mul_le hb).2 hlow
  have hh : a / b < h := (Nat.div_lt_iff_lt_mul hb).2 hhigh
  rcases roundHalfEven_cases a b with ⟨hr, _⟩ | ⟨hr, _⟩ <;> omega

/-- The operands of the rounding, as a fraction: the quotient scaled so that its leading bit counts 2^52. -/
theorem scaled_div (n d : Nat) (z : Int) :
    ((n * 2 ^ z.toNat : Nat) : ℚ) / (d * 2 ^ (-z).toNat : Nat) = n / d * 2 ^ z := by
  rw [two_zpow_eq_div, div_mul_div_comm]
  push_cast
  rfl

/-- `fquot` with the branches taken by two positive numbers whose quotient is neither subnormal nor infinite. -/
theorem toNat_fquot {n d : Nat} (hn : 0 < n) (hd : 0 < d) {e : Int} (he : quotientExponent n d = e) (hmin : -64 ≤ e)
    (hmax : e ≤ 63) (hround : roundHalfEven (n * 2 ^ (52 - e).toNat) (d * 2 ^ (e - 52).toNat) ≤ 2 ^ 53) :
    (fquot n d).toNat =
      (e + 1022).toNat * 2 ^ 52 + roundHalfEven (n * 2 ^ (52 - e).toNat) (d * 2 ^ (e - 52).toNat) := by
  have hinf : plusInfinity.toNat = 2047 * 2 ^ 52 := rfl
  rw [fquot, if_pos hd, roundBinary64, if_neg hn.ne', he]
  dsimp only
  rw [max_eq_left (by omega), hinf, if_pos (by omega), BitVec.toNat_ofNat, Nat.mod_eq_of_lt (by omega)]

/-- What FQUOT computes for two positive numbers of at most 64 bits (R232): the rounded number of units of the
quotient's binade, standing above the exponent field; the quotient is neither subnormal nor infinite. -/
theorem fquot_spec {n d : Nat} (hn : 0 < n) (hd : 0 < d) (hn64 : n < 2 ^ 64) (hd64 : d < 2 ^ 64) :
    ∃ E a b : Nat, 0 < b ∧ E ≤ 1085 ∧ (n : ℚ) / d = a / b * binary64Unit E ∧ 2 ^ 52 * b ≤ a ∧ a < 2 ^ 53 * b ∧
      (fquot n d).toNat = E * 2 ^ 52 + roundHalfEven a b := by
  obtain ⟨hlow, hhigh⟩ := quotientExponent_spec hn hd
  obtain ⟨hmin, hmax⟩ := quotientExponent_range hn64 hd64
  generalize he : quotientExponent n d = e at hlow hhigh hmin hmax
  have hb : 0 < d * 2 ^ (e - 52).toNat := by positivity
  have hb' : (0 : ℚ) < (d * 2 ^ (e - 52).toNat : Nat) := by exact_mod_cast hb
  have hscaled := scaled_div n d (52 - e)
  rw [show -(52 - e) = e - 52 by ring] at hscaled
  have hge : 2 ^ 52 * (d * 2 ^ (e - 52).toNat) ≤ n * 2 ^ (52 - e).toNat := by
    have h : (2 : ℚ) ^ 52 ≤ (n * 2 ^ (52 - e).toNat : Nat) / (d * 2 ^ (e - 52).toNat : Nat) := by
      rw [hscaled]
      calc (2 : ℚ) ^ 52 = 2 ^ e * 2 ^ (52 - e) := by rw [← zpow_add₀ two_ne_zero, add_sub_cancel]; rfl
        _ ≤ n / d * 2 ^ (52 - e) := by gcongr
    rw [le_div_iff₀ hb'] at h
    exact_mod_cast h
  have hlt : n * 2 ^ (52 - e).toNat < 2 ^ 53 * (d * 2 ^ (e - 52).toNat) := by
    have h : ((n * 2 ^ (52 - e).toNat : Nat) : ℚ) / (d * 2 ^ (e - 52).toNat : Nat) < 2 ^ 53 := by
      rw [hscaled]
      calc (n : ℚ) / d * 2 ^ (52 - e) < 2 ^ (e + 1) * 2 ^ (52 - e) := by gcongr
        _ = 2 ^ 53 := by rw [← zpow_add₀ two_ne_zero, show e + 1 + (52 - e) = 53 by ring]; rfl
    rw [div_lt_iff₀ hb'] at h
    exact_mod_cast h
  refine ⟨(e + 1022).toNat, _, _, hb, by omega, ?_, hge, hlt,
    toNat_fquot hn hd he hmin hmax (roundHalfEven_range hb hge hlt).2⟩
  rw [hscaled, binary64Unit, mul_assoc, ← zpow_add₀ two_ne_zero,
    show 52 - e + (((e + 1022).toNat : Int) - 1074) = 0 by omega, zpow_zero, mul_one]

/-- The distance of k units from a / b units, by its numerator over b. -/
theorem abs_units_sub (k : Int) (a : Nat) {b : Nat} {u : ℚ} (hb : 0 < b) (hu : 0 < u) :
    |k * u - a / b * u| = ((|k * b - a| : Int) : ℚ) * (u / b) := by
  have hb' : (0 : ℚ) < b := by exact_mod_cast hb
  have hfactor : (k : ℚ) * u - a / b * u = (k * b - a) * (u / b) := by field_simp
  rw [hfactor, abs_mul, abs_of_pos (div_pos hu hb')]
  push_cast
  rfl

/-- No number of units is nearer to a / b units than the rounded one, and one as near leaves it even. -/
theorem roundHalfEven_units_nearest (k : Int) (a : Nat) {b : Nat} {u : ℚ} (hb : 0 < b) (hu : 0 < u) :
    |(roundHalfEven a b : ℚ) * u - a / b * u| ≤ |k * u - a / b * u| ∧
      (|(roundHalfEven a b : ℚ) * u - a / b * u| = |k * u - a / b * u| →
        k = roundHalfEven a b ∨ roundHalfEven a b % 2 = 0) := by
  have hpos : 0 < u / b := div_pos hu (by exact_mod_cast hb)
  obtain ⟨hle, heven⟩ := roundHalfEven_nearest a hb k
  have hround := abs_units_sub (roundHalfEven a b) a hb hu
  rw [Int.cast_natCast] at hround
  rw [hround, abs_units_sub k a hb hu]
  refine ⟨mul_le_mul_of_nonneg_right (by exact_mod_cast hle) hpos.le, fun h => heven ?_⟩
  exact_mod_cast mul_right_cancel₀ hpos.ne' h

end Machine

namespace Proofs

open Machine

/-- Settles O55: a pattern is below the quotient's binade, and then the binade's first one is nearer, or it is a whole
number of the binade's units, and then the rounded one is. -/
theorem fquotIsCorrectlyRounded : Obligations.FquotIsCorrectlyRounded := by
  refine ⟨fun n d hn hd hn64 hd64 => ?_, fun d hd => ?_, fun n _ => rfl⟩
  · obtain ⟨E, a, b, hb, hE, hquot, hge, hlt, hplace⟩ := fquot_spec hn hd hn64 hd64
    obtain ⟨hlow, hhigh⟩ := roundHalfEven_range hb hge hlt
    have hu := binary64Unit_pos E
    refine ⟨by omega, fun y _ => ?_⟩
    rw [binary64Value_of_toNat hlow hhigh hplace, hquot]
    rcases binary64Value_cases y E with hbelow | ⟨k, hvalue, hk⟩
    · have hnear := (roundHalfEven_units_nearest (2 ^ 52) a hb hu).1
      have hfirst : (2 : ℚ) ^ 52 * binary64Unit E ≤ a / b * binary64Unit E := by
        have : (2 : ℚ) ^ 52 ≤ a / b := by
          rw [le_div_iff₀ (by exact_mod_cast hb)]
          exact_mod_cast hge
        gcongr
      rw [Int.cast_pow, Int.cast_ofNat] at hnear
      rw [abs_of_nonpos (sub_nonpos.2 hfirst)] at hnear
      have hfar : |(roundHalfEven a b : ℚ) * binary64Unit E - a / b * binary64Unit E| <
          |binary64Value y - a / b * binary64Unit E| := by
        rw [abs_of_neg (sub_neg.2 (hbelow.trans_le hfirst))]
        linarith
      exact ⟨hfar.le, fun heq => absurd heq hfar.ne⟩
    · obtain ⟨hle, heven⟩ := roundHalfEven_units_nearest k a hb hu
      rw [Int.cast_natCast, ← hvalue] at hle heven
      refine ⟨hle, fun heq hne => ?_⟩
      rcases heven heq with hsame | heven
      · have hsame : k = roundHalfEven a b := by exact_mod_cast hsame
        exact absurd (BitVec.eq_of_toNat_eq ((hk (hsame ▸ hhigh)).trans (by rw [hplace, hsame]))) hne
      · omega
  · rw [fquot, if_pos hd, roundBinary64, if_pos rfl]

end Proofs

end Sys2Proof
end
